-- ==== Sys2Proof/Word.lean ====
section
/-! DEFINITION. The widths of the block's registers and the names of harts and banks
(00_scope.md R8, R10, R12). -/

namespace Sys2Proof

/-- A value of XLEN = 64 bits: a call register, an event register, an id, an address
(00_scope.md R10, decision D12; log 2). -/
abbrev Word := BitVec 64

/-- A value of 32 bits: a table register or the write-enable mask
(00_scope.md R8 CFG_W, R10 FRAME_W and WEN_W; log 25). -/
abbrev Word32 := BitVec 32

/-- An authorization field, 8 bits (00_scope.md R8 AUTH_W), and a byte of the table space. -/
abbrev Byte := BitVec 8

/-- A hart, ids 0 to 3 (60_exceptions.md R234). -/
abbrev Hart := Fin 4

/-- A replica bank of the region table, `c` = 0 to 3 (10_state.md R27, N_CORES = 4). -/
abbrev Bank := Fin 4

end Sys2Proof
end

