-- ==== Sys2Proof/Config.lean ====
section
/-! DEFINITION. The configuration record `Cfg` of 00_scope.md R9, the names it speaks of, and the
constants of R8 and R10. -/

namespace Sys2Proof

/-- The three table slots the block addresses (10_state.md R20). -/
inductive Slot where
  | tcm0   -- slot 26
  | tcm1   -- slot 27
  | rsv    -- slot 28, the reserved window
deriving DecidableEq, Repr

/-- The two configuration words the block addresses (10_state.md R27). -/
inductive CfgWord where
  | w6
  | w7
deriving DecidableEq, Repr

/-- The eight registers of a bank (10_state.md R27). -/
inductive TblReg where
  | startFrame (x : Slot)   -- START(s)
  | endFrame (x : Slot)     -- END(s)
  | cfgWord (w : CfgWord)   -- CFG(w)
deriving DecidableEq, Repr

/-- A counter slot: counter index `i` from 3 to 31 is held as `i - 3` (10_state.md R45). -/
abbrev Counter := Fin 29

/-- The names of the 31 control registers of a hart (10_state.md R40). -/
inductive Csr where
  | evt (i : Counter)
  | ideleg
  | wen
deriving DecidableEq, Repr

/-- The four excluded collaborators the hooks call (43_boot_context.md R203 to R205). -/
inductive Collaborator where
  | registerTlbFlushTrapHandler
  | registerPmuDevice
  | installPowerControlDevice
  | registerVendorExtensionHandler
deriving DecidableEq, Repr

/-- What the configuration fixes of one slot (00_scope.md R9 and R10). `lane` gives
AUTH_SHIFT(s) = 8 * lane: field j of a word is bits [8j+7:8j] (10_state.md R30). -/
structure SlotCfg where
  startAddr : Word
  endAddr   : Word
  startOff  : Nat
  endOff    : Nat
  word      : CfgWord
  lane      : Fin 4
deriving DecidableEq, Repr

/-- The two errata flags of the matched hardware variant (43_boot_context.md R202). -/
structure Errata where
  tlbFlush     : Bool
  powerControl : Bool
deriving DecidableEq, Repr

/-- Which of the two dispatchers a deployment runs (30_encoding.md R105). -/
inductive DispatchPath where
  | pmpAware
  | legacy
deriving DecidableEq, Repr

/-- The configuration record (00_scope.md R9): every parameter the source says exists and does not
value. It is fixed for a machine and no operation writes it (R19; log 3). `coldBootHart = none` is
UNSET. `matchedCompat` is the string of the matched hardware record (43_boot_context.md R202). -/
structure Cfg where
  tableBase     : Nat
  coreStride    : Nat
  cfgOff6       : Nat
  cfgOff7       : Nat
  tcm0          : SlotCfg
  tcm1          : SlotCfg
  rsv           : SlotCfg
  noAccess      : Byte
  extPmu        : Word
  extPmp        : Word
  ovfDelegBit   : Fin 64
  coldBootHart  : Option Word
  dispatchPath  : DispatchPath
  errata        : Errata
  vendorCompat  : String
  matchedCompat : String
deriving DecidableEq, Repr

/-- The same machine on the other dispatch path. -/
def Cfg.onPath (cfg : Cfg) (p : DispatchPath) : Cfg := { cfg with dispatchPath := p }

/-- READ_REPLICA = 0, the bank whose start frame is observed (00_scope.md R10, decision D7; log 20). -/
def Config.readReplica : Bank := 0

/-- SUCCESS = 0 (00_scope.md R10, decision D19; log 27). -/
def Config.success : Word := 0

/-- The value field of every vendor call's result (42_call_dispatcher.md R189, decision D19). -/
def Config.callValue : Word := 0

/-- The operation type that selects bind, OP_BIND = 2 (00_scope.md R8). -/
def Config.opBind : Word := 2

/-- FID_TCM0 and FID_TCM1, and the same numbers as regions (00_scope.md R8, 30_encoding.md R108). -/
def Config.fidTcm0 : Word := 0
def Config.fidTcm1 : Word := 1

/-- A byte address of the table space is below this: XLEN address bits (20_memory.md R62 (d); log 13). -/
def Config.addressTop : Nat := 2 ^ 64

/-- The spec's synthetic configuration TCFG (95_test_vectors.md section 1). DESIGN CHOICE (log 3):
the machine that State.reset shows has these values for the parameters no source gives. No statement
rests on one of them: a statement quantifies over every configuration. -/
def Config.reference : Cfg where
  tableBase     := 0x10000000
  coreStride    := 0x1000
  cfgOff6       := 0x018
  cfgOff7       := 0x01C
  tcm0          := ⟨0x08000000, 0x08020000, 0x1D0, 0x1D4, .w6, 2⟩
  tcm1          := ⟨0x08020000, 0x08040000, 0x1D8, 0x1DC, .w6, 3⟩
  rsv           := ⟨0x08040000, 0x08100000, 0x1E0, 0x1E4, .w7, 0⟩
  noAccess      := 0x00
  extPmu        := 0x09000001
  extPmp        := 0x09000002
  ovfDelegBit   := 17
  coldBootHart  := none
  dispatchPath  := .pmpAware
  errata        := ⟨false, false⟩
  vendorCompat  := "test,mprc-pcm"
  matchedCompat := "test,mprc-pcm"

end Sys2Proof
end

