-- ==== Sys2Proof/Syntax.lean ====
section
/-! DEFINITION. The operations of the block, one constructor per row of spec/opcode_table.json, and
the requests they are decoded from (30_encoding.md R100, R101, R110). -/

namespace Sys2Proof

/-- The five input registers of a vendor call (10_state.md R21, 30_encoding.md R101). -/
structure Call where
  eid : Word
  fid : Word
  a0  : Word
  a1  : Word
  a2  : Word
deriving DecidableEq, Repr

/-- The value of a typed parameter of an entry point (10_state.md R23): XLEN bits, or the 8 bits of an
authorization. -/
inductive Operand where
  | word (w : Word)
  | byte (b : Byte)
deriving DecidableEq, Repr

/-- What is presented to the block (30_encoding.md R100): a vendor call, or the number of an entry
point with the values of its typed parameters. The list of parameter values is the model's form
(log 1): the spec packs neither format into words. -/
inductive Request where
  | vcall (c : Call)
  | proc (ep : BitVec 4) (args : List Operand)
deriving DecidableEq, Repr

/-- The 17 operations (30_encoding.md R110, R104, R105). A PROC constructor carries its typed
parameters (10_state.md R23). A VCALL constructor carries the call registers that its row does not
fix, the unused ones included, so that no bit of a call is dropped. -/
inductive Instr where
  | ensureReservedRegion
  | setRegionAuthorization (region : Word) (authorization : Byte)
  | bind (counterIndex eventId : Word)
  | resetBaseline
  | dispatch (operationType counterIndex eventId : Word)
  | isColdBootAllowed (hartId : Word)
  | earlyInit
  | extensionsInit
  | finalInit
  | vcallPmuBind (fid a1 a2 : Word)
  | vcallPmuReset (fid a0 a1 a2 : Word)
  | vcallPmpTcm0 (a0 a1 a2 : Word)
  | vcallPmpTcm1 (a0 a1 a2 : Word)
  | vcallPmpNop (fid a0 a1 a2 : Word)
  | vcallNop (eid fid a0 a1 a2 : Word)
  | vcallLegacyBind (eid fid a1 a2 : Word)
  | vcallLegacyReset (eid fid a0 a1 a2 : Word)
deriving DecidableEq, Repr

end Sys2Proof
end

