-- ==== Sys2Proof/WellFormed.lean ====
section
/-! DEFINITION. Which operations a configuration admits: the conditions of the decision tables
30_encoding.md R104 and R105. A PROC operation has typed operands and no condition. -/

namespace Sys2Proof

/-- The row's condition on the dispatch path and on the registers it examines. -/
def Instr.wellFormed (cfg : Cfg) : Instr → Bool
  | .ensureReservedRegion => true
  | .setRegionAuthorization _ _ => true
  | .bind _ _ => true
  | .resetBaseline => true
  | .dispatch _ _ _ => true
  | .isColdBootAllowed _ => true
  | .earlyInit => true
  | .extensionsInit => true
  | .finalInit => true
  | .vcallPmuBind _ _ _ => cfg.dispatchPath == .pmpAware
  | .vcallPmuReset _ a0 _ _ => cfg.dispatchPath == .pmpAware && a0 != Config.opBind
  | .vcallPmpTcm0 _ _ _ => cfg.dispatchPath == .pmpAware
  | .vcallPmpTcm1 _ _ _ => cfg.dispatchPath == .pmpAware
  | .vcallPmpNop fid _ _ _ =>
    cfg.dispatchPath == .pmpAware && fid != Config.fidTcm0 && fid != Config.fidTcm1
  | .vcallNop eid _ _ _ _ =>
    cfg.dispatchPath == .pmpAware && eid != cfg.extPmu && eid != cfg.extPmp
  | .vcallLegacyBind _ _ _ _ => cfg.dispatchPath == .legacy
  | .vcallLegacyReset _ _ a0 _ _ => cfg.dispatchPath == .legacy && a0 != Config.opBind

end Sys2Proof
end

