-- ==== Sys2Proof/Decode.lean ====
section
/-! DEFINITION. The dispatcher's decision table and the decoder (30_encoding.md R100 to R110), the
encoder written from the same tables, and the reading of a word of spec/opcode_table.json. -/

namespace Sys2Proof

/-- Why a request decodes to no operation. A vendor call always decodes (30_encoding.md R111);
`noRow` is there for totality and no call reaches it. -/
inductive Reject where
  /-- An entry point number other than 0 to 8: 30_encoding.md R110 has no row for it. -/
  | unknownEntryPoint (ep : BitVec 4)
  /-- Operands of another number or type than the entry point's (10_state.md R23). -/
  | wrongOperands (ep : BitVec 4)
  /-- A selector that no row of R104 or R105 matches. -/
  | noRow (sel : BitVec 6)
deriving DecidableEq, Repr

/-- The parts `xc`, `fc` and `tc` of the selector (30_encoding.md R103). -/
def extClass (cfg : Cfg) (eid : Word) : BitVec 2 :=
  if eid = cfg.extPmu then 0b01 else if eid = cfg.extPmp then 0b10 else 0b00

def fidClass (fid : Word) : BitVec 2 :=
  if fid = Config.fidTcm0 then 0b00 else if fid = Config.fidTcm1 then 0b01 else 0b10

def typeClass (a0 : Word) : BitVec 1 := if a0 = Config.opBind then 1 else 0

/-- The part `lp`: a property of the configuration, not of the call (30_encoding.md R103). -/
def pathBit (p : DispatchPath) : BitVec 1 :=
  match p with
  | .pmpAware => 0
  | .legacy => 1

/-- `SEL = {lp, xc, fc, tc}` (30_encoding.md R103). -/
def selector (cfg : Cfg) (c : Call) : BitVec 6 :=
  pathBit cfg.dispatchPath ++ extClass cfg c.eid ++ fidClass c.fid ++ typeClass c.a0

/-- The eight rows of the decision tables. -/
inductive RowName where
  | pmuBind
  | pmuReset
  | pmpTcm0
  | pmpTcm1
  | pmpNop
  | nop
  | legacyBind
  | legacyReset
deriving DecidableEq, Repr

/-- A row: the selector bits it examines and the values it wants there. -/
structure Row where
  mask   : BitVec 6
  wanted : BitVec 6
  name   : RowName
deriving DecidableEq, Repr

/-- The decision tables of 30_encoding.md R104 and R105. -/
def decisionTable : List Row :=
  [ ⟨0x39, 0x09, .pmuBind⟩,
    ⟨0x39, 0x08, .pmuReset⟩,
    ⟨0x3E, 0x10, .pmpTcm0⟩,
    ⟨0x3E, 0x12, .pmpTcm1⟩,
    ⟨0x3E, 0x14, .pmpNop⟩,
    ⟨0x38, 0x00, .nop⟩,
    ⟨0x21, 0x21, .legacyBind⟩,
    ⟨0x21, 0x20, .legacyReset⟩ ]

/-- Does a row match a selector? -/
def Row.hits (r : Row) (sel : BitVec 6) : Bool := sel &&& r.mask == r.wanted

/-- The row a selector matches. -/
def rowOf (sel : BitVec 6) : Option RowName :=
  (decisionTable.find? fun r => r.hits sel).map Row.name

/-- The operation of a row with the call's registers as operands (30_encoding.md R106, R107). -/
def RowName.operation (r : RowName) (c : Call) : Instr :=
  match r with
  | .pmuBind => .vcallPmuBind c.fid c.a1 c.a2
  | .pmuReset => .vcallPmuReset c.fid c.a0 c.a1 c.a2
  | .pmpTcm0 => .vcallPmpTcm0 c.a0 c.a1 c.a2
  | .pmpTcm1 => .vcallPmpTcm1 c.a0 c.a1 c.a2
  | .pmpNop => .vcallPmpNop c.fid c.a0 c.a1 c.a2
  | .nop => .vcallNop c.eid c.fid c.a0 c.a1 c.a2
  | .legacyBind => .vcallLegacyBind c.eid c.fid c.a1 c.a2
  | .legacyReset => .vcallLegacyReset c.eid c.fid c.a0 c.a1 c.a2

/-- A vendor call decodes to its row (42_call_dispatcher.md R180). -/
def decodeCall (cfg : Cfg) (c : Call) : Except Reject Instr :=
  match rowOf (selector cfg c) with
  | some r => .ok (r.operation c)
  | none => .error (.noRow (selector cfg c))

/-- An entry point by its number and typed operands (10_state.md R23, 30_encoding.md R108, R110). -/
def decodeProc (ep : BitVec 4) (args : List Operand) : Except Reject Instr :=
  match ep.toNat, args with
  | 0, [] => .ok .ensureReservedRegion
  | 1, [.word region, .byte a] => .ok (.setRegionAuthorization region a)
  | 2, [.word i, .word e] => .ok (.bind i e)
  | 3, [] => .ok .resetBaseline
  | 4, [.word t, .word i, .word e] => .ok (.dispatch t i e)
  | 5, [.word id] => .ok (.isColdBootAllowed id)
  | 6, [] => .ok .earlyInit
  | 7, [] => .ok .extensionsInit
  | 8, [] => .ok .finalInit
  | n, _ => if n < 9 then .error (.wrongOperands ep) else .error (.unknownEntryPoint ep)

/-- The decoder, total on every request. -/
def decode (cfg : Cfg) : Request → Except Reject Instr
  | .vcall c => decodeCall cfg c
  | .proc ep args => decodeProc ep args

/-- The request that stands for an operation: the registers a row fixes are filled in from its
condition (30_encoding.md R104, R105), an entry point gets its number (R110). -/
def encode (cfg : Cfg) : Instr → Request
  | .ensureReservedRegion => .proc 0 []
  | .setRegionAuthorization region a => .proc 1 [.word region, .byte a]
  | .bind i e => .proc 2 [.word i, .word e]
  | .resetBaseline => .proc 3 []
  | .dispatch t i e => .proc 4 [.word t, .word i, .word e]
  | .isColdBootAllowed id => .proc 5 [.word id]
  | .earlyInit => .proc 6 []
  | .extensionsInit => .proc 7 []
  | .finalInit => .proc 8 []
  | .vcallPmuBind fid a1 a2 => .vcall ⟨cfg.extPmu, fid, Config.opBind, a1, a2⟩
  | .vcallPmuReset fid a0 a1 a2 => .vcall ⟨cfg.extPmu, fid, a0, a1, a2⟩
  | .vcallPmpTcm0 a0 a1 a2 => .vcall ⟨cfg.extPmp, Config.fidTcm0, a0, a1, a2⟩
  | .vcallPmpTcm1 a0 a1 a2 => .vcall ⟨cfg.extPmp, Config.fidTcm1, a0, a1, a2⟩
  | .vcallPmpNop fid a0 a1 a2 => .vcall ⟨cfg.extPmp, fid, a0, a1, a2⟩
  | .vcallNop eid fid a0 a1 a2 => .vcall ⟨eid, fid, a0, a1, a2⟩
  | .vcallLegacyBind eid fid a1 a2 => .vcall ⟨eid, fid, Config.opBind, a1, a2⟩
  | .vcallLegacyReset eid fid a0 a1 a2 => .vcall ⟨eid, fid, a0, a1, a2⟩

/-! ### The words of spec/opcode_table.json

The table numbers a PROC row by EP (4 bits) and a VCALL row by SEL (6 bits); both are the spec's own
reductions (30_encoding.md R103, R110). In whole bytes both have 8 bits, and two words stand for a
row of each format: 0x00 and 0x08. `tableRequest` reads a word below 9 as an EP (log 10). -/

/-- The operands of an entry point, each zero. -/
def zeroOperands (ep : Nat) : List Operand :=
  match ep with
  | 1 => [.word 0, .byte 0]
  | 2 => [.word 0, .word 0]
  | 4 => [.word 0, .word 0, .word 0]
  | 5 => [.word 0]
  | _ => []

/-- An extension id that is neither of the two. -/
def otherExt (cfg : Cfg) : Word :=
  if cfg.extPmu ≠ 0 ∧ cfg.extPmp ≠ 0 then 0
  else if cfg.extPmu ≠ 1 ∧ cfg.extPmp ≠ 1 then 1
  else 2

/-- A call whose selector is `sel`, every register it leaves open zero; none for `xc` or `fc` = 11,
which no call has (30_encoding.md R103). -/
def tableCall (cfg : Cfg) (sel : BitVec 6) : Option Call :=
  let xc := sel.extractLsb' 3 2
  let fc := sel.extractLsb' 1 2
  if xc = 3 ∨ fc = 3 then none
  else some {
    eid := if xc = 1 then cfg.extPmu else if xc = 2 then cfg.extPmp else otherExt cfg
    fid := if fc = 0 then Config.fidTcm0 else if fc = 1 then Config.fidTcm1 else 2
    a0  := if sel.extractLsb' 0 1 = 1 then Config.opBind else 0
    a1  := 0
    a2  := 0 }

/-- Is a table word read as an entry point number? -/
def tableIsProc (nbits w : Nat) : Bool := w < 9 && (nbits ≤ 4 || 8 ≤ nbits)

/-- The request a table word stands for. -/
def tableRequest (cfg : Cfg) (nbits w : Nat) : Option Request :=
  if tableIsProc nbits w then
    some (.proc (BitVec.ofNat 4 w) (zeroOperands w))
  else if w < 64 ∧ 4 < nbits then (tableCall cfg (BitVec.ofNat 6 w)).map .vcall
  else none

/-- The dispatch path a table word asks for: `lp` is bit 5 of a selector (30_encoding.md R103). -/
def tablePath (cfg : Cfg) (nbits w : Nat) : DispatchPath :=
  if tableIsProc nbits w then cfg.dispatchPath else if w.testBit 5 then .legacy else .pmpAware

/-- The operation the decoder reads from a table word, under the reference configuration on the
path the word asks for. -/
def decodeTableWord (nbits w : Nat) : Option Instr :=
  let cfg := Config.reference.onPath (tablePath Config.reference nbits w)
  match tableRequest cfg nbits w with
  | none => none
  | some r =>
    match decode cfg r with
    | .ok i => some i
    | .error _ => none

end Sys2Proof
end

