-- ==== Sys2Proof/Machine/State.lean ====
section
/-! DEFINITION. The state of the block as plain data (10_state.md), the events of its trace
(00_scope.md R14), the position of an operation in progress (10_state.md R24, 70_reset_and_hazards.md
R262), the inputs, and the state after reset. -/

namespace Sys2Proof.Machine

/-- The bytes of the table register space, addresses rising, no entry equal to what an unlisted
address reads as (20_memory.md R60, R65). -/
abbrev Memory := List Host.Cell

/-- An issued table write that the observers may not see yet (20_memory.md R71). -/
structure Pending where
  bank  : Bank
  reg   : TblReg
  value : Word32
deriving DecidableEq, Repr

/-- The control registers of one hart (10_state.md R40 to R44); `evt` holds EVT(3) to EVT(31). -/
structure CounterRegs where
  evt    : Vector Word 29
  ideleg : Word
  wen    : Word32
deriving DecidableEq, Repr

/-- The call registers of one hart (10_state.md R21). -/
structure CallRegs where
  eid : Word
  fid : Word
  a0  : Word
  a1  : Word
  a2  : Word
  err : Word
  val : Word
deriving DecidableEq, Repr

/-- What the last operation completed on a hart returned: nothing (40_region_controller.md R130,
41_counter_mapper.md R160), a Boolean (43_boot_context.md R200), or the status and value of a vendor
call (00_scope.md R13). -/
inductive Return where
  | nothing
  | boolean (b : Bool)
  | status (err val : Word)
deriving DecidableEq, Repr

/-- The events of the trace; the alphabet is closed (00_scope.md R14). -/
inductive Event where
  | regRd (c : Bank) (r : TblReg) (v : Word32)
  | regWr (c : Bank) (r : TblReg) (v : Word32)
  | barrier
  | csrWr (h : Hart) (k : Csr) (v : Word)
  | csrSet (h : Hart) (k : Csr) (m : Word)
  | ext (name : Collaborator)
deriving DecidableEq, Repr

/-- One thing an operation in progress still has to do: issue an event, or return. `test x n` reads
START(x) of bank READ_REPLICA and passes over the next `n` entries if it holds the expected frame.
`rmw c x a` reads the configuration word of slot `x` in bank `c`; the write of the merged word is
then the next entry (20_memory.md R67: two accesses, not one). -/
inductive Micro where
  | test (x : Slot) (n : Nat)
  | write (c : Bank) (r : TblReg) (v : Word32)
  | rmw (c : Bank) (x : Slot) (a : Byte)
  | barrier
  | csrWrite (k : Csr) (v : Word)
  | csrSet (k : Csr) (m : Word)
  | ext (name : Collaborator)
  | ret (r : Return)
deriving DecidableEq, Repr

/-- The three lifecycle hooks (43_boot_context.md R203 to R205). -/
inductive Hook where
  | earlyInit
  | extensionsInit
  | finalInit
deriving DecidableEq, Repr

/-- What the outside presents to the block (log 8). -/
inductive Input where
  /-- An operation is presented on hart `h` and runs to completion with no other hart's event inside. -/
  | request (h : Hart) (r : Request)
  /-- An operation begins on hart `h`; its events are issued one `issue h` at a time. -/
  | start (h : Hart) (r : Request)
  /-- Hart `h` issues the next event of its operation in progress. -/
  | issue (h : Hart)
  /-- The oldest queued table write of hart `h` reaches the observers (20_memory.md R71). -/
  | land (h : Hart)
deriving DecidableEq, Repr

/-- The machine. `cfg` is the read-only configuration (00_scope.md R19; log 3). -/
structure State where
  cfg      : Cfg
  tbl      : Memory                  -- the table registers, as the harts read them (R27)
  vis      : Memory                  -- the table registers, as external observers read them (R48)
  pend     : Vector (List Pending) 4 -- per hart, oldest first (20_memory.md R71)
  pmu      : Vector CounterRegs 4    -- per hart (R44)
  call     : Vector CallRegs 4       -- per hart (R21, R23; log 5)
  ret      : Vector Return 4         -- per hart (log 5)
  busy     : Vector (List Micro) 4   -- per hart, what its operation in progress has still to do
  trace    : List Event              -- in the order issued (R49)
  handler  : Bool                    -- the dispatcher is registered (42_call_dispatcher.md R193; log 7)
  coldHart : Hart                    -- the hart performing cold boot (43_boot_context.md R205; log 6);
                                     -- `cfg.coldBootHart` need not permit it (log 36)
  hooks    : Vector (List Hook) 4    -- per hart, the hooks begun so far, in order (R206; log 28)
  hart     : Hart                    -- the hart that acts in this step (log 8)
  inputs   : List Input              -- what the outside presents, in order (log 8)
deriving DecidableEq, Repr

/-- The block raises no exception and no primitive can fail (60_exceptions.md R220, R221): there is
no fault. -/
inductive Fault where
deriving DecidableEq, Repr

/-- Why a request has no meaning. Every refusal is safe: the model stops where the spec says that
nothing is meant. -/
inductive Refusal where
  /-- Raised by `exec` for an operation without a meaning in this model: none is left. Safe. -/
  | notModelled (mnemonic : String)
  /-- Raised by every operation under a configuration that breaks a constraint
  (20_memory.md R62, R69, 93_implementation_defined.md U10; log 13). Safe. -/
  | badConfig
  /-- Raised by the decoder for a PROC request that names no operation (30_encoding.md R110; log 1). Safe. -/
  | rejected (why : Reject)
  /-- Raised when an operation is presented on a hart whose operation is still in progress
  (60_exceptions.md R228; log 14). Safe. -/
  | reentered
  /-- Raised by an access to the table space that is not 4 bytes wide
  (20_memory.md R64, 93_implementation_defined.md U11; log 15). Safe. -/
  | badWidth
  /-- Raised by a misaligned access to the table space (20_memory.md R66, U11; log 15). Safe. -/
  | misaligned
  /-- Raised by an access to an address that is none of the 32 registers
  (10_state.md R27, 93_implementation_defined.md U9; log 15). Safe. -/
  | noSuchRegister
deriving DecidableEq, Repr

/-- The outcome of a step. -/
abbrev Result := Host.Outcome State Fault Refusal

/-- Control registers at launch: unspecified (10_state.md R50); zero is a DESIGN CHOICE (log 4). -/
def CounterRegs.reset : CounterRegs := ⟨Vector.replicate 29 0, 0, 0⟩

/-- Call registers at launch: none (10_state.md R23, R50); zero is a DESIGN CHOICE (log 5). -/
def CallRegs.reset : CallRegs := ⟨0, 0, 0, 0, 0, 0, 0⟩

/-- The launch state of a machine with a given configuration: premises L1, L2 and L3
(10_state.md R51), the dispatcher not registered (42_call_dispatcher.md R193), no hook run, registers
zero (log 4). Hart 0 performs cold boot whatever `cfg.coldBootHart` selects: that the hart performing
cold boot need not be one `is_cold_boot_allowed` permits is a DESIGN CHOICE (log 36), the value 0
another (log 6). -/
def State.resetWith (cfg : Cfg) : State where
  cfg      := cfg
  tbl      := []
  vis      := []
  pend     := Vector.replicate 4 []
  pmu      := Vector.replicate 4 CounterRegs.reset
  call     := Vector.replicate 4 CallRegs.reset
  ret      := Vector.replicate 4 .nothing
  busy     := Vector.replicate 4 []
  trace    := []
  handler  := false
  coldHart := 0
  hooks    := Vector.replicate 4 []
  hart     := 0
  inputs   := []

/-- The machine right after reset (10_state.md R50), with the reference configuration (log 3). -/
def State.reset : State := State.resetWith Config.reference

end Sys2Proof.Machine
end

