-- ==== Sys2Proof/Machine/Operands.lean ====
section
/-! DEFINITION. How operands and constants are formed: the configuration of a slot, the address map
and its check (20_memory.md R61, R62, R69), frames, field placement and the merge of an authorization
field (00_scope.md R11, R15), and the operand forms of 30_encoding.md R106 to R108. -/

namespace Sys2Proof.Machine

/-- The banks in the order the loops visit them (40_region_controller.md R131, R132, decision D8). -/
def banks : List Bank := [0, 1, 2, 3]

/-- The configuration of a slot. -/
def slotCfg (cfg : Cfg) : Slot → SlotCfg
  | .tcm0 => cfg.tcm0
  | .tcm1 => cfg.tcm1
  | .rsv => cfg.rsv

/-- The number of a slot in the table (10_state.md R20). -/
def slotIndex : Slot → Nat
  | .tcm0 => 26
  | .tcm1 => 27
  | .rsv => 28

/-- `F(a) = a >> 12` at FRAME_W = 32 bits (00_scope.md R11). -/
def frame (a : Word) : Word32 := (a >>> 12).setWidth 32

/-- EXP_START(s) (00_scope.md R11). -/
def expStart (cfg : Cfg) (x : Slot) : Word32 := frame (slotCfg cfg x).startAddr

/-- EXP_END(s) (00_scope.md R11). -/
def expEnd (cfg : Cfg) (x : Slot) : Word32 := frame (slotCfg cfg x).endAddr

/-- The register that holds a slot's authorization field, CFG(CFG_WORD(s)). -/
def authReg (cfg : Cfg) (x : Slot) : TblReg := .cfgWord (slotCfg cfg x).word

/-- AUTH_SHIFT(s) (00_scope.md R11, 10_state.md R30). -/
def authShift (cfg : Cfg) (x : Slot) : Nat := 8 * (slotCfg cfg x).lane.val

/-- AUTH_MASK(s) (00_scope.md R11). -/
def authMask (cfg : Cfg) (x : Slot) : Word32 := 0xFF#32 <<< authShift cfg x

/-- `(old & ~AUTH_MASK(s)) | (zext_32(a) << AUTH_SHIFT(s))` (00_scope.md R15). -/
def mergeAuth (cfg : Cfg) (x : Slot) (a : Byte) (old : Word32) : Word32 :=
  (old &&& ~~~(authMask cfg x)) ||| (a.setWidth 32 <<< authShift cfg x)

/-- The authorization field of a slot in a configuration word. -/
def authField (cfg : Cfg) (x : Slot) (w : Word32) : Byte := w.extractLsb' (authShift cfg x) 8

/-- OFF(r) (20_memory.md R61). -/
def regOff (cfg : Cfg) : TblReg → Nat
  | .startFrame x => (slotCfg cfg x).startOff
  | .endFrame x => (slotCfg cfg x).endOff
  | .cfgWord .w6 => cfg.cfgOff6
  | .cfgWord .w7 => cfg.cfgOff7

/-- ADDR(c, r) (20_memory.md R61). -/
def regAddr (cfg : Cfg) (c : Bank) (r : TblReg) : Nat :=
  cfg.tableBase + c.val * cfg.coreStride + regOff cfg r

/-- The eight registers of a bank (10_state.md R27). -/
def bankRegs : List TblReg :=
  [ .startFrame .tcm0, .startFrame .tcm1, .startFrame .rsv,
    .endFrame .tcm0, .endFrame .tcm1, .endFrame .rsv,
    .cfgWord .w6, .cfgWord .w7 ]

/-- The addresses of the 32 registers. -/
def tableAddrs (cfg : Cfg) : List Nat :=
  banks.flatMap fun c => bankRegs.map (regAddr cfg c)

/-- The address map is well formed (20_memory.md R62 (a), (b), (d)). -/
def mapOk (cfg : Cfg) : Bool :=
  cfg.tableBase % 4 == 0 && cfg.coreStride % 4 == 0 &&
  bankRegs.all (fun r => regOff cfg r % 4 == 0 && regOff cfg r + 4 ≤ cfg.coreStride &&
    decide (cfg.tableBase + 3 * cfg.coreStride + regOff cfg r + 3 < Config.addressTop)) &&
  decide ((bankRegs.map (regOff cfg)).Nodup)

/-- A region address is a multiple of 4096 whose frame fits 32 bits (20_memory.md R69). -/
def addrOk (a : Word) : Bool := a.toNat % 4096 == 0 && decide (a.toNat < 2 ^ 44)

def slotOk (x : SlotCfg) : Bool := addrOk x.startAddr && addrOk x.endAddr

/-- Two slots have different fields: a field is the field of one slot (10_state.md R30; log 13). -/
def fieldsApart (x y : SlotCfg) : Bool := !(x.word == y.word && x.lane == y.lane)

/-- Every constraint on a configuration (00_scope.md R9, 20_memory.md R62, R69,
93_implementation_defined.md U10). -/
def cfgOk (cfg : Cfg) : Bool :=
  mapOk cfg && slotOk cfg.tcm0 && slotOk cfg.tcm1 && slotOk cfg.rsv &&
  fieldsApart cfg.tcm0 cfg.tcm1 && fieldsApart cfg.tcm0 cfg.rsv && fieldsApart cfg.tcm1 cfg.rsv &&
  cfg.extPmu != cfg.extPmp

/-- The slot of a region operand: TCM0 = 0, TCM1 = 1, any other integer is invalid
(30_encoding.md R108). -/
def regionSlot (region : Word) : Option Slot :=
  if region = Config.fidTcm0 then some .tcm0
  else if region = Config.fidTcm1 then some .tcm1
  else none

/-- `authorization = a0[7:0]` (30_encoding.md R107). -/
def authOperand (a0 : Word) : Byte := a0.setWidth 8

/-- The counter slot a counter index names, none outside 3 to 31 (10_state.md R45). -/
def counterOf (i : Word) : Option Counter :=
  if h : 3 ≤ i.toNat ∧ i.toNat ≤ 31 then some ⟨i.toNat - 3, by omega⟩ else none

/-- The index of a counter slot. -/
def counterIndex (i : Counter) : Nat := i.val + 3

/-- BASELINE(i) = i - 2 (00_scope.md R11). -/
def baseline (i : Counter) : Word := BitVec.ofNat 64 (counterIndex i - 2)

/-- The counters that have a baseline, 3 to 28 ascending (00_scope.md R8 BASE_MIN and BASE_MAX,
41_counter_mapper.md R162, decision D16). -/
def baselineCounters : List Counter := (List.finRange 29).filter fun i => counterIndex i ≤ 28

/-- `1 << OVF_DELEG_BIT`, an XLEN-bit mask (41_counter_mapper.md R162). -/
def overflowMask (cfg : Cfg) : Word := 1#64 <<< cfg.ovfDelegBit.val

/-- All ones at WEN_W bits (41_counter_mapper.md R162). -/
def wenAllOnes : Word := 0xFFFFFFFF

end Sys2Proof.Machine
end

