-- ==== Sys2Proof/Machine/Flags.lean ====
section
/-! DEFINITION. The block has no flags (10_state.md R25). The conditions its operations test are
computed here and stored nowhere. -/

namespace Sys2Proof.Machine

/-- The observed start frame is the expected one: all 32 bits (40_region_controller.md R134, R140). -/
def startMatches (cfg : Cfg) (x : Slot) (observed : Word32) : Bool := observed == expStart cfg x

/-- The operation type selects bind: all XLEN bits (41_counter_mapper.md R163 (a)). -/
def selectsBind (operationType : Word) : Bool := operationType == Config.opBind

/-- The predicate of 43_boot_context.md R200; `none` is UNSET. -/
def coldBootAllowed (cfg : Cfg) (hartId : Word) : Bool :=
  match cfg.coldBootHart with
  | none => true
  | some id => hartId == id

/-- The matched compatibility string is the expected one (43_boot_context.md R205). -/
def vendorMatches (cfg : Cfg) : Bool := cfg.matchedCompat == cfg.vendorCompat

end Sys2Proof.Machine
end

