-- ==== Sys2Proof/Machine/Ops.lean ====
section
/-! DEFINITION. The named operations over memory and registers: the byte memory, the primitives of
00_scope.md R13, the drain and the barrier of 20_memory.md R71 and R72, the return of an operation,
and the one shape every meaning has. The block raises no exception (60_exceptions.md R220), so there
is no operation for taking one. -/

namespace Sys2Proof.Machine

/-! ### The byte memory -/

/-- What an address that is not listed reads as: the launch value of every table byte, zero by
DESIGN CHOICE (log 4). -/
def unlistedByte : Byte := 0

def Memory.read : Memory → Nat → Byte
  | [], _ => unlistedByte
  | (a, b) :: m, k => if a = k then b else Memory.read m k

/-- Put an entry, or leave it out if it says what an unlisted address reads as. -/
def Memory.cons (k : Nat) (v : Byte) (m : Memory) : Memory :=
  if v = unlistedByte then m else (k, v) :: m

def Memory.write : Memory → Nat → Byte → Memory
  | [], k, v => Memory.cons k v []
  | (a, b) :: m, k, v =>
    if k < a then Memory.cons k v ((a, b) :: m)
    else if k = a then Memory.cons k v m
    else (a, b) :: Memory.write m k v

/-- The canonical form: addresses strictly rising, no entry an unlisted address would read as. -/
def Memory.wf : Memory → Bool
  | [] => true
  | (a, b) :: m => b != unlistedByte && m.all (fun e => decide (a < e.1)) && Memory.wf m

/-- Four bytes, the byte at the lowest address in the low bits (20_memory.md R65). -/
def Memory.readWord (m : Memory) (a : Nat) : Word32 :=
  Memory.read m (a + 3) ++ Memory.read m (a + 2) ++ Memory.read m (a + 1) ++ Memory.read m a

def Memory.writeWord (m : Memory) (a : Nat) (v : Word32) : Memory :=
  Memory.write (Memory.write (Memory.write (Memory.write m
    a (v.extractLsb' 0 8)) (a + 1) (v.extractLsb' 8 8)) (a + 2) (v.extractLsb' 16 8))
    (a + 3) (v.extractLsb' 24 8)

/-- Is `k` one of the four bytes at `a`? -/
def inWord (a k : Nat) : Bool := decide (a ≤ k) && decide (k < a + 4)

/-- Every listed byte belongs to one of the 32 registers (10_state.md R27). -/
def Memory.inTable (cfg : Cfg) (m : Memory) : Bool :=
  m.all fun e => (tableAddrs cfg).any fun a => inWord a e.1

/-! ### Checked accesses by address (20_memory.md R64, R66, 93_implementation_defined.md U9, U11) -/

/-- Why an access of `n` bytes at `addr` has no meaning, if it has none. -/
def accessRefusal (cfg : Cfg) (addr n : Nat) : Option Refusal :=
  if n ≠ 4 then some .badWidth
  else if addr % 4 ≠ 0 then some .misaligned
  else if (tableAddrs cfg).contains addr then none
  else some .noSuchRegister

/-- `MemRead(addr, n)` (00_scope.md R13) of the harts' memory or of the observers' view. -/
def memRead (cfg : Cfg) (m : Memory) (addr n : Nat) : Except Refusal Word32 :=
  match accessRefusal cfg addr n with
  | some r => .error r
  | none => .ok (Memory.readWord m addr)

/-- `MemWrite(addr, n, v)` (00_scope.md R13). -/
def memWrite (cfg : Cfg) (m : Memory) (addr n : Nat) (v : Word32) : Except Refusal Memory :=
  match accessRefusal cfg addr n with
  | some r => .error r
  | none => .ok (Memory.writeWord m addr v)

/-- What an external observer reads at an address (20_memory.md R71). -/
def observe (s : State) (addr n : Nat) : Except Refusal Word32 := memRead s.cfg s.vis addr n

/-! ### Reading state -/

/-- `tbl(c, r)` (10_state.md R27). -/
def State.tblAt (s : State) (c : Bank) (r : TblReg) : Word32 :=
  Memory.readWord s.tbl (regAddr s.cfg c r)

/-- `vis(c, r)` (20_memory.md R71). -/
def State.visAt (s : State) (c : Bank) (r : TblReg) : Word32 :=
  Memory.readWord s.vis (regAddr s.cfg c r)

/-- The queue of hart `h` (20_memory.md R71). -/
def State.pendOf (s : State) (h : Hart) : List Pending := s.pend[h.val]

/-- The control registers of hart `h` (10_state.md R44). -/
def State.pmuOf (s : State) (h : Hart) : CounterRegs := s.pmu[h.val]

/-- EVT(i) of a hart. -/
def CounterRegs.evtAt (p : CounterRegs) (i : Counter) : Word := p.evt[i.val]

/-- The call registers of hart `h` (10_state.md R21). -/
def State.callOf (s : State) (h : Hart) : CallRegs := s.call[h.val]

/-- What the last operation on hart `h` returned. -/
def State.retOf (s : State) (h : Hart) : Return := s.ret[h.val]

/-- What the operation in progress on hart `h` has still to do. -/
def State.busyOf (s : State) (h : Hart) : List Micro := s.busy[h.val]

/-- The hooks begun so far on hart `h`, in order (43_boot_context.md R206). -/
def State.hooksOf (s : State) (h : Hart) : List Hook := s.hooks[h.val]

/-! ### Changing state -/

/-- Append an event to the trace (00_scope.md R14). -/
def emit (e : Event) (s : State) : State := { s with trace := s.trace ++ [e] }

def setPend (h : Hart) (q : List Pending) (s : State) : State :=
  { s with pend := s.pend.set h.val q }

def setPmu (h : Hart) (p : CounterRegs) (s : State) : State :=
  { s with pmu := s.pmu.set h.val p }

def setCall (h : Hart) (c : CallRegs) (s : State) : State :=
  { s with call := s.call.set h.val c }

def setRet (h : Hart) (r : Return) (s : State) : State :=
  { s with ret := s.ret.set h.val r }

def setBusy (h : Hart) (q : List Micro) (s : State) : State :=
  { s with busy := s.busy.set h.val q }

def setHooks (h : Hart) (q : List Hook) (s : State) : State :=
  { s with hooks := s.hooks.set h.val q }

/-! ### The primitives of 00_scope.md R13, on the hart that acts -/

/-- The event of `TblRead(c, r)`; the value it returns is `s.tblAt c r` (20_memory.md R70). -/
def tblRead (c : Bank) (r : TblReg) (s : State) : State := emit (.regRd c r (s.tblAt c r)) s

/-- `TblWrite(c, r, v)`: the harts' memory at once, the acting hart's queue (20_memory.md R70, R71). -/
def tblWrite (c : Bank) (r : TblReg) (v : Word32) (s : State) : State :=
  emit (.regWr c r v)
    (setPend s.hart (s.pendOf s.hart ++ [⟨c, r, v⟩])
      { s with tbl := Memory.writeWord s.tbl (regAddr s.cfg c r) v })

/-- One queued write takes effect in the observers' view (20_memory.md R71). -/
def applyPending (cfg : Cfg) (m : Memory) (p : Pending) : Memory :=
  Memory.writeWord m (regAddr cfg p.bank p.reg) p.value

/-- `Barrier()`: every queued write of the acting hart reaches `vis`, in order (20_memory.md R72). -/
def barrier (s : State) : State :=
  emit .barrier
    (setPend s.hart [] { s with vis := (s.pendOf s.hart).foldl (applyPending s.cfg) s.vis })

/-- A control register's new value (10_state.md R40 to R43). WEN takes 32 bits (log 25). -/
def CounterRegs.put (p : CounterRegs) (k : Csr) (v : Word) : CounterRegs :=
  match k with
  | .evt i => { p with evt := p.evt.set i.val v }
  | .ideleg => { p with ideleg := v }
  | .wen => { p with wen := v.setWidth 32 }

/-- A control register's value; WEN is extended with zeros. -/
def CounterRegs.get (p : CounterRegs) (k : Csr) : Word :=
  match k with
  | .evt i => p.evtAt i
  | .ideleg => p.ideleg
  | .wen => p.wen.setWidth 64

/-- `CsrWrite(h, k, v)` on the acting hart (20_memory.md R75). -/
def csrWrite (k : Csr) (v : Word) (s : State) : State :=
  emit (.csrWr s.hart k v) (setPmu s.hart ((s.pmuOf s.hart).put k v) s)

/-- `CsrSetBits(h, k, m)` on the acting hart, one indivisible event (20_memory.md R75). -/
def csrSetBits (k : Csr) (m : Word) (s : State) : State :=
  emit (.csrSet s.hart k m)
    (setPmu s.hart ((s.pmuOf s.hart).put k ((s.pmuOf s.hart).get k ||| m)) s)

/-- `ExtCall(name)`: an opaque event (00_scope.md R6). Registering the vendor extension handler makes
the dispatcher reachable (43_boot_context.md R205; log 7). -/
def extCall (name : Collaborator) (s : State) : State :=
  emit (.ext name)
    { s with handler := s.handler || decide (name = .registerVendorExtensionHandler) }

/-- The end of an operation on the acting hart. A vendor call also writes `err` and `val`
(42_call_dispatcher.md R180, R189). -/
def complete (r : Return) (s : State) : State :=
  match r with
  | .nothing => setRet s.hart r s
  | .boolean _ => setRet s.hart r s
  | .status e v => setRet s.hart r (setCall s.hart { s.callOf s.hart with err := e, val := v } s)

/-- The return of every vendor call: success (42_call_dispatcher.md R189). -/
def callReturn : Return := .status Config.success Config.callValue

/-- The shape of every meaning: under a configuration that breaks a constraint no operation has a
meaning (20_memory.md R62); under any other the operation has its effect and returns. -/
def operate (effect : State → State) (r : Return) (s : State) : Result :=
  if cfgOk s.cfg then .next (complete r (effect s)) else .refused .badConfig

end Sys2Proof.Machine
end

