-- ==== Sys2Proof/Machine/Boot.lean ====
section
/-! DEFINITION. The cold-boot predicate and the lifecycle hooks (43_boot_context.md). -/

namespace Sys2Proof.Machine

/-- An external call made under a condition. -/
def extCallIf (b : Bool) (name : Collaborator) (s : State) : State :=
  if b then extCall name s else s

/-- `is_cold_boot_allowed(hart_id)`: no state is read or written but the value returned
(43_boot_context.md R200). -/
def execIsColdBootAllowed (hartId : Word) (s : State) : Result :=
  operate id (.boolean (coldBootAllowed s.cfg hartId)) s

/-- `early_init()` (43_boot_context.md R203). -/
def execEarlyInit (s : State) : Result :=
  operate (extCallIf s.cfg.errata.tlbFlush .registerTlbFlushTrapHandler) .nothing s

/-- `extensions_init()` (43_boot_context.md R204). -/
def execExtensionsInit (s : State) : Result := operate (extCall .registerPmuDevice) .nothing s

/-- The body of `final_init()`, for the hart performing cold boot only (43_boot_context.md R205). Which
hart that is the firmware says; whether `is_cold_boot_allowed` permits it is not asked (log 36). -/
def finalHooks (s : State) : State :=
  if s.hart = s.coldHart then
    extCallIf (vendorMatches s.cfg) .registerVendorExtensionHandler
      (extCallIf s.cfg.errata.powerControl .installPowerControlDevice s)
  else s

/-- `final_init()` (43_boot_context.md R205). -/
def execFinalInit (s : State) : Result := operate finalHooks .nothing s

end Sys2Proof.Machine
end

