-- ==== Sys2Proof/Machine/Counter.lean ====
section
/-! DEFINITION. The performance-counter-to-event mapper (41_counter_mapper.md). -/

namespace Sys2Proof.Machine

/-- `bind(i, e)`: nothing for an index outside 3 to 31 (41_counter_mapper.md R161). -/
def bindCounter (i e : Word) (s : State) : State :=
  match counterOf i with
  | some c => csrWrite (.evt c) e s
  | none => s

/-- One assignment of the baseline. -/
def bindBaseline (s : State) (i : Counter) : State := csrWrite (.evt i) (baseline i) s

/-- `reset_baseline()` (41_counter_mapper.md R162). -/
def resetCounters (s : State) : State :=
  baselineCounters.foldl bindBaseline
    (csrWrite .wen wenAllOnes (csrSetBits .ideleg (overflowMask s.cfg) s))

/-- `dispatch(t, i, e)` (41_counter_mapper.md R163). -/
def dispatchCounter (t i e : Word) (s : State) : State :=
  if selectsBind t then bindCounter i e s else resetCounters s

/-- R161. -/
def execBind (i e : Word) (s : State) : Result := operate (bindCounter i e) .nothing s

/-- R162. -/
def execResetBaseline (s : State) : Result := operate resetCounters .nothing s

/-- R163. -/
def execDispatch (t i e : Word) (s : State) : Result := operate (dispatchCounter t i e) .nothing s

end Sys2Proof.Machine
end

