-- ==== Sys2Proof/Machine/Region.lean ====
section
/-! DEFINITION. The region register controller (40_region_controller.md). -/

namespace Sys2Proof.Machine

/-- The two frame writes of one bank: START, then END (40_region_controller.md R131). -/
def programBank (x : Slot) (s : State) (c : Bank) : State :=
  tblWrite c (.endFrame x) (expEnd s.cfg x) (tblWrite c (.startFrame x) (expStart s.cfg x) s)

/-- `program_frames(s)` (40_region_controller.md R131). -/
def programFrames (x : Slot) (s : State) : State := banks.foldl (programBank x) s

/-- One bank of `rmw_auth`: the bank's own word is read and written back with the field replaced
(40_region_controller.md R132). -/
def rmwBank (x : Slot) (a : Byte) (s : State) (c : Bank) : State :=
  tblWrite c (authReg s.cfg x) (mergeAuth s.cfg x a (s.tblAt c (authReg s.cfg x)))
    (tblRead c (authReg s.cfg x) s)

/-- `rmw_auth(s, a)` (40_region_controller.md R132). -/
def rmwAuth (x : Slot) (a : Byte) (s : State) : State := banks.foldl (rmwBank x a) s

/-- `obs <- TblRead(READ_REPLICA, START(s)); obs == EXP_START(s)` (40_region_controller.md R134). -/
def startObserved (x : Slot) (s : State) : Bool :=
  startMatches s.cfg x (s.tblAt Config.readReplica (.startFrame x))

/-- `ensure_reserved_region()` (40_region_controller.md R133). -/
def ensureReserved (s : State) : State :=
  let s1 := tblRead Config.readReplica (.startFrame .rsv) s
  if startObserved .rsv s then s1
  else barrier (rmwAuth .rsv s.cfg.noAccess (programFrames .rsv s1))

/-- Step 2 of `set_region_authorization`: the address fix-up (40_region_controller.md R140). -/
def fixUpFrames (x : Slot) (s : State) : State :=
  let s1 := tblRead Config.readReplica (.startFrame x) s
  if startObserved x s then s1 else programFrames x s1

/-- `set_region_authorization(region, a)` (40_region_controller.md R139, R142). -/
def setAuthorization (region : Word) (a : Byte) (s : State) : State :=
  match regionSlot region with
  | none => s
  | some x => barrier (rmwAuth x a (fixUpFrames x (ensureReserved s)))

/-- R133. -/
def execEnsureReservedRegion (s : State) : Result := operate ensureReserved .nothing s

/-- R139. -/
def execSetRegionAuthorization (region : Word) (a : Byte) (s : State) : Result :=
  operate (setAuthorization region a) .nothing s

end Sys2Proof.Machine
end

