-- ==== Sys2Proof/Machine/Vendor.lean ====
section
/-! DEFINITION. The rows of the vendor call dispatcher (42_call_dispatcher.md). Every row returns
success (R189). -/

namespace Sys2Proof.Machine

/-- R181: `dispatch(a0, a1, a2)` with `a0` = 2. -/
def execVcallPmuBind (a1 a2 : Word) (s : State) : Result :=
  operate (dispatchCounter Config.opBind a1 a2) callReturn s

/-- R182: `dispatch(a0, a1, a2)`. -/
def execVcallPmuReset (a0 a1 a2 : Word) (s : State) : Result :=
  operate (dispatchCounter a0 a1 a2) callReturn s

/-- R183: `set_region_authorization(TCM0, a0[7:0])`. -/
def execVcallPmpTcm0 (a0 : Word) (s : State) : Result :=
  operate (setAuthorization Config.fidTcm0 (authOperand a0)) callReturn s

/-- R184: `set_region_authorization(TCM1, a0[7:0])`. -/
def execVcallPmpTcm1 (a0 : Word) (s : State) : Result :=
  operate (setAuthorization Config.fidTcm1 (authOperand a0)) callReturn s

/-- R185: nothing. -/
def execVcallPmpNop (s : State) : Result := operate id callReturn s

/-- R186: nothing. -/
def execVcallNop (s : State) : Result := operate id callReturn s

/-- R187: `dispatch(a0, a1, a2)` with `a0` = 2. -/
def execVcallLegacyBind (a1 a2 : Word) (s : State) : Result :=
  operate (dispatchCounter Config.opBind a1 a2) callReturn s

/-- R188: `dispatch(a0, a1, a2)`. -/
def execVcallLegacyReset (a0 a1 a2 : Word) (s : State) : Result :=
  operate (dispatchCounter a0 a1 a2) callReturn s

end Sys2Proof.Machine
end

