-- ==== Sys2Proof/Machine/Dispatch.lean ====
section
/-! DEFINITION. One arm per operation. -/

namespace Sys2Proof.Machine

def exec (i : Instr) (s : State) : Host.Outcome State Fault Refusal :=
  match i with
  | .ensureReservedRegion => Sys2Proof.Machine.execEnsureReservedRegion s
  | .setRegionAuthorization region a => Sys2Proof.Machine.execSetRegionAuthorization region a s
  | .bind c e => Sys2Proof.Machine.execBind c e s
  | .resetBaseline => Sys2Proof.Machine.execResetBaseline s
  | .dispatch t c e => Sys2Proof.Machine.execDispatch t c e s
  | .isColdBootAllowed hartId => Sys2Proof.Machine.execIsColdBootAllowed hartId s
  | .earlyInit => Sys2Proof.Machine.execEarlyInit s
  | .extensionsInit => Sys2Proof.Machine.execExtensionsInit s
  | .finalInit => Sys2Proof.Machine.execFinalInit s
  | .vcallPmuBind _ a1 a2 => Sys2Proof.Machine.execVcallPmuBind a1 a2 s
  | .vcallPmuReset _ a0 a1 a2 => Sys2Proof.Machine.execVcallPmuReset a0 a1 a2 s
  | .vcallPmpTcm0 a0 _ _ => Sys2Proof.Machine.execVcallPmpTcm0 a0 s
  | .vcallPmpTcm1 a0 _ _ => Sys2Proof.Machine.execVcallPmpTcm1 a0 s
  | .vcallPmpNop _ _ _ _ => Sys2Proof.Machine.execVcallPmpNop s
  | .vcallNop _ _ _ _ _ => Sys2Proof.Machine.execVcallNop s
  | .vcallLegacyBind _ _ a1 a2 => Sys2Proof.Machine.execVcallLegacyBind a1 a2 s
  | .vcallLegacyReset _ _ a0 a1 a2 => Sys2Proof.Machine.execVcallLegacyReset a0 a1 a2 s

end Sys2Proof.Machine
end

