-- ==== Sys2Proof/Machine/Microcode.lean ====
section
/-! DEFINITION. An operation as the list of things it does one at a time, for the interleaved runs
that 70_reset_and_hazards.md R262 recommends a model to have: the events of two harts' operations in
any order. Run without another hart in between it is the operation's meaning; that is an obligation. -/

namespace Sys2Proof.Machine

/-- The two frame writes of a bank (40_region_controller.md R131). -/
def frameMicros (cfg : Cfg) (x : Slot) (c : Bank) : List Micro :=
  [.write c (.startFrame x) (expStart cfg x), .write c (.endFrame x) (expEnd cfg x)]

/-- `program_frames(s)`: 8 entries. -/
def programMicros (cfg : Cfg) (x : Slot) : List Micro := banks.flatMap (frameMicros cfg x)

/-- `rmw_auth(s, a)`: 4 entries, each a read and then a write (40_region_controller.md R132). -/
def rmwMicros (x : Slot) (a : Byte) : List Micro := banks.map fun c => .rmw c x a

/-- `ensure_reserved_region()`: on a match the test passes over everything else
(40_region_controller.md R133). -/
def ensureMicros (cfg : Cfg) : List Micro :=
  .test .rsv 13 :: (programMicros cfg .rsv ++ rmwMicros .rsv cfg.noAccess ++ [.barrier])

/-- `set_region_authorization(region, a)` (40_region_controller.md R139, R142). -/
def setAuthMicros (cfg : Cfg) (region : Word) (a : Byte) : List Micro :=
  match regionSlot region with
  | none => []
  | some x =>
    ensureMicros cfg ++ .test x 8 :: (programMicros cfg x ++ rmwMicros x a ++ [.barrier])

/-- `bind(i, e)` (41_counter_mapper.md R161). -/
def bindMicros (i e : Word) : List Micro :=
  match counterOf i with
  | some c => [.csrWrite (.evt c) e]
  | none => []

/-- `reset_baseline()` (41_counter_mapper.md R162). -/
def resetMicros (cfg : Cfg) : List Micro :=
  .csrSet .ideleg (overflowMask cfg) :: .csrWrite .wen wenAllOnes ::
    baselineCounters.map fun i => .csrWrite (.evt i) (baseline i)

/-- `dispatch(t, i, e)` (41_counter_mapper.md R163). -/
def dispatchMicros (cfg : Cfg) (t i e : Word) : List Micro :=
  if selectsBind t then bindMicros i e else resetMicros cfg

def extMicros (b : Bool) (name : Collaborator) : List Micro := if b then [.ext name] else []

/-- `final_init()` (43_boot_context.md R205). -/
def finalMicros (cfg : Cfg) (cold : Bool) : List Micro :=
  if cold then
    extMicros cfg.errata.powerControl .installPowerControlDevice ++
      extMicros (vendorMatches cfg) .registerVendorExtensionHandler
  else []

/-- The body of an operation, without its return. `cold` says whether the calling hart performs cold
boot. -/
def bodyMicros (cfg : Cfg) (cold : Bool) : Instr → List Micro
  | .ensureReservedRegion => ensureMicros cfg
  | .setRegionAuthorization region a => setAuthMicros cfg region a
  | .bind i e => bindMicros i e
  | .resetBaseline => resetMicros cfg
  | .dispatch t i e => dispatchMicros cfg t i e
  | .isColdBootAllowed _ => []
  | .earlyInit => extMicros cfg.errata.tlbFlush .registerTlbFlushTrapHandler
  | .extensionsInit => [.ext .registerPmuDevice]
  | .finalInit => finalMicros cfg cold
  | .vcallPmuBind _ a1 a2 => dispatchMicros cfg Config.opBind a1 a2
  | .vcallPmuReset _ a0 a1 a2 => dispatchMicros cfg a0 a1 a2
  | .vcallPmpTcm0 a0 _ _ => setAuthMicros cfg Config.fidTcm0 (authOperand a0)
  | .vcallPmpTcm1 a0 _ _ => setAuthMicros cfg Config.fidTcm1 (authOperand a0)
  | .vcallPmpNop _ _ _ _ => []
  | .vcallNop _ _ _ _ _ => []
  | .vcallLegacyBind _ _ a1 a2 => dispatchMicros cfg Config.opBind a1 a2
  | .vcallLegacyReset _ _ a0 a1 a2 => dispatchMicros cfg a0 a1 a2

/-- What an operation returns. -/
def returnOf (cfg : Cfg) : Instr → Return
  | .ensureReservedRegion => .nothing
  | .setRegionAuthorization _ _ => .nothing
  | .bind _ _ => .nothing
  | .resetBaseline => .nothing
  | .dispatch _ _ _ => .nothing
  | .isColdBootAllowed hartId => .boolean (coldBootAllowed cfg hartId)
  | .earlyInit => .nothing
  | .extensionsInit => .nothing
  | .finalInit => .nothing
  | .vcallPmuBind _ _ _ => callReturn
  | .vcallPmuReset _ _ _ _ => callReturn
  | .vcallPmpTcm0 _ _ _ => callReturn
  | .vcallPmpTcm1 _ _ _ => callReturn
  | .vcallPmpNop _ _ _ _ => callReturn
  | .vcallNop _ _ _ _ _ => callReturn
  | .vcallLegacyBind _ _ _ _ => callReturn
  | .vcallLegacyReset _ _ _ _ _ => callReturn

/-- Everything an operation does, its return last. -/
def micros (cfg : Cfg) (cold : Bool) (i : Instr) : List Micro :=
  bodyMicros cfg cold i ++ [.ret (returnOf cfg i)]

/-- The acting hart does one thing of its operation in progress; `rest` is what stands after it. -/
def performMicro (m : Micro) (rest : List Micro) (s : State) : State :=
  match m with
  | .test x n =>
    setBusy s.hart (if startObserved x s then rest.drop n else rest)
      (tblRead Config.readReplica (.startFrame x) s)
  | .write c r v => setBusy s.hart rest (tblWrite c r v s)
  | .rmw c x a =>
    setBusy s.hart
      (.write c (authReg s.cfg x) (mergeAuth s.cfg x a (s.tblAt c (authReg s.cfg x))) :: rest)
      (tblRead c (authReg s.cfg x) s)
  | .barrier => setBusy s.hart rest (barrier s)
  | .csrWrite k v => setBusy s.hart rest (csrWrite k v s)
  | .csrSet k m => setBusy s.hart rest (csrSetBits k m s)
  | .ext name => setBusy s.hart rest (extCall name s)
  | .ret r => setBusy s.hart rest (complete r s)

/-- The acting hart issues its next event; with no operation in progress nothing happens. -/
def issueNext (s : State) : State :=
  match s.busyOf s.hart with
  | [] => s
  | m :: rest => performMicro m rest s

/-- The oldest queued write of hart `h` reaches the observers (20_memory.md R71). -/
def landNext (h : Hart) (s : State) : State :=
  match s.pendOf h with
  | [] => s
  | p :: rest => setPend h rest { s with vis := applyPending s.cfg s.vis p }

end Sys2Proof.Machine
end

