-- ==== Sys2Proof/Machine/Schedule.lean ====
section
/-! DEFINITION. What an input of the outside makes the machine do (log 8): the fetch of a request and
the four kinds of input. -/

namespace Sys2Proof.Machine

/-- What becomes of a request presented on a hart. -/
inductive Admission where
  /-- The operation, and the state in which it begins. -/
  | runs (i : Instr) (s : State)
  /-- A vendor call that does not reach the dispatcher (42_call_dispatcher.md R193; log 7). -/
  | unreached
  /-- A request that has no meaning. -/
  | stops (r : Refusal)
deriving DecidableEq, Repr

/-- The five input registers of a call on a hart: each call is a fresh tuple (10_state.md R23). -/
def CallRegs.present (k : CallRegs) (c : Call) : CallRegs :=
  { k with eid := c.eid, fid := c.fid, a0 := c.a0, a1 := c.a1, a2 := c.a2 }

/-- The state in which a request begins: hart `h` acts, and a call stands in its call registers. -/
def presented (h : Hart) (r : Request) (s : State) : State :=
  match r with
  | .vcall c => setCall h ((s.callOf h).present c) { s with hart := h }
  | .proc _ _ => { s with hart := h }

/-- The hook an operation is, if it is one. -/
def hookOf : Instr → Option Hook
  | .ensureReservedRegion => none
  | .setRegionAuthorization _ _ => none
  | .bind _ _ => none
  | .resetBaseline => none
  | .dispatch _ _ _ => none
  | .isColdBootAllowed _ => none
  | .earlyInit => some .earlyInit
  | .extensionsInit => some .extensionsInit
  | .finalInit => some .finalInit
  | .vcallPmuBind _ _ _ => none
  | .vcallPmuReset _ _ _ _ => none
  | .vcallPmpTcm0 _ _ _ => none
  | .vcallPmpTcm1 _ _ _ => none
  | .vcallPmpNop _ _ _ _ => none
  | .vcallNop _ _ _ _ _ => none
  | .vcallLegacyBind _ _ _ _ => none
  | .vcallLegacyReset _ _ _ _ _ => none

/-- A hook that begins on the acting hart is written down (43_boot_context.md R206; log 28). -/
def noteHook (i : Instr) (s : State) : State :=
  match hookOf i with
  | none => s
  | some k => setHooks s.hart (s.hooksOf s.hart ++ [k]) s

/-- The state in which the operation `i` of a request begins. -/
def begun (h : Hart) (r : Request) (i : Instr) (s : State) : State := noteHook i (presented h r s)

/-- The place of a hook in the order of 43_boot_context.md R206. -/
def Hook.rank : Hook → Nat
  | .earlyInit => 0
  | .extensionsInit => 1
  | .finalInit => 2

/-- May the operation begin on hart `h` in the order that 43_boot_context.md R206 assumes of the
firmware: no hook after itself or after a later one on the same hart? DESIGN CHOICE (log 28): the order
binds the hooks of one hart only, and a hart may leave a hook out; the rule says neither whether the
order also binds hooks begun on different harts nor which harts run which. The machine does not ask: it
is a premise for claims. -/
def hookInOrder (h : Hart) (i : Instr) (s : State) : Bool :=
  match hookOf i with
  | none => true
  | some k => (s.hooksOf h).all fun j => decide (j.rank < k.rank)

/-- Does the request reach the block? A vendor call does so once the dispatcher is registered
(42_call_dispatcher.md R193, 43_boot_context.md R205; log 7). -/
def reaches (r : Request) (s : State) : Bool :=
  match r with
  | .vcall _ => s.handler
  | .proc _ _ => true

/-- A request on hart `h`: no hart is re-entered (60_exceptions.md R228; log 14), a vendor call must
reach the dispatcher, and the decoder names the operation. -/
def receive (h : Hart) (r : Request) (s : State) : Admission :=
  if reaches r s = false then .unreached
  else if s.busyOf h ≠ [] then .stops .reentered
  else
    match decode s.cfg r with
    | .ok i => .runs i (begun h r i s)
    | .error e => .stops (.rejected e)

/-- Begin an operation on the acting hart: nothing of it is done yet. -/
def beginOperation (i : Instr) (s : State) : Result :=
  if cfgOk s.cfg then .next (setBusy s.hart (micros s.cfg (decide (s.hart = s.coldHart)) i) s)
  else .refused .badConfig

/-- One input. -/
def takeInput (inp : Input) (s : State) : Result :=
  match inp with
  | .request h r =>
    match receive h r s with
    | .runs i t => exec i t
    | .unreached => .next s
    | .stops e => .refused e
  | .start h r =>
    match receive h r s with
    | .runs i t => beginOperation i t
    | .unreached => .next s
    | .stops e => .refused e
  | .issue h => .next (issueNext { s with hart := h })
  | .land h => .next (landNext h s)

/-- A hart with no operation in progress and the dispatcher registered: what a fetch needs. -/
def readied (p : DispatchPath) (s : State) : State :=
  setBusy s.hart [] { s with cfg := s.cfg.onPath p, handler := true }

/-- The operation of a table word, presented next on the acting hart (log 10). -/
def withTableWord (s : State) (nbits w : Nat) : State :=
  match tableRequest s.cfg nbits w with
  | none => s
  | some r =>
    readied (tablePath s.cfg nbits w) { s with inputs := .request s.hart r :: s.inputs }

end Sys2Proof.Machine
end

