-- ==== Sys2Proof/Machine/Step.lean ====
section
/-! DEFINITION. One step of the machine: the next input is taken. With no input nothing happens
(70_reset_and_hazards.md R271). -/

namespace Sys2Proof.Machine

def step (s : State) : Host.Outcome State Fault Refusal :=
  match s.inputs with
  | [] => .next s
  | inp :: rest => takeInput inp { s with inputs := rest }

/-- The operation of a word of spec/opcode_table.json stands next to be run (log 10). -/
def State.withFetchWord (s : State) (nbits w : Nat) : State := withTableWord s nbits w

end Sys2Proof.Machine
end

