-- ==== Sys2Proof/Safety.lean ====
section
/-! DEFINITION. The terms claims about the block use: launch premises, quiescence, the invariant of
the machine, the exact event sequences of the rules, and the kinds of operations. -/

namespace Sys2Proof.Machine

/-! ### Launch premises (10_state.md R51) -/

/-- L1: no operation is in progress on any hart. -/
def State.L1 (s : State) : Prop := ∀ h : Hart, s.busyOf h = []

/-- L2: no table write is pending: `vis = tbl`. -/
def State.L2 (s : State) : Prop := s.vis = s.tbl ∧ ∀ h : Hart, s.pendOf h = []

/-- L3: the trace is empty. -/
def State.L3 (s : State) : Prop := s.trace = []

/-- L_ZERO: every table register holds 0. -/
def State.LZero (s : State) : Prop := ∀ (c : Bank) (r : TblReg), s.tblAt c r = 0

/-- Between operations under P_SERIAL: nothing in progress and nothing pending. -/
def State.Quiescent (s : State) : Prop := s.L1 ∧ s.L2

/-- An input that keeps P_SERIAL: a whole operation, or a landing (70_reset_and_hazards.md R262). -/
def Input.serial : Input → Bool
  | .request _ _ => true
  | .start _ _ => false
  | .issue _ => false
  | .land _ => true

/-! ### The order of the hooks (43_boot_context.md R206) -/

/-- Premise P_BOOT of an input: a hook it begins comes in the order that 43_boot_context.md R206
assumes, at most once per hart. That the order binds only hooks of the same hart is a DESIGN CHOICE
(log 28). -/
def Input.inBootOrder (s : State) : Input → Bool
  | .request h r =>
    match decode s.cfg r with
    | .ok i => hookInOrder h i s
    | .error _ => true
  | .start h r =>
    match decode s.cfg r with
    | .ok i => hookInOrder h i s
    | .error _ => true
  | .issue _ => true
  | .land _ => true

/-- The four harts. -/
def harts : List Hart := [0, 1, 2, 3]

/-- How often a collaborator has been called, or is still to be called by an operation in progress. -/
def State.callsOf (s : State) (n : Collaborator) : Nat :=
  s.trace.count (.ext n) + (harts.map fun h => (s.busyOf h).count (.ext n)).sum

/-- On how many harts a hook has begun. -/
def State.begunOn (s : State) (k : Hook) : Nat := harts.countP fun h => (s.hooksOf h).contains k

/-- On how many harts the body of `final_init` has begun: one at most. -/
def State.finalBodies (s : State) : Nat :=
  if (s.hooksOf s.coldHart).contains .finalInit then 1 else 0

/-- The hooks of every hart came in order and once, hart by hart (log 28), and no collaborator was called
more often than a hook begun can account for: the body of `final_init` once in all
(43_boot_context.md R206). -/
structure State.BootInv (s : State) : Prop where
  ordered    : ∀ h : Hart, (s.hooksOf h).Pairwise fun j k => j.rank < k.rank
  early      : s.callsOf .registerTlbFlushTrapHandler ≤ s.begunOn .earlyInit
  extensions : s.callsOf .registerPmuDevice ≤ s.begunOn .extensionsInit
  power      : s.callsOf .installPowerControlDevice ≤ s.finalBodies
  handler    : s.callsOf .registerVendorExtensionHandler ≤ s.finalBodies

/-! ### The invariant -/

/-- `Fenced p q`: if table writes are queued exactly when `p`, then `q`, the rest of an operation,
publishes every one of them by a barrier before it returns (20_memory.md R72, R76). -/
inductive Fenced : Bool → List Micro → Prop where
  | done : Fenced false []
  | test {p : Bool} {x : Slot} {n : Nat} {q : List Micro} :
      Fenced p q → Fenced p (q.drop n) → Fenced p (.test x n :: q)
  | write {p : Bool} {c : Bank} {r : TblReg} {v : Word32} {q : List Micro} :
      Fenced true q → Fenced p (.write c r v :: q)
  | rmw {p : Bool} {c : Bank} {x : Slot} {a : Byte} {q : List Micro} :
      Fenced true q → Fenced p (.rmw c x a :: q)
  | barrier {p : Bool} {q : List Micro} : Fenced false q → Fenced p (.barrier :: q)
  | csrWrite {p : Bool} {k : Csr} {v : Word} {q : List Micro} :
      Fenced p q → Fenced p (.csrWrite k v :: q)
  | csrSet {p : Bool} {k : Csr} {m : Word} {q : List Micro} :
      Fenced p q → Fenced p (.csrSet k m :: q)
  | ext {p : Bool} {n : Collaborator} {q : List Micro} : Fenced p q → Fenced p (.ext n :: q)
  | ret {r : Return} {q : List Micro} : Fenced false q → Fenced false (.ret r :: q)

/-- The invariant of the machine, kept by every step of every schedule: both views of the table are
in canonical form and list nothing outside the 32 registers, and what a hart has queued is published
before its operation returns. -/
structure State.Inv (s : State) : Prop where
  tblWf    : Memory.wf s.tbl = true
  visWf    : Memory.wf s.vis = true
  tblInMap : Memory.inTable s.cfg s.tbl = true
  visInMap : Memory.inTable s.cfg s.vis = true
  fenced   : ∀ h : Hart, Fenced (decide (s.pendOf h ≠ [])) (s.busyOf h)

/-- The canonical form of both views. -/
def State.Canonical (s : State) : Prop := Memory.wf s.tbl = true ∧ Memory.wf s.vis = true

/-! ### Field placement -/

/-- The field of the slot stands in another word than the reserved window's, as on the placement of
00_scope.md R11. -/
def ownWord (cfg : Cfg) (x : Slot) : Prop := authReg cfg x ≠ authReg cfg .rsv

/-- The placement of 00_scope.md R11 and 10_state.md R30. -/
def placementR11 (cfg : Cfg) : Prop :=
  cfg.tcm0.word = .w6 ∧ cfg.tcm1.word = .w6 ∧ cfg.rsv.word = .w7 ∧
  cfg.tcm0.lane = 2 ∧ cfg.tcm1.lane = 3 ∧ cfg.rsv.lane = 0

/-! ### The exact event sequences -/

/-- The 8 frame writes of `program_frames(s)` (40_region_controller.md R131). -/
def frameEvents (cfg : Cfg) (x : Slot) : List Event :=
  [ .regWr 0 (.startFrame x) (expStart cfg x), .regWr 0 (.endFrame x) (expEnd cfg x),
    .regWr 1 (.startFrame x) (expStart cfg x), .regWr 1 (.endFrame x) (expEnd cfg x),
    .regWr 2 (.startFrame x) (expStart cfg x), .regWr 2 (.endFrame x) (expEnd cfg x),
    .regWr 3 (.startFrame x) (expStart cfg x), .regWr 3 (.endFrame x) (expEnd cfg x) ]

/-- The 4 reads and 4 writes of `rmw_auth(s, a)` begun in state `s` (40_region_controller.md R132). -/
def rmwEvents (x : Slot) (a : Byte) (s : State) : List Event :=
  let r := authReg s.cfg x
  [ .regRd 0 r (s.tblAt 0 r), .regWr 0 r (mergeAuth s.cfg x a (s.tblAt 0 r)),
    .regRd 1 r (s.tblAt 1 r), .regWr 1 r (mergeAuth s.cfg x a (s.tblAt 1 r)),
    .regRd 2 r (s.tblAt 2 r), .regWr 2 r (mergeAuth s.cfg x a (s.tblAt 2 r)),
    .regRd 3 r (s.tblAt 3 r), .regWr 3 r (mergeAuth s.cfg x a (s.tblAt 3 r)) ]

/-- The read of the observed start frame (40_region_controller.md R134, R140). -/
def observeEvent (x : Slot) (s : State) : Event :=
  .regRd 0 (.startFrame x) (s.tblAt 0 (.startFrame x))

/-- The events of `ensure_reserved_region()` begun in state `s` (40_region_controller.md R138). -/
def ensureEvents (s : State) : List Event :=
  if s.tblAt 0 (.startFrame .rsv) = expStart s.cfg .rsv then [observeEvent .rsv s]
  else observeEvent .rsv s ::
    (frameEvents s.cfg .rsv ++ rmwEvents .rsv s.cfg.noAccess s ++ [.barrier])

/-- The events of `set_region_authorization` for the slot of a valid region, begun in state `s`
(40_region_controller.md R145). -/
def setAuthEvents (x : Slot) (a : Byte) (s : State) : List Event :=
  ensureEvents s ++ observeEvent x s ::
    ((if s.tblAt 0 (.startFrame x) = expStart s.cfg x then [] else frameEvents s.cfg x) ++
      rmwEvents x a s ++ [.barrier])

/-- The 28 events of `reset_baseline()` on hart `h` (41_counter_mapper.md R164). -/
def resetEvents (cfg : Cfg) (h : Hart) : List Event :=
  .csrSet h .ideleg (1#64 <<< cfg.ovfDelegBit.val) :: .csrWr h .wen 0xFFFFFFFF ::
    (List.finRange 26).map fun j => .csrWr h (.evt (j.castLE (by decide))) (BitVec.ofNat 64 (j.val + 1))

/-! ### Kinds of events and operations -/

/-- An event that programs the reserved window: a write of one of its registers. -/
def Event.programsReserved (cfg : Cfg) : Event → Bool
  | .regWr _ r _ => r == .startFrame .rsv || r == .endFrame .rsv || r == authReg cfg .rsv
  | .regRd _ _ _ => false
  | .barrier => false
  | .csrWr _ _ _ => false
  | .csrSet _ _ _ => false
  | .ext _ => false

/-- A write of a frame register of slot `x`. -/
def Event.writesFrame (x : Slot) : Event → Bool
  | .regWr _ r _ => r == .startFrame x || r == .endFrame x
  | .regRd _ _ _ => false
  | .barrier => false
  | .csrWr _ _ _ => false
  | .csrSet _ _ _ => false
  | .ext _ => false

/-- A write of a table register. -/
def Event.isTableWrite : Event → Bool
  | .regWr _ _ _ => true
  | .regRd _ _ _ => false
  | .barrier => false
  | .csrWr _ _ _ => false
  | .csrSet _ _ _ => false
  | .ext _ => false

/-- An access to the configuration word of slot `x`. -/
def Event.accessesAuth (cfg : Cfg) (x : Slot) : Event → Bool
  | .regWr _ r _ => r == authReg cfg x
  | .regRd _ r _ => r == authReg cfg x
  | .barrier => false
  | .csrWr _ _ _ => false
  | .csrSet _ _ _ => false
  | .ext _ => false

/-- A read, a write or a barrier of the region table. -/
def Event.onTable : Event → Bool
  | .regRd _ _ _ => true
  | .regWr _ _ _ => true
  | .barrier => true
  | .csrWr _ _ _ => false
  | .csrSet _ _ _ => false
  | .ext _ => false

/-- A piece of an operation that accesses the region table. -/
def Micro.onTable : Micro → Bool
  | .test _ _ => true
  | .write _ _ _ => true
  | .rmw _ _ _ => true
  | .barrier => true
  | .csrWrite _ _ => false
  | .csrSet _ _ => false
  | .ext _ => false
  | .ret _ => false

/-- A piece of an operation that writes a control register. -/
def Micro.onCounters : Micro → Bool
  | .test _ _ => false
  | .write _ _ _ => false
  | .rmw _ _ _ => false
  | .barrier => false
  | .csrWrite _ _ => true
  | .csrSet _ _ => true
  | .ext _ => false
  | .ret _ => false

/-- The banks hold the same start frame, end frame and authorization of a slot
(10_state.md R34). -/
def State.ReplicasEqual (s : State) (x : Slot) : Prop :=
  ∀ c d : Bank,
    s.tblAt c (.startFrame x) = s.tblAt d (.startFrame x) ∧
    s.tblAt c (.endFrame x) = s.tblAt d (.endFrame x) ∧
    authField s.cfg x (s.tblAt c (authReg s.cfg x)) = authField s.cfg x (s.tblAt d (authReg s.cfg x))

/-- An operation of the region controller, reached directly or by a vendor call. -/
def isRegionOp : Instr → Bool
  | .ensureReservedRegion => true
  | .setRegionAuthorization _ _ => true
  | .bind _ _ => false
  | .resetBaseline => false
  | .dispatch _ _ _ => false
  | .isColdBootAllowed _ => false
  | .earlyInit => false
  | .extensionsInit => false
  | .finalInit => false
  | .vcallPmuBind _ _ _ => false
  | .vcallPmuReset _ _ _ _ => false
  | .vcallPmpTcm0 _ _ _ => true
  | .vcallPmpTcm1 _ _ _ => true
  | .vcallPmpNop _ _ _ _ => false
  | .vcallNop _ _ _ _ _ => false
  | .vcallLegacyBind _ _ _ _ => false
  | .vcallLegacyReset _ _ _ _ _ => false

/-- An operation of the counter mapper, reached directly or by a vendor call. -/
def isCounterOp : Instr → Bool
  | .ensureReservedRegion => false
  | .setRegionAuthorization _ _ => false
  | .bind _ _ => true
  | .resetBaseline => true
  | .dispatch _ _ _ => true
  | .isColdBootAllowed _ => false
  | .earlyInit => false
  | .extensionsInit => false
  | .finalInit => false
  | .vcallPmuBind _ _ _ => true
  | .vcallPmuReset _ _ _ _ => true
  | .vcallPmpTcm0 _ _ _ => false
  | .vcallPmpTcm1 _ _ _ => false
  | .vcallPmpNop _ _ _ _ => false
  | .vcallNop _ _ _ _ _ => false
  | .vcallLegacyBind _ _ _ _ => true
  | .vcallLegacyReset _ _ _ _ _ => true

/-- The registers, in every bank, that `ensure_reserved_region` stores to when begun in state `s`
(40_region_controller.md R133, R134). -/
def ensureStores (s : State) : List TblReg :=
  if s.tblAt 0 (.startFrame .rsv) = expStart s.cfg .rsv then []
  else [.startFrame .rsv, .endFrame .rsv, authReg s.cfg .rsv]

/-- The registers, in every bank, that `set_region_authorization` stores to
(40_region_controller.md R139, R140, R142). -/
def setAuthStores (region : Word) (s : State) : List TblReg :=
  match regionSlot region with
  | none => []
  | some x =>
    ensureStores s ++
      (if s.tblAt 0 (.startFrame x) = expStart s.cfg x then [] else [.startFrame x, .endFrame x]) ++
      [authReg s.cfg x]

/-- The registers, in every bank, that an operation stores to when begun in state `s`. -/
def storedRegs (s : State) : Instr → List TblReg
  | .ensureReservedRegion => ensureStores s
  | .setRegionAuthorization region _ => setAuthStores region s
  | .bind _ _ => []
  | .resetBaseline => []
  | .dispatch _ _ _ => []
  | .isColdBootAllowed _ => []
  | .earlyInit => []
  | .extensionsInit => []
  | .finalInit => []
  | .vcallPmuBind _ _ _ => []
  | .vcallPmuReset _ _ _ _ => []
  | .vcallPmpTcm0 _ _ _ => setAuthStores Config.fidTcm0 s
  | .vcallPmpTcm1 _ _ _ => setAuthStores Config.fidTcm1 s
  | .vcallPmpNop _ _ _ _ => []
  | .vcallNop _ _ _ _ _ => []
  | .vcallLegacyBind _ _ _ _ => []
  | .vcallLegacyReset _ _ _ _ _ => []

/-- A row of the vendor call dispatcher. -/
def isVendorCall : Instr → Bool
  | .ensureReservedRegion => false
  | .setRegionAuthorization _ _ => false
  | .bind _ _ => false
  | .resetBaseline => false
  | .dispatch _ _ _ => false
  | .isColdBootAllowed _ => false
  | .earlyInit => false
  | .extensionsInit => false
  | .finalInit => false
  | .vcallPmuBind _ _ _ => true
  | .vcallPmuReset _ _ _ _ => true
  | .vcallPmpTcm0 _ _ _ => true
  | .vcallPmpTcm1 _ _ _ => true
  | .vcallPmpNop _ _ _ _ => true
  | .vcallNop _ _ _ _ _ => true
  | .vcallLegacyBind _ _ _ _ => true
  | .vcallLegacyReset _ _ _ _ _ => true

end Sys2Proof.Machine
end

