-- ==== Sys2Proof/Certificates/Slice0/Obligations.lean ====
section
/-! DEFINITION. The statements for the provers. A statement that rests on a decision the spec marks as
its own (D<n> of 92_eei_decisions.md) or on an entry of the assumption log says so. -/

open Sys2Proof Sys2Proof.Machine

/-! ### Encoding -/

/-- Decoding the request that stands for a well-formed operation gives the operation back, with every
operand at every value. The request's form is the model's (log 1). -/
def Obligations.DecodeOfEncode : Prop :=
  ∀ (cfg : Cfg) (i : Instr), cfg.extPmu ≠ cfg.extPmp → i.wellFormed cfg = true →
    decode cfg (encode cfg i) = .ok i

/-- A request that decodes is the request of the operation it decodes to, and that operation is well
formed: no two requests decode to one operation. -/
def Obligations.EncodeOfDecode : Prop :=
  ∀ (cfg : Cfg) (r : Request) (i : Instr), decode cfg r = .ok i →
    i.wellFormed cfg = true ∧ encode cfg i = r

/-- R111: every call matches exactly one row of the decision tables, decodes, and ends in success. -/
def Obligations.EveryCallHasOneRowAndSucceeds : Prop :=
  ∀ (cfg : Cfg) (c : Call),
    (decisionTable.filter fun r => r.hits (selector cfg c)).length = 1 ∧
    ∃ i, decode cfg (.vcall c) = .ok i ∧
      ∀ s : State, s.cfg = cfg → cfgOk cfg = true →
        ∃ t, exec i s = .next t ∧ t.retOf s.hart = .status Config.success Config.callValue

/-- R104: the decision table of the PMP-aware path: exactly one row matches, and each row by its
condition in words, its pattern and the operation with its operands. -/
def Obligations.PmpAwareDecisionTable : Prop :=
  ∀ (cfg : Cfg) (c : Call), cfg.dispatchPath = .pmpAware → cfg.extPmu ≠ cfg.extPmp →
    (decisionTable.filter fun r => r.hits (selector cfg c)).length = 1 ∧
    (c.eid = cfg.extPmu → c.a0 = 2 →
      decode cfg (.vcall c) = .ok (.vcallPmuBind c.fid c.a1 c.a2) ∧
      selector cfg c &&& 0x39 = 0x09) ∧
    (c.eid = cfg.extPmu → c.a0 ≠ 2 →
      decode cfg (.vcall c) = .ok (.vcallPmuReset c.fid c.a0 c.a1 c.a2) ∧
      selector cfg c &&& 0x39 = 0x08) ∧
    (c.eid = cfg.extPmp → c.fid = 0 →
      decode cfg (.vcall c) = .ok (.vcallPmpTcm0 c.a0 c.a1 c.a2) ∧
      selector cfg c &&& 0x3E = 0x10) ∧
    (c.eid = cfg.extPmp → c.fid = 1 →
      decode cfg (.vcall c) = .ok (.vcallPmpTcm1 c.a0 c.a1 c.a2) ∧
      selector cfg c &&& 0x3E = 0x12) ∧
    (c.eid = cfg.extPmp → c.fid ≠ 0 → c.fid ≠ 1 →
      decode cfg (.vcall c) = .ok (.vcallPmpNop c.fid c.a0 c.a1 c.a2) ∧
      selector cfg c &&& 0x3E = 0x14) ∧
    (c.eid ≠ cfg.extPmu → c.eid ≠ cfg.extPmp →
      decode cfg (.vcall c) = .ok (.vcallNop c.eid c.fid c.a0 c.a1 c.a2) ∧
      selector cfg c &&& 0x38 = 0x00)

/-- The decision table of the legacy path, which examines neither the extension id nor the function id,
and the default path (30_encoding.md R105, decision D20). -/
def Obligations.LegacyDecisionTable : Prop :=
  State.reset.cfg.dispatchPath = .pmpAware ∧
  ∀ (cfg : Cfg) (c : Call), cfg.dispatchPath = .legacy →
    (c.a0 = 2 →
      decode cfg (.vcall c) = .ok (.vcallLegacyBind c.eid c.fid c.a1 c.a2) ∧
      selector cfg c &&& 0x21 = 0x21) ∧
    (c.a0 ≠ 2 →
      decode cfg (.vcall c) = .ok (.vcallLegacyReset c.eid c.fid c.a0 c.a1 c.a2) ∧
      selector cfg c &&& 0x21 = 0x20)

/-- The calls V-VC-2, V-VC-4, V-VC-10, V-VC-11 and V-VC-12 of 95_test_vectors.md, and three entry
points by number. A sanity statement on the synthetic configuration (log 3). -/
def Obligations.SampleRequestsDecode : Prop :=
  decode Config.reference (.vcall ⟨0x09000001, 99, 2, 5, 42⟩) = .ok (.vcallPmuBind 99 5 42) ∧
  decode Config.reference (.vcall ⟨0x09000002, 0, 0x11, 0, 0⟩) = .ok (.vcallPmpTcm0 0x11 0 0) ∧
  decode Config.reference (.vcall ⟨0x09000002, 0x100000000, 0x11, 0, 0⟩) =
    .ok (.vcallPmpNop 0x100000000 0x11 0 0) ∧
  decode Config.reference (.vcall ⟨0x0000000109000002, 0, 0x11, 0, 0⟩) =
    .ok (.vcallNop 0x0000000109000002 0 0x11 0 0) ∧
  decode (Config.reference.onPath .legacy) (.vcall ⟨0x09000002, 0, 0x11, 0, 0⟩) =
    .ok (.vcallLegacyReset 0x09000002 0 0x11 0 0) ∧
  decode Config.reference (.proc 1 [.word 0, .byte 0x11]) = .ok (.setRegionAuthorization 0 0x11) ∧
  decode Config.reference (.proc 2 [.word 5, .word 42]) = .ok (.bind 5 42) ∧
  decode Config.reference (.proc 8 []) = .ok .finalInit

/-- An entry point number the table does not have names no operation, whatever its operands. -/
def Obligations.UnknownEntryPointsRejected : Prop :=
  ∀ (cfg : Cfg) (ep : BitVec 4) (args : List Operand), 9 ≤ ep.toNat →
    decode cfg (.proc ep args) = .error (.unknownEntryPoint ep)

/-! ### A step -/

/-- A step runs the operation that the request next in line decodes to, on the hart it is presented
on, with a call's five values standing in that hart's call registers and a hook written down (log 28). The order of inputs is the
model's (log 8); a vendor call reaches the block once the dispatcher is registered (log 7). -/
def Obligations.StepRunsDecodedRequest : Prop :=
  ∀ (s : State) (h : Hart) (r : Request) (rest : List Input) (i : Instr),
    s.inputs = .request h r :: rest → s.busyOf h = [] →
    (∀ c, r = .vcall c → s.handler = true) → decode s.cfg r = .ok i →
    ∃ u : State, step s = exec i u ∧ u.hart = h ∧ u.inputs = rest ∧ u.cfg = s.cfg ∧
      u.tbl = s.tbl ∧ u.vis = s.vis ∧ u.pend = s.pend ∧ u.pmu = s.pmu ∧ u.ret = s.ret ∧
      u.busy = s.busy ∧ u.trace = s.trace ∧ u.handler = s.handler ∧ u.coldHart = s.coldHart ∧
      (∀ k, u.hooksOf k = if k = h then s.hooksOf k ++ (hookOf i).toList else s.hooksOf k) ∧
      (∀ k, k ≠ h → u.callOf k = s.callOf k) ∧
      (∀ c, r = .vcall c → u.callOf h =
        ⟨c.eid, c.fid, c.a0, c.a1, c.a2, (s.callOf h).err, (s.callOf h).val⟩) ∧
      (∀ ep args, r = .proc ep args → u.callOf h = s.callOf h)

/-- Before the dispatcher is registered a vendor call does not reach the block: nothing of the block
changes. That such a call is taken from the input and has no other effect is the model's (log 7). -/
def Obligations.UnreachedCallChangesNothing : Prop :=
  ∀ (s : State) (h : Hart) (c : Call) (rest : List Input),
    s.handler = false →
    (s.inputs = .request h (.vcall c) :: rest ∨ s.inputs = .start h (.vcall c) :: rest) →
    step s = .next { s with inputs := rest }

/-- A request on a hart whose operation is in progress, and a request that decodes to nothing, have no
meaning: the step stops under a name of its own (log 14, log 1). -/
def Obligations.RequestsWithoutMeaningStop : Prop :=
  ∀ (s : State) (h : Hart) (r : Request) (rest : List Input),
    (s.inputs = .request h r :: rest ∨ s.inputs = .start h r :: rest) →
    (∀ c, r = .vcall c → s.handler = true) →
    (s.busyOf h ≠ [] → step s = .refused .reentered) ∧
    (∀ e, s.busyOf h = [] → decode s.cfg r = .error e → step s = .refused (.rejected e))

/-- Nothing of one call's registers survives to the next: whatever stood in the call
registers of the hart, the step that performs a vendor call ends the same. -/
def Obligations.CallRegistersDoNotSurvive : Prop :=
  ∀ (s : State) (h : Hart) (c : Call) (rest : List Input) (k : CallRegs),
    s.handler = true → s.inputs = .request h (.vcall c) :: rest →
    step (setCall h k s) = step s

/-! ### The configuration and the address map -/

/-- A configuration that fails the check of the address map, of the region addresses or of the
extension ids is refused: no operation has a meaning under it. The check's form is the spec's
decision D2, D4, D5 and the model's (log 13). -/
def Obligations.BadConfigurationIsRefused : Prop :=
  ∀ (i : Instr) (s : State),
    ((∃ r, regOff s.cfg r % 4 ≠ 0) ∨ s.cfg.tableBase % 4 ≠ 0 ∨ s.cfg.coreStride % 4 ≠ 0 ∨
      (∃ r r', r ≠ r' ∧ regOff s.cfg r = regOff s.cfg r') ∨
      (∃ r, s.cfg.coreStride < regOff s.cfg r + 4) ∨
      (∃ r, 2 ^ 64 ≤ s.cfg.tableBase + 3 * s.cfg.coreStride + regOff s.cfg r + 3) ∨
      (∃ x, (slotCfg s.cfg x).startAddr.toNat % 4096 ≠ 0 ∨
        (slotCfg s.cfg x).endAddr.toNat % 4096 ≠ 0 ∨
        2 ^ 44 ≤ (slotCfg s.cfg x).startAddr.toNat ∨ 2 ^ 44 ≤ (slotCfg s.cfg x).endAddr.toNat) ∨
      s.cfg.extPmu = s.cfg.extPmp) →
    exec i s = .refused .badConfig

/-- Under a configuration that passes the check the 32 registers stand at aligned addresses inside the
address space and no two of them overlap (20_memory.md R62 (c), decision D2). -/
def Obligations.RegistersDoNotOverlap : Prop :=
  ∀ (cfg : Cfg), cfgOk cfg = true →
    (∀ c r, regAddr cfg c r % 4 = 0 ∧ regAddr cfg c r + 3 < 2 ^ 64) ∧
    (∀ c c' r r', (c ≠ c' ∨ r ≠ r') →
      regAddr cfg c r + 4 ≤ regAddr cfg c' r' ∨ regAddr cfg c' r' + 4 ≤ regAddr cfg c r)

/-- A table register reads as last written, in its bank only; a read changes no register; the issuing
hart's next read sees its write at once (10_state.md R33, decision D34; 20_memory.md R70). -/
def Obligations.RegisterReadsLastWrite : Prop :=
  ∀ (s : State) (c c' : Bank) (r r' : TblReg) (v : Word32),
    cfgOk s.cfg = true → s.Canonical →
    (tblWrite c r v s).tblAt c r = v ∧
    ((c ≠ c' ∨ r ≠ r') → (tblWrite c r v s).tblAt c' r' = s.tblAt c' r') ∧
    (tblRead c r s).tbl = s.tbl ∧
    (tblRead c r s).trace = s.trace ++ [.regRd c r (s.tblAt c r)]

/-- As bytes every table register is little-endian: byte `j` holds bits 8j+7 to 8j, which of a
configuration word is field `j`, and a write changes no byte outside the register (20_memory.md R65,
decision D23; log 18). -/
def Obligations.ByteViewOfRegister : Prop :=
  ∀ (s : State) (c : Bank) (r : TblReg) (v : Word32), s.Canonical →
    (∀ j, j < 4 → Memory.read (tblWrite c r v s).tbl (regAddr s.cfg c r + j) =
      v.extractLsb' (8 * j) 8) ∧
    (∀ k, (k < regAddr s.cfg c r ∨ regAddr s.cfg c r + 4 ≤ k) →
      Memory.read (tblWrite c r v s).tbl k = Memory.read s.tbl k)

/-- An access by address, a read or a write, is one of a register of the table, or is refused: not 4
bytes wide, misaligned, or none of the 32 registers (20_memory.md R64, R66,
93_implementation_defined.md U9, U11; log 15). -/
def Obligations.AccessByAddress : Prop :=
  ∀ (cfg : Cfg) (m : Memory), cfgOk cfg = true →
    (∀ c r, memRead cfg m (regAddr cfg c r) 4 = .ok (Memory.readWord m (regAddr cfg c r)) ∧
      ∀ v, memWrite cfg m (regAddr cfg c r) 4 v = .ok (Memory.writeWord m (regAddr cfg c r) v)) ∧
    (∀ addr n, n ≠ 4 → memRead cfg m addr n = .error .badWidth ∧
      ∀ v, memWrite cfg m addr n v = .error .badWidth) ∧
    (∀ addr, addr % 4 ≠ 0 → memRead cfg m addr 4 = .error .misaligned ∧
      ∀ v, memWrite cfg m addr 4 v = .error .misaligned) ∧
    (∀ addr, addr % 4 = 0 → (∀ c r, addr ≠ regAddr cfg c r) →
      memRead cfg m addr 4 = .error .noSuchRegister ∧
      ∀ v, memWrite cfg m addr 4 v = .error .noSuchRegister)

/-! ### The region controller -/

/-- On a mismatch of the observed start frame `ensure_reserved_region` completes with the reserved
window programmed in every bank, its field at NO_ACCESS, the other 24 bits of each bank's own word and
every other register unchanged, and nothing pending on the hart (40_region_controller.md R136; the
observed bank is 0 by decision D7). -/
def Obligations.EnsureProgramsOnMismatch : Prop :=
  ∀ (s : State), cfgOk s.cfg = true → s.Canonical →
    s.tblAt 0 (.startFrame .rsv) ≠ expStart s.cfg .rsv →
    ∃ t, exec .ensureReservedRegion s = .next t ∧ t.pendOf s.hart = [] ∧
      ∀ c : Bank,
        t.tblAt c (.startFrame .rsv) = (s.cfg.rsv.startAddr >>> 12).setWidth 32 ∧
        t.tblAt c (.endFrame .rsv) = (s.cfg.rsv.endAddr >>> 12).setWidth 32 ∧
        (t.tblAt c (authReg s.cfg .rsv)).extractLsb' (8 * s.cfg.rsv.lane.val) 8 = s.cfg.noAccess ∧
        t.tblAt c (authReg s.cfg .rsv) &&& ~~~(0xFF#32 <<< (8 * s.cfg.rsv.lane.val)) =
          s.tblAt c (authReg s.cfg .rsv) &&& ~~~(0xFF#32 <<< (8 * s.cfg.rsv.lane.val)) ∧
        ∀ r, r ≠ .startFrame .rsv → r ≠ .endFrame .rsv → r ≠ authReg s.cfg .rsv →
          t.tblAt c r = s.tblAt c r

/-- On a match `ensure_reserved_region` completes with one read and nothing else: no write and no
barrier, whatever the other banks, the end frame and the field hold (40_region_controller.md R134 (a),
R135; decisions D7 and D9). -/
def Obligations.EnsureOnlyReadsOnMatch : Prop :=
  ∀ (s : State), cfgOk s.cfg = true → s.tblAt 0 (.startFrame .rsv) = expStart s.cfg .rsv →
    exec .ensureReservedRegion s = .next { s with
      trace := s.trace ++ [.regRd 0 (.startFrame .rsv) (expStart s.cfg .rsv)]
      ret := s.ret.set s.hart.val .nothing }

/-- The events of `ensure_reserved_region` are exactly those of 40_region_controller.md R138, in that
order (decisions D7, D8, D9). -/
def Obligations.EnsureEventsExact : Prop :=
  ∀ (s : State), cfgOk s.cfg = true → s.Canonical →
    ∃ t, exec .ensureReservedRegion s = .next t ∧ t.trace = s.trace ++ ensureEvents s ∧
      (ensureEvents s).length =
        if s.tblAt 0 (.startFrame .rsv) = expStart s.cfg .rsv then 1 else 18

/-- Two consecutive calls yield the register state of one; the second reads once, writes nothing and
issues no barrier (40_region_controller.md R137; decisions D7, D9). -/
def Obligations.EnsureIsIdempotent : Prop :=
  ∀ (s : State), cfgOk s.cfg = true → s.Canonical →
    ∃ t u, exec .ensureReservedRegion s = .next t ∧ exec .ensureReservedRegion t = .next u ∧
      u.tbl = t.tbl ∧ u.vis = t.vis ∧ u.pend = t.pend ∧ u.pmu = t.pmu ∧
      ∃ c r v, u.trace = t.trace ++ [.regRd c r v]

/-- For a valid region `set_region_authorization` completes; every bank holds the authorization in the
slot's field; the field's word is otherwise unchanged; the frames are as programmed if the fix-up
fired and unchanged if not; the other scratch bank's frames are unchanged; slot 28's registers are as
`ensure_reserved_region` leaves them; nothing is pending on the hart (40_region_controller.md R144;
decisions D3, D7, D37). -/
def Obligations.SetAuthorizationPostcondition : Prop :=
  ∀ (s : State) (region : Word) (a : Byte) (x : Slot),
    cfgOk s.cfg = true → s.Canonical → ownWord s.cfg x →
    (region = 0 ∧ x = .tcm0 ∨ region = 1 ∧ x = .tcm1) →
    ∃ t e, exec (.setRegionAuthorization region a) s = .next t ∧
      exec .ensureReservedRegion s = .next e ∧ t.pendOf s.hart = [] ∧
      t.tblAt 0 (.startFrame .rsv) = expStart s.cfg .rsv ∧
      t.tblAt 0 (.startFrame x) = expStart s.cfg x ∧
      ∀ c : Bank,
        (t.tblAt c (authReg s.cfg x)).extractLsb' (8 * (slotCfg s.cfg x).lane.val) 8 = a ∧
        t.tblAt c (authReg s.cfg x) &&& ~~~(0xFF#32 <<< (8 * (slotCfg s.cfg x).lane.val)) =
          s.tblAt c (authReg s.cfg x) &&& ~~~(0xFF#32 <<< (8 * (slotCfg s.cfg x).lane.val)) ∧
        (s.tblAt 0 (.startFrame x) ≠ expStart s.cfg x →
          t.tblAt c (.startFrame x) = ((slotCfg s.cfg x).startAddr >>> 12).setWidth 32 ∧
          t.tblAt c (.endFrame x) = ((slotCfg s.cfg x).endAddr >>> 12).setWidth 32) ∧
        (s.tblAt 0 (.startFrame x) = expStart s.cfg x →
          t.tblAt c (.startFrame x) = s.tblAt c (.startFrame x) ∧
          t.tblAt c (.endFrame x) = s.tblAt c (.endFrame x)) ∧
        (∀ r, r ≠ .startFrame x → r ≠ .endFrame x → r ≠ authReg s.cfg x →
          t.tblAt c r = e.tblAt c r)

/-- The events of `set_region_authorization` for a valid region are exactly those of
40_region_controller.md R145, with the counts of its four cases (decisions D7, D8, D9, D37). -/
def Obligations.SetAuthorizationEventsExact : Prop :=
  ∀ (s : State) (region : Word) (a : Byte) (x : Slot),
    cfgOk s.cfg = true → s.Canonical → ownWord s.cfg x →
    (region = 0 ∧ x = .tcm0 ∨ region = 1 ∧ x = .tcm1) →
    ∃ t, exec (.setRegionAuthorization region a) s = .next t ∧
      t.trace = s.trace ++ setAuthEvents x a s ∧
      (setAuthEvents x a s).length =
        (if s.tblAt 0 (.startFrame .rsv) = expStart s.cfg .rsv then 1 else 18) +
        (if s.tblAt 0 (.startFrame x) = expStart s.cfg x then 10 else 18)

/-- R142: any other region is a no-op: no read, no write, no barrier, and the reserved window is not
programmed. -/
def Obligations.InvalidRegionIsNoOp : Prop :=
  ∀ (s : State) (region : Word) (a : Byte), cfgOk s.cfg = true →
    region ≠ Config.fidTcm0 → region ≠ Config.fidTcm1 →
    exec (.setRegionAuthorization region a) s =
      .next { s with ret := s.ret.set s.hart.val .nothing }

/-- The reserved window is programmed, and its barrier issued, before the first access to the slot's
configuration word; the frame writes of step 2 come before that access too; no barrier stands between
step 2 and step 3 (40_region_controller.md R141). When the two are programmed follows R133 and R140
with bank 0 as the observed bank (decision D7; log 20); the slot's field stands in another word than
the reserved window's, as on the placement of decision D3 (log 19). -/
def Obligations.ReservedWindowThenFramesThenAuthorization : Prop :=
  ∀ (s : State) (region : Word) (a : Byte) (x : Slot),
    cfgOk s.cfg = true → s.Canonical → ownWord s.cfg x → regionSlot region = some x →
    ∃ t e f q, exec (.setRegionAuthorization region a) s = .next t ∧
      t.trace = s.trace ++ (e ++ f ++ q ++ [.barrier]) ∧
      (∀ v ∈ e, v.accessesAuth s.cfg x = false ∧ v.writesFrame x = false) ∧
      (e.any (·.programsReserved s.cfg) = true → e.getLast? = some .barrier) ∧
      (∀ v ∈ f, v ≠ .barrier ∧ v.accessesAuth s.cfg x = false ∧
        v.programsReserved s.cfg = false) ∧
      (∀ v ∈ q, v ≠ .barrier ∧ v.accessesAuth s.cfg x = true ∧
        v.programsReserved s.cfg = false ∧ v.writesFrame x = false) ∧
      q ≠ [] ∧
      (s.tblAt 0 (.startFrame .rsv) ≠ expStart s.cfg .rsv →
        e.any (·.programsReserved s.cfg) = true) ∧
      (s.tblAt 0 (.startFrame x) ≠ expStart s.cfg x → (f.filter (·.writesFrame x)).length = 8)

/-- The same call twice: the second takes the 11-event path and leaves the table as it was; its four
writes are still issued, one to the slot's configuration word of each bank with the value that stands
there, and it writes nothing else (40_region_controller.md R146 (a); decisions D7, D8, D10, D37). -/
def Obligations.RepeatedAuthorizationKeepsTable : Prop :=
  ∀ (s : State) (region : Word) (a : Byte) (x : Slot),
    cfgOk s.cfg = true → s.Canonical → ownWord s.cfg x → regionSlot region = some x →
    ∃ t u es, exec (.setRegionAuthorization region a) s = .next t ∧
      exec (.setRegionAuthorization region a) t = .next u ∧ u.tbl = t.tbl ∧
      u.trace = t.trace ++ es ∧ es.length = 11 ∧
      es.filter Event.isTableWrite =
        [ .regWr 0 (authReg s.cfg x) (t.tblAt 0 (authReg s.cfg x)),
          .regWr 1 (authReg s.cfg x) (t.tblAt 1 (authReg s.cfg x)),
          .regWr 2 (authReg s.cfg x) (t.tblAt 2 (authReg s.cfg x)),
          .regWr 3 (authReg s.cfg x) (t.tblAt 3 (authReg s.cfg x)) ]

/-- On the placement of 00_scope.md R11, TCM0 with `a` and then TCM1 with `b` leaves both fields
standing in CFG(6) of every bank and its other 16 bits as before (40_region_controller.md R146 (b);
decision D3). -/
def Obligations.BothAuthorizationsStand : Prop :=
  ∀ (s : State) (a b : Byte), cfgOk s.cfg = true → s.Canonical → placementR11 s.cfg →
    ∃ t u, exec (.setRegionAuthorization 0 a) s = .next t ∧
      exec (.setRegionAuthorization 1 b) t = .next u ∧
      ∀ c : Bank, (u.tblAt c (.cfgWord .w6)).extractLsb' 16 8 = a ∧
        (u.tblAt c (.cfgWord .w6)).extractLsb' 24 8 = b ∧
        (u.tblAt c (.cfgWord .w6)).extractLsb' 0 16 = (s.tblAt c (.cfgWord .w6)).extractLsb' 0 16

/-- What an operation leaves in a frame register and in the reserved window's field: a start or end
frame is the expected constant or the one before; slot 28's field is NO_ACCESS or the one before.
Slots 26 and 27 take the caller's byte, and nothing is said of their fields here (10_state.md R28,
R29, decision D4; 40_region_controller.md R146 (d)). -/
def Obligations.FramesAndReservedFieldTakeOnlyConstants : Prop :=
  ∀ (i : Instr) (s t : State), s.Canonical → exec i s = .next t →
    ∀ (c : Bank) (x : Slot),
      (t.tblAt c (.startFrame x) = s.tblAt c (.startFrame x) ∨
        t.tblAt c (.startFrame x) = expStart s.cfg x) ∧
      (t.tblAt c (.endFrame x) = s.tblAt c (.endFrame x) ∨
        t.tblAt c (.endFrame x) = expEnd s.cfg x) ∧
      (authField s.cfg .rsv (t.tblAt c (authReg s.cfg .rsv)) =
          authField s.cfg .rsv (s.tblAt c (authReg s.cfg .rsv)) ∨
        authField s.cfg .rsv (t.tblAt c (authReg s.cfg .rsv)) = s.cfg.noAccess)

/-- The frame of the controller's operations, vendor calls among them: each completes, changes no
control register, no other hart's queue, no call register but `err` and `val` of a vendor call, and no
byte of the table outside the registers it stores to. -/
def Obligations.RegionOperationsFrame : Prop :=
  ∀ (i : Instr) (s : State), isRegionOp i = true → cfgOk s.cfg = true → s.Canonical →
    ∃ t, exec i s = .next t ∧ t.cfg = s.cfg ∧ t.pmu = s.pmu ∧ t.busy = s.busy ∧
      t.handler = s.handler ∧ t.coldHart = s.coldHart ∧ t.hooks = s.hooks ∧ t.hart = s.hart ∧
      t.inputs = s.inputs ∧
      (∀ k, k ≠ s.hart → t.pendOf k = s.pendOf k ∧ t.callOf k = s.callOf k ∧ t.retOf k = s.retOf k) ∧
      (isVendorCall i = false → t.call = s.call) ∧
      (t.callOf s.hart).eid = (s.callOf s.hart).eid ∧ (t.callOf s.hart).fid = (s.callOf s.hart).fid ∧
      (t.callOf s.hart).a0 = (s.callOf s.hart).a0 ∧ (t.callOf s.hart).a1 = (s.callOf s.hart).a1 ∧
      (t.callOf s.hart).a2 = (s.callOf s.hart).a2 ∧
      (∀ k, (∀ c, ∀ r ∈ storedRegs s i, inWord (regAddr s.cfg c r) k = false) →
        Memory.read t.tbl k = Memory.read s.tbl k)

/-! ### The counter mapper -/

/-- `bind` with an index from 3 to 31 completes with that one event register of the calling hart at the
event id, unchanged and unchecked; the other 28, IDELEG, WEN and every other hart's registers keep
their values; one event (41_counter_mapper.md R161; widths by decision D35). -/
def Obligations.BindWritesOneRegister : Prop :=
  ∀ (s : State) (i e : Word) (c : Counter), cfgOk s.cfg = true → i.toNat = c.val + 3 →
    ∃ t, exec (.bind i e) s = .next t ∧
      (t.pmuOf s.hart).evtAt c = e ∧
      (∀ d, d ≠ c → (t.pmuOf s.hart).evtAt d = (s.pmuOf s.hart).evtAt d) ∧
      (t.pmuOf s.hart).ideleg = (s.pmuOf s.hart).ideleg ∧
      (t.pmuOf s.hart).wen = (s.pmuOf s.hart).wen ∧
      (∀ h, h ≠ s.hart → t.pmuOf h = s.pmuOf h) ∧
      t.trace = s.trace ++ [.csrWr s.hart (.evt c) e]

/-- An index outside 3 to 31 names no register, and `bind` with it does nothing, by decision D17
(log 24); an index inside names one (10_state.md R45, 41_counter_mapper.md R161 (c)). -/
def Obligations.BindOutsideRangeDoesNothing : Prop :=
  ∀ (i : Word),
    (3 ≤ i.toNat ∧ i.toNat ≤ 31 → ∃ c, counterOf i = some c ∧ counterIndex c = i.toNat) ∧
    (¬ (3 ≤ i.toNat ∧ i.toNat ≤ 31) → counterOf i = none ∧
      ∀ (s : State) (e : Word), cfgOk s.cfg = true →
        exec (.bind i e) s = .next { s with ret := s.ret.set s.hart.val .nothing })

/-- `reset_baseline` completes with EVT(i) = i - 2 for i = 3 to 28, the overflow delegation bit set,
and WEN all ones, on the calling hart (41_counter_mapper.md R162, R165; decisions D14, D15). -/
def Obligations.ResetBaselineValues : Prop :=
  ∀ (s : State), cfgOk s.cfg = true →
    ∃ t, exec .resetBaseline s = .next t ∧
      (∀ c : Counter, c.val + 3 ≤ 28 → ((t.pmuOf s.hart).evtAt c).toNat = c.val + 1) ∧
      (t.pmuOf s.hart).ideleg = (s.pmuOf s.hart).ideleg ||| (1#64 <<< s.cfg.ovfDelegBit.val) ∧
      (t.pmuOf s.hart).wen = BitVec.allOnes 32 ∧
      (∀ h, h ≠ s.hart → t.pmuOf h = s.pmuOf h)

/-- What a reset does not do (41_counter_mapper.md R167): EVT(29), EVT(30) and EVT(31) stay, no bit of IDELEG is cleared, no
bit of WEN is cleared. -/
def Obligations.ResetBaselineLeavesAlone : Prop :=
  ∀ (s : State), cfgOk s.cfg = true →
    ∃ t, exec .resetBaseline s = .next t ∧
      (∀ c : Counter, 29 ≤ c.val + 3 → (t.pmuOf s.hart).evtAt c = (s.pmuOf s.hart).evtAt c) ∧
      (∀ j, (s.pmuOf s.hart).ideleg.getLsbD j = true → (t.pmuOf s.hart).ideleg.getLsbD j = true) ∧
      (∀ j, (s.pmuOf s.hart).wen.getLsbD j = true → (t.pmuOf s.hart).wen.getLsbD j = true)

/-- The 28 events of `reset_baseline` are exactly those of 41_counter_mapper.md R164, in that order
(decision D16). -/
def Obligations.ResetBaselineEventsExact : Prop :=
  ∀ (s : State), cfgOk s.cfg = true →
    ∃ t, exec .resetBaseline s = .next t ∧ t.trace = s.trace ++ resetEvents s.cfg s.hart ∧
      (resetEvents s.cfg s.hart).length = 28

/-- Two consecutive resets leave the registers of one; a reset overwrites an earlier bind of counters 3
to 28 and leaves one of counters 29 to 31 in place (41_counter_mapper.md R166). -/
def Obligations.ResetBaselineIsIdempotent : Prop :=
  ∀ (s : State) (i e : Word), cfgOk s.cfg = true →
    (∃ t, exec .resetBaseline s = .next t ∧
      exec .resetBaseline t = .next { t with trace := t.trace ++ resetEvents s.cfg s.hart }) ∧
    (∃ t u, exec (.bind i e) s = .next t ∧ exec .resetBaseline t = .next u ∧
      ∀ c : Counter, i.toNat = c.val + 3 →
        (u.pmuOf s.hart).evtAt c = if c.val + 3 ≤ 28 then BitVec.ofNat 64 (c.val + 1) else e)

/-- `dispatch` is `bind` for operation type 2 and `reset_baseline` for every other, the other two
arguments ignored (41_counter_mapper.md R163; all bits compared by decision D32). -/
def Obligations.DispatchSelectsByType : Prop :=
  ∀ (s : State) (t i e : Word),
    exec (.dispatch t i e) s = if t = 2 then exec (.bind i e) s else exec .resetBaseline s

/-- The frame of the mapper's operations, vendor calls among them: each completes and changes the calling
hart's control registers only; the region table, its observers' view and the queues are untouched,
every byte of them; no table event and no barrier (41_counter_mapper.md R160, decision D13). -/
def Obligations.CounterOperationsFrame : Prop :=
  ∀ (i : Instr) (s : State), isCounterOp i = true → cfgOk s.cfg = true →
    ∃ t es, exec i s = .next t ∧ t.trace = s.trace ++ es ∧ (∀ v ∈ es, v.onTable = false) ∧
      t.cfg = s.cfg ∧ t.tbl = s.tbl ∧ t.vis = s.vis ∧ t.pend = s.pend ∧ t.busy = s.busy ∧
      t.handler = s.handler ∧ t.coldHart = s.coldHart ∧ t.hooks = s.hooks ∧ t.hart = s.hart ∧
      t.inputs = s.inputs ∧
      (∀ k, k ≠ s.hart →
        t.pmuOf k = s.pmuOf k ∧ t.callOf k = s.callOf k ∧ t.retOf k = s.retOf k) ∧
      (isVendorCall i = false → t.call = s.call ∧ t.retOf s.hart = .nothing) ∧
      (t.callOf s.hart).eid = (s.callOf s.hart).eid ∧ (t.callOf s.hart).fid = (s.callOf s.hart).fid ∧
      (t.callOf s.hart).a0 = (s.callOf s.hart).a0 ∧ (t.callOf s.hart).a1 = (s.callOf s.hart).a1 ∧
      (t.callOf s.hart).a2 = (s.callOf s.hart).a2

/-! ### The vendor call dispatcher -/

/-- R181, R182: a PMU call on the PMP-aware path is `bind(a1, a2)` if `a0` = 2 and `reset_baseline()`
for every other `a0`, then success; the function id is not examined. -/
def Obligations.PmuCallsRunTheMapper : Prop :=
  ∀ (s : State) (c : Call), cfgOk s.cfg = true → s.cfg.dispatchPath = .pmpAware →
    c.eid = s.cfg.extPmu →
    ∃ i t, decode s.cfg (.vcall c) = .ok i ∧
      (if c.a0 = 2 then exec (.bind c.a1 c.a2) s else exec .resetBaseline s) = .next t ∧
      exec i s = .next (complete (.status Config.success Config.callValue) t)

/-- A PMP call with function id 0 or 1 is `set_region_authorization` of TCM0 or TCM1 with `a0[7:0]`,
then success (42_call_dispatcher.md R183, R184). That the other bits of `a0` are ignored is decision
D11 (log 23), and that the function id is the region's number decision D37 (log 33). -/
def Obligations.PmpCallsRunTheController : Prop :=
  ∀ (s : State) (c : Call), cfgOk s.cfg = true → s.cfg.dispatchPath = .pmpAware →
    c.eid = s.cfg.extPmp → (c.fid = Config.fidTcm0 ∨ c.fid = Config.fidTcm1) →
    ∃ i t, decode s.cfg (.vcall c) = .ok i ∧
      exec (.setRegionAuthorization c.fid (c.a0.extractLsb' 0 8)) s = .next t ∧
      exec i s = .next (complete (.status Config.success Config.callValue) t)

/-- R187, R188: on the legacy path every call, whatever its extension and function id, is `bind(a1, a2)`
if `a0` = 2 and `reset_baseline()` otherwise, then success. -/
def Obligations.LegacyCallsRunTheMapper : Prop :=
  ∀ (s : State) (c : Call), cfgOk s.cfg = true → s.cfg.dispatchPath = .legacy →
    ∃ i t, decode s.cfg (.vcall c) = .ok i ∧
      (if c.a0 = 2 then exec (.bind c.a1 c.a2) s else exec .resetBaseline s) = .next t ∧
      exec i s = .next (complete (.status Config.success Config.callValue) t)

/-- The no-op space changes nothing and emits no event: an extension id that is neither, a PMP function
id that is neither, an invalid region, and, by decision D17 (log 24), a counter index outside 3 to 31.
A call still writes its status (30_encoding.md R112, 42_call_dispatcher.md R185, R186). -/
def Obligations.NoOpSpaceChangesNothing : Prop :=
  ∀ (s : State), cfgOk s.cfg = true →
    (∀ c : Call, s.cfg.dispatchPath = .pmpAware →
      (c.eid ≠ s.cfg.extPmu ∧ c.eid ≠ s.cfg.extPmp ∨
        c.eid = s.cfg.extPmp ∧ c.fid ≠ Config.fidTcm0 ∧ c.fid ≠ Config.fidTcm1) →
      ∃ i, decode s.cfg (.vcall c) = .ok i ∧ exec i s = .next { s with
        call := s.call.set s.hart.val
          { s.callOf s.hart with err := Config.success, val := Config.callValue }
        ret := s.ret.set s.hart.val (.status Config.success Config.callValue) }) ∧
    (∀ region a, region ≠ Config.fidTcm0 → region ≠ Config.fidTcm1 →
      exec (.setRegionAuthorization region a) s =
        .next { s with ret := s.ret.set s.hart.val .nothing }) ∧
    (∀ i e : Word, ¬ (3 ≤ i.toNat ∧ i.toNat ≤ 31) →
      exec (.bind i e) s = .next { s with ret := s.ret.set s.hart.val .nothing })

/-- Every vendor call completes with status and value 0 in `err` and `val` of the calling hart, its five
input registers and the other harts' call registers unchanged (42_call_dispatcher.md R189; the number
0 by decision D19). -/
def Obligations.VendorCallsReturnSuccess : Prop :=
  ∀ (i : Instr) (s : State), isVendorCall i = true → cfgOk s.cfg = true →
    ∃ t, exec i s = .next t ∧
      t.callOf s.hart = { s.callOf s.hart with err := 0, val := 0 } ∧
      t.retOf s.hart = .status 0 0 ∧
      ∀ k, k ≠ s.hart → t.callOf k = s.callOf k ∧ t.retOf k = s.retOf k

/-! ### The boot context -/

/-- `is_cold_boot_allowed` completes, returns true when the selection is unset or is the hart id asked
about, and changes nothing else (43_boot_context.md R200; decision D27). -/
def Obligations.ColdBootPredicate : Prop :=
  ∀ (s : State) (hartId : Word), cfgOk s.cfg = true →
    ∃ b, exec (.isColdBootAllowed hartId) s =
        .next { s with ret := s.ret.set s.hart.val (.boolean b) } ∧
      (b = true ↔ s.cfg.coldBootHart = none ∨ s.cfg.coldBootHart = some hartId)

/-- `early_init` and `extensions_init` complete with their external call and nothing else: the first
only under the TLB-flush flag (43_boot_context.md R203, R204; decision D30). -/
def Obligations.EarlyAndExtensionsHooks : Prop :=
  ∀ (s : State), cfgOk s.cfg = true →
    exec .earlyInit s = .next { s with
      trace := s.trace ++
        (if s.cfg.errata.tlbFlush then [.ext .registerTlbFlushTrapHandler] else [])
      ret := s.ret.set s.hart.val .nothing } ∧
    exec .extensionsInit s = .next { s with
      trace := s.trace ++ [.ext .registerPmuDevice]
      ret := s.ret.set s.hart.val .nothing }

/-- `final_init` completes; on the hart performing cold boot it makes the two external calls, each under
its own condition and in the order written, and registering the handler makes the dispatcher
reachable; on another hart it does nothing (43_boot_context.md R205; decision D30; log 7). -/
def Obligations.FinalHook : Prop :=
  ∀ (s : State), cfgOk s.cfg = true →
    (s.hart ≠ s.coldHart →
      exec .finalInit s = .next { s with ret := s.ret.set s.hart.val .nothing }) ∧
    (s.hart = s.coldHart →
      exec .finalInit s = .next { s with
        trace := s.trace ++
          (if s.cfg.errata.powerControl then [.ext .installPowerControlDevice] else []) ++
          (if s.cfg.matchedCompat = s.cfg.vendorCompat then [.ext .registerVendorExtensionHandler]
            else [])
        handler := s.handler || decide (s.cfg.matchedCompat = s.cfg.vendorCompat)
        ret := s.ret.set s.hart.val .nothing })

/-- Only `final_init`, on the hart performing cold boot and on hardware whose string matches, makes the
dispatcher reachable: run whole; or event by event, where an event does it only if it is that external
call of an operation in progress, and only such a `final_init` begins with the call. A start and a
landing never do (42_call_dispatcher.md R193, 70_reset_and_hazards.md R252 item 3; log 7). -/
def Obligations.OnlyFinalInitRegistersDispatcher : Prop :=
  (∀ (i : Instr) (s t : State), exec i s = .next t → s.handler = false → t.handler = true →
    i = .finalInit ∧ s.hart = s.coldHart ∧ s.cfg.matchedCompat = s.cfg.vendorCompat) ∧
  (∀ (s t : State) (h : Hart) (rest : List Input), s.inputs = .issue h :: rest → step s = .next t →
    (s.handler = false → t.handler = true →
      ∃ q, s.busyOf h = .ext .registerVendorExtensionHandler :: q) ∧
    ∀ k, .ext .registerVendorExtensionHandler ∈ t.busyOf k →
      .ext .registerVendorExtensionHandler ∈ s.busyOf k) ∧
  (∀ (s t : State) (h : Hart) (r : Request) (rest : List Input),
    s.inputs = .start h r :: rest → step s = .next t →
    t.handler = s.handler ∧
    ∀ k, .ext .registerVendorExtensionHandler ∈ t.busyOf k →
      .ext .registerVendorExtensionHandler ∈ s.busyOf k ∨
      (k = h ∧ h = s.coldHart ∧ decode s.cfg r = .ok .finalInit ∧
        s.cfg.matchedCompat = s.cfg.vendorCompat)) ∧
  (∀ (s t : State) (h : Hart) (rest : List Input), s.inputs = .land h :: rest → step s = .next t →
    t.handler = s.handler ∧ t.busy = s.busy)

/-! ### The whole machine -/

/-- R35: the only operations that change a table register are the controller's, the only ones that
change a control register the mapper's: run whole; or event by event, where an event changes one only
if the operation in progress has such an access to make, and only an operation of its owner begins
with one. A landing changes neither. -/
def Obligations.OwnershipOfRegisters : Prop :=
  (∀ (i : Instr) (s t : State), exec i s = .next t →
    (t.tbl ≠ s.tbl → isRegionOp i = true) ∧ (t.pmu ≠ s.pmu → isCounterOp i = true)) ∧
  (∀ (cfg : Cfg) (cold : Bool) (i : Instr),
    ((micros cfg cold i).any Micro.onTable = true → isRegionOp i = true) ∧
    ((micros cfg cold i).any Micro.onCounters = true → isCounterOp i = true)) ∧
  (∀ (s t : State) (h : Hart) (rest : List Input), s.inputs = .issue h :: rest → step s = .next t →
    (t.tbl ≠ s.tbl → (s.busyOf h).any Micro.onTable = true) ∧
    (t.pmu ≠ s.pmu → (s.busyOf h).any Micro.onCounters = true) ∧
    ((t.busyOf h).any Micro.onTable = true → (s.busyOf h).any Micro.onTable = true) ∧
    ((t.busyOf h).any Micro.onCounters = true → (s.busyOf h).any Micro.onCounters = true)) ∧
  (∀ (s t : State) (h : Hart) (r : Request) (rest : List Input),
    (s.inputs = .start h r :: rest ∨ s.inputs = .land h :: rest) → step s = .next t →
    t.tbl = s.tbl ∧ t.pmu = s.pmu)

/-- Banks that hold the same start frame, end frame and authorization of a slot go on doing so under
every operation run whole, and the authorization of a slot just programmed is the same in every bank
from any state (10_state.md R34, whose premise P_SERIAL the whole run stands for; decision D22). -/
def Obligations.ReplicasStayEqual : Prop :=
  ∀ (i : Instr) (s t : State), cfgOk s.cfg = true → s.Canonical → exec i s = .next t →
    (∀ x, s.ReplicasEqual x → t.ReplicasEqual x) ∧
    (∀ region a x, i = .setRegionAuthorization region a → regionSlot region = some x → ∀ c d : Bank,
      authField t.cfg x (t.tblAt c (authReg t.cfg x)) =
        authField t.cfg x (t.tblAt d (authReg t.cfg x)))

/-- R19: no step writes the configuration record, of which the errata flags and the cold-boot selection
are fields. -/
def Obligations.StepKeepsConfiguration : Prop :=
  ∀ (s t : State), step s = .next t → t.cfg = s.cfg

/-- The trace only grows and is never read: with another past in the trace every operation ends the same
and appends the same events (00_scope.md R14; decision D1). -/
def Obligations.TraceIsAppendedToAndNeverRead : Prop :=
  ∀ (i : Instr) (s t : State) (past : List Event), exec i s = .next t →
    ∃ es, t.trace = s.trace ++ es ∧
      exec i { s with trace := past } = .next { t with trace := past ++ es }

/-- The bounds of 70_reset_and_hazards.md R270: at most 36 events for a controller operation, exactly 28
for a reset, at most 1 for a bind (decisions D8, D9). -/
def Obligations.OperationsAreBounded : Prop :=
  ∀ (i : Instr) (s t : State), exec i s = .next t →
    ∃ es, t.trace = s.trace ++ es ∧ es.length ≤ 36 ∧
      (i = .resetBaseline → es.length = 28) ∧
      (∀ c e, i = .bind c e → es.length ≤ 1) ∧
      (isRegionOp i = true → (∀ v ∈ es, v.onTable = true))

/-- The invariant holds at reset, and so does that of the hooks' order. -/
def Obligations.ResetMeetsInvariant : Prop := State.reset.Inv ∧ State.reset.BootInv

/-- Reset is a launch state: no operation in progress, no write pending, the trace empty, the selection
unset (10_state.md R50, R51). The rest is the model's: the 32 table registers and every EVT, IDELEG and
WEN of every hart are zero (log 4), the call registers are zero and nothing has been returned (log 5),
the dispatcher is not registered (log 7, deduced from 42_call_dispatcher.md R193), no hook has begun
(log 28, beside 43_boot_context.md R206), and the configuration, whose values log 3 names, passes the
check. -/
def Obligations.ResetIsALaunchState : Prop :=
  State.reset.L1 ∧ State.reset.L2 ∧ State.reset.L3 ∧ State.reset.LZero ∧
  State.reset.cfg.coldBootHart = none ∧ State.reset.handler = false ∧ cfgOk State.reset.cfg = true ∧
  ∀ h : Hart,
    (∀ i : Counter, (State.reset.pmuOf h).evtAt i = 0) ∧
    (State.reset.pmuOf h).ideleg = 0 ∧ (State.reset.pmuOf h).wen = 0 ∧
    State.reset.callOf h = ⟨0, 0, 0, 0, 0, 0, 0⟩ ∧ State.reset.retOf h = .nothing ∧
    State.reset.hooksOf h = []

/-- Every step of every schedule keeps the invariant: both views of the table in canonical form and
inside the 32 registers, and no operation returns with a table write unpublished
(10_state.md R27, 20_memory.md R72, R76; decisions D21, D22). -/
def Obligations.StepKeepsInvariant : Prop :=
  ∀ (s t : State), s.Inv → step s = .next t → t.Inv

/-- Under P_SERIAL every step leaves the machine quiescent: whatever operation has run, every external
observer sees what it programmed (20_memory.md R73 (c), 70_reset_and_hazards.md R263; decision D21). -/
def Obligations.SerialStepKeepsObserversCurrent : Prop :=
  ∀ (s t : State) (inp : Input) (rest : List Input),
    s.inputs = inp :: rest → inp.serial = true → s.Quiescent → step s = .next t → t.Quiescent

/-! ### Interleaving -/

/-- An operation issued event by event on an idle hart, with landings of its queue anywhere in between,
ends in the state the whole operation ends in: the meaning is the uninterrupted run, and the lag of
the observers changes nothing once it has returned (70_reset_and_hazards.md R262, 20_memory.md R74;
decisions D21, D22). 37 is the 36 events of the longest operation and its return. -/
def Obligations.UninterruptedIssueIsTheOperation : Prop :=
  ∀ (s t : State) (h : Hart) (r : Request) (sched rest : List Input),
    s.busyOf h = [] → s.pendOf h = [] → reaches r s = true →
    (∀ inp ∈ sched, inp = .issue h ∨ inp = .land h) → 37 ≤ sched.count (.issue h) →
    step { s with inputs := .request h r :: rest } = .next t →
    Host.Core.run core (sched.length + 1) { s with inputs := .start h r :: (sched ++ rest) } =
      .next t

/-- At no point of `set_region_authorization`, whatever part of it has been issued and whatever part of
that has landed, does an observer see a changed authorization of the slot in a bank while seeing other
frames of the slot there than the harts' memory holds (20_memory.md R73 (c),
70_reset_and_hazards.md R261; decisions D3, D21). The slot's field stands in another word than the
reserved window's (log 19). -/
def Obligations.ObserversSeeFramesBeforeAuthorization : Prop :=
  ∀ (s t : State) (h : Hart) (region : Word) (a : Byte) (x : Slot) (sched : List Input),
    cfgOk s.cfg = true → s.Canonical → s.Quiescent → ownWord s.cfg x →
    regionSlot region = some x → (∀ inp ∈ sched, inp = .issue h ∨ inp = .land h) →
    Host.Core.run core (sched.length + 1)
      { s with inputs := .start h (.proc 1 [.word region, .byte a]) :: sched } = .next t →
    ∀ c : Bank,
      authField s.cfg x (t.visAt c (authReg s.cfg x)) ≠
        authField s.cfg x (s.visAt c (authReg s.cfg x)) →
      t.visAt c (.startFrame x) = t.tblAt c (.startFrame x) ∧
      t.visAt c (.endFrame x) = t.tblAt c (.endFrame x)

/-- Without P_SERIAL an update is lost: two harts about to merge TCM0's and TCM1's field into the same
word of a bank, reads first and writes after, leave the second hart's field new and the first hart's
as it was (70_reset_and_hazards.md R262, 20_memory.md R78, 95_test_vectors.md program 5; decisions
D10, D22). -/
def Obligations.OverlappingUpdatesLoseAField : Prop :=
  ∀ (s : State) (h k : Hart) (c : Bank) (a b : Byte) (p q : List Micro) (rest : List Input),
    cfgOk s.cfg = true → s.Canonical → h ≠ k →
    s.cfg.tcm0.word = s.cfg.tcm1.word →
    s.busyOf h = .rmw c .tcm0 a :: p → s.busyOf k = .rmw c .tcm1 b :: q →
    s.inputs = .issue h :: .issue k :: .issue h :: .issue k :: rest →
    ∃ t, Host.Core.run core 4 s = .next t ∧
      authField s.cfg .tcm1 (t.tblAt c (authReg s.cfg .tcm1)) = b ∧
      authField s.cfg .tcm0 (t.tblAt c (authReg s.cfg .tcm0)) =
        authField s.cfg .tcm0 (s.tblAt c (authReg s.cfg .tcm0)) ∧
      t.trace = s.trace ++
        [ .regRd c (authReg s.cfg .tcm0) (s.tblAt c (authReg s.cfg .tcm0)),
          .regRd c (authReg s.cfg .tcm1) (s.tblAt c (authReg s.cfg .tcm1)),
          .regWr c (authReg s.cfg .tcm0)
            (mergeAuth s.cfg .tcm0 a (s.tblAt c (authReg s.cfg .tcm0))),
          .regWr c (authReg s.cfg .tcm1)
            (mergeAuth s.cfg .tcm1 b (s.tblAt c (authReg s.cfg .tcm1))) ]

/-- Queued writes reach the observers first in, first out: after `n` landings of a hart's queue the
observers see exactly its first `n` writes applied, and the harts' own view is untouched; a barrier
applies all of the queue in order and empties it, with the same outcome before the landings as after
them (20_memory.md R71, R72; decision D21). -/
def Obligations.WritesLandInOrder : Prop :=
  ∀ (s : State) (h : Hart) (n : Nat) (rest : List Input), n ≤ (s.pendOf h).length →
    s.inputs = List.replicate n (.land h) ++ rest →
    ∃ t, Host.Core.run core n s = .next t ∧ t.inputs = rest ∧ t.tbl = s.tbl ∧
      t.pendOf h = (s.pendOf h).drop n ∧
      t.vis = ((s.pendOf h).take n).foldl
        (fun m p => Memory.writeWord m (regAddr s.cfg p.bank p.reg) p.value) s.vis ∧
      (barrier { s with hart := h }).vis = (s.pendOf h).foldl
        (fun m p => Memory.writeWord m (regAddr s.cfg p.bank p.reg) p.value) s.vis ∧
      (barrier { s with hart := h }).pendOf h = [] ∧
      (barrier { t with hart := h }).vis = (barrier { s with hart := h }).vis ∧
      (barrier { t with hart := h }).pendOf h = []

/-! ### The order of the hooks -/

/-- The order of the hooks that 43_boot_context.md R206 assumes of the firmware: as long as every hook
begins after the earlier ones and at most once on its hart (premise P_BOOT; that hooks of different
harts are not ordered is the model's choice, log 28), a step keeps the hooks of every hart in order,
and no collaborator is called more often than the hooks begun account for, the body of `final_init`
running once in all. -/
def Obligations.StepKeepsHooksInOrder : Prop :=
  ∀ (s t : State), s.BootInv → (∀ inp rest, s.inputs = inp :: rest → inp.inBootOrder s = true) →
    step s = .next t → t.BootInv
end

