-- ==== Sys2Proof/Laws/State.lean ====
section
/-! SUPPORT. What each update and each primitive leaves in each field of State, and the accessors
after the per-hart updates. Every lemma is true by unfolding one definition. -/

namespace Sys2Proof.Machine

/-! ### One lemma per field and update -/

@[simp] theorem emit_cfg (e : Event) (s : State) : (emit e s).cfg = s.cfg := rfl
@[simp] theorem emit_tbl (e : Event) (s : State) : (emit e s).tbl = s.tbl := rfl
@[simp] theorem emit_vis (e : Event) (s : State) : (emit e s).vis = s.vis := rfl
@[simp] theorem emit_pend (e : Event) (s : State) : (emit e s).pend = s.pend := rfl
@[simp] theorem emit_pmu (e : Event) (s : State) : (emit e s).pmu = s.pmu := rfl
@[simp] theorem emit_call (e : Event) (s : State) : (emit e s).call = s.call := rfl
@[simp] theorem emit_ret (e : Event) (s : State) : (emit e s).ret = s.ret := rfl
@[simp] theorem emit_busy (e : Event) (s : State) : (emit e s).busy = s.busy := rfl
@[simp] theorem emit_trace (e : Event) (s : State) : (emit e s).trace = s.trace ++ [e] := rfl
@[simp] theorem emit_handler (e : Event) (s : State) : (emit e s).handler = s.handler := rfl
@[simp] theorem emit_coldHart (e : Event) (s : State) : (emit e s).coldHart = s.coldHart := rfl
@[simp] theorem emit_hooks (e : Event) (s : State) : (emit e s).hooks = s.hooks := rfl
@[simp] theorem emit_hart (e : Event) (s : State) : (emit e s).hart = s.hart := rfl
@[simp] theorem emit_inputs (e : Event) (s : State) : (emit e s).inputs = s.inputs := rfl

@[simp] theorem setPend_cfg (h : Hart) (q : List Pending) (s : State) : (setPend h q s).cfg = s.cfg := rfl
@[simp] theorem setPend_tbl (h : Hart) (q : List Pending) (s : State) : (setPend h q s).tbl = s.tbl := rfl
@[simp] theorem setPend_vis (h : Hart) (q : List Pending) (s : State) : (setPend h q s).vis = s.vis := rfl
@[simp] theorem setPend_pend (h : Hart) (q : List Pending) (s : State) : (setPend h q s).pend = s.pend.set h.val q := rfl
@[simp] theorem setPend_pmu (h : Hart) (q : List Pending) (s : State) : (setPend h q s).pmu = s.pmu := rfl
@[simp] theorem setPend_call (h : Hart) (q : List Pending) (s : State) : (setPend h q s).call = s.call := rfl
@[simp] theorem setPend_ret (h : Hart) (q : List Pending) (s : State) : (setPend h q s).ret = s.ret := rfl
@[simp] theorem setPend_busy (h : Hart) (q : List Pending) (s : State) : (setPend h q s).busy = s.busy := rfl
@[simp] theorem setPend_trace (h : Hart) (q : List Pending) (s : State) : (setPend h q s).trace = s.trace := rfl
@[simp] theorem setPend_handler (h : Hart) (q : List Pending) (s : State) : (setPend h q s).handler = s.handler := rfl
@[simp] theorem setPend_coldHart (h : Hart) (q : List Pending) (s : State) : (setPend h q s).coldHart = s.coldHart := rfl
@[simp] theorem setPend_hooks (h : Hart) (q : List Pending) (s : State) : (setPend h q s).hooks = s.hooks := rfl
@[simp] theorem setPend_hart (h : Hart) (q : List Pending) (s : State) : (setPend h q s).hart = s.hart := rfl
@[simp] theorem setPend_inputs (h : Hart) (q : List Pending) (s : State) : (setPend h q s).inputs = s.inputs := rfl

@[simp] theorem setPmu_cfg (h : Hart) (p : CounterRegs) (s : State) : (setPmu h p s).cfg = s.cfg := rfl
@[simp] theorem setPmu_tbl (h : Hart) (p : CounterRegs) (s : State) : (setPmu h p s).tbl = s.tbl := rfl
@[simp] theorem setPmu_vis (h : Hart) (p : CounterRegs) (s : State) : (setPmu h p s).vis = s.vis := rfl
@[simp] theorem setPmu_pend (h : Hart) (p : CounterRegs) (s : State) : (setPmu h p s).pend = s.pend := rfl
@[simp] theorem setPmu_pmu (h : Hart) (p : CounterRegs) (s : State) : (setPmu h p s).pmu = s.pmu.set h.val p := rfl
@[simp] theorem setPmu_call (h : Hart) (p : CounterRegs) (s : State) : (setPmu h p s).call = s.call := rfl
@[simp] theorem setPmu_ret (h : Hart) (p : CounterRegs) (s : State) : (setPmu h p s).ret = s.ret := rfl
@[simp] theorem setPmu_busy (h : Hart) (p : CounterRegs) (s : State) : (setPmu h p s).busy = s.busy := rfl
@[simp] theorem setPmu_trace (h : Hart) (p : CounterRegs) (s : State) : (setPmu h p s).trace = s.trace := rfl
@[simp] theorem setPmu_handler (h : Hart) (p : CounterRegs) (s : State) : (setPmu h p s).handler = s.handler := rfl
@[simp] theorem setPmu_coldHart (h : Hart) (p : CounterRegs) (s : State) : (setPmu h p s).coldHart = s.coldHart := rfl
@[simp] theorem setPmu_hooks (h : Hart) (p : CounterRegs) (s : State) : (setPmu h p s).hooks = s.hooks := rfl
@[simp] theorem setPmu_hart (h : Hart) (p : CounterRegs) (s : State) : (setPmu h p s).hart = s.hart := rfl
@[simp] theorem setPmu_inputs (h : Hart) (p : CounterRegs) (s : State) : (setPmu h p s).inputs = s.inputs := rfl

@[simp] theorem setCall_cfg (h : Hart) (c : CallRegs) (s : State) : (setCall h c s).cfg = s.cfg := rfl
@[simp] theorem setCall_tbl (h : Hart) (c : CallRegs) (s : State) : (setCall h c s).tbl = s.tbl := rfl
@[simp] theorem setCall_vis (h : Hart) (c : CallRegs) (s : State) : (setCall h c s).vis = s.vis := rfl
@[simp] theorem setCall_pend (h : Hart) (c : CallRegs) (s : State) : (setCall h c s).pend = s.pend := rfl
@[simp] theorem setCall_pmu (h : Hart) (c : CallRegs) (s : State) : (setCall h c s).pmu = s.pmu := rfl
@[simp] theorem setCall_call (h : Hart) (c : CallRegs) (s : State) : (setCall h c s).call = s.call.set h.val c := rfl
@[simp] theorem setCall_ret (h : Hart) (c : CallRegs) (s : State) : (setCall h c s).ret = s.ret := rfl
@[simp] theorem setCall_busy (h : Hart) (c : CallRegs) (s : State) : (setCall h c s).busy = s.busy := rfl
@[simp] theorem setCall_trace (h : Hart) (c : CallRegs) (s : State) : (setCall h c s).trace = s.trace := rfl
@[simp] theorem setCall_handler (h : Hart) (c : CallRegs) (s : State) : (setCall h c s).handler = s.handler := rfl
@[simp] theorem setCall_coldHart (h : Hart) (c : CallRegs) (s : State) : (setCall h c s).coldHart = s.coldHart := rfl
@[simp] theorem setCall_hooks (h : Hart) (c : CallRegs) (s : State) : (setCall h c s).hooks = s.hooks := rfl
@[simp] theorem setCall_hart (h : Hart) (c : CallRegs) (s : State) : (setCall h c s).hart = s.hart := rfl
@[simp] theorem setCall_inputs (h : Hart) (c : CallRegs) (s : State) : (setCall h c s).inputs = s.inputs := rfl

@[simp] theorem setRet_cfg (h : Hart) (r : Return) (s : State) : (setRet h r s).cfg = s.cfg := rfl
@[simp] theorem setRet_tbl (h : Hart) (r : Return) (s : State) : (setRet h r s).tbl = s.tbl := rfl
@[simp] theorem setRet_vis (h : Hart) (r : Return) (s : State) : (setRet h r s).vis = s.vis := rfl
@[simp] theorem setRet_pend (h : Hart) (r : Return) (s : State) : (setRet h r s).pend = s.pend := rfl
@[simp] theorem setRet_pmu (h : Hart) (r : Return) (s : State) : (setRet h r s).pmu = s.pmu := rfl
@[simp] theorem setRet_call (h : Hart) (r : Return) (s : State) : (setRet h r s).call = s.call := rfl
@[simp] theorem setRet_ret (h : Hart) (r : Return) (s : State) : (setRet h r s).ret = s.ret.set h.val r := rfl
@[simp] theorem setRet_busy (h : Hart) (r : Return) (s : State) : (setRet h r s).busy = s.busy := rfl
@[simp] theorem setRet_trace (h : Hart) (r : Return) (s : State) : (setRet h r s).trace = s.trace := rfl
@[simp] theorem setRet_handler (h : Hart) (r : Return) (s : State) : (setRet h r s).handler = s.handler := rfl
@[simp] theorem setRet_coldHart (h : Hart) (r : Return) (s : State) : (setRet h r s).coldHart = s.coldHart := rfl
@[simp] theorem setRet_hooks (h : Hart) (r : Return) (s : State) : (setRet h r s).hooks = s.hooks := rfl
@[simp] theorem setRet_hart (h : Hart) (r : Return) (s : State) : (setRet h r s).hart = s.hart := rfl
@[simp] theorem setRet_inputs (h : Hart) (r : Return) (s : State) : (setRet h r s).inputs = s.inputs := rfl

@[simp] theorem setBusy_cfg (h : Hart) (q : List Micro) (s : State) : (setBusy h q s).cfg = s.cfg := rfl
@[simp] theorem setBusy_tbl (h : Hart) (q : List Micro) (s : State) : (setBusy h q s).tbl = s.tbl := rfl
@[simp] theorem setBusy_vis (h : Hart) (q : List Micro) (s : State) : (setBusy h q s).vis = s.vis := rfl
@[simp] theorem setBusy_pend (h : Hart) (q : List Micro) (s : State) : (setBusy h q s).pend = s.pend := rfl
@[simp] theorem setBusy_pmu (h : Hart) (q : List Micro) (s : State) : (setBusy h q s).pmu = s.pmu := rfl
@[simp] theorem setBusy_call (h : Hart) (q : List Micro) (s : State) : (setBusy h q s).call = s.call := rfl
@[simp] theorem setBusy_ret (h : Hart) (q : List Micro) (s : State) : (setBusy h q s).ret = s.ret := rfl
@[simp] theorem setBusy_busy (h : Hart) (q : List Micro) (s : State) : (setBusy h q s).busy = s.busy.set h.val q := rfl
@[simp] theorem setBusy_trace (h : Hart) (q : List Micro) (s : State) : (setBusy h q s).trace = s.trace := rfl
@[simp] theorem setBusy_handler (h : Hart) (q : List Micro) (s : State) : (setBusy h q s).handler = s.handler := rfl
@[simp] theorem setBusy_coldHart (h : Hart) (q : List Micro) (s : State) : (setBusy h q s).coldHart = s.coldHart := rfl
@[simp] theorem setBusy_hooks (h : Hart) (q : List Micro) (s : State) : (setBusy h q s).hooks = s.hooks := rfl
@[simp] theorem setBusy_hart (h : Hart) (q : List Micro) (s : State) : (setBusy h q s).hart = s.hart := rfl
@[simp] theorem setBusy_inputs (h : Hart) (q : List Micro) (s : State) : (setBusy h q s).inputs = s.inputs := rfl

@[simp] theorem setHooks_cfg (h : Hart) (q : List Hook) (s : State) : (setHooks h q s).cfg = s.cfg := rfl
@[simp] theorem setHooks_tbl (h : Hart) (q : List Hook) (s : State) : (setHooks h q s).tbl = s.tbl := rfl
@[simp] theorem setHooks_vis (h : Hart) (q : List Hook) (s : State) : (setHooks h q s).vis = s.vis := rfl
@[simp] theorem setHooks_pend (h : Hart) (q : List Hook) (s : State) : (setHooks h q s).pend = s.pend := rfl
@[simp] theorem setHooks_pmu (h : Hart) (q : List Hook) (s : State) : (setHooks h q s).pmu = s.pmu := rfl
@[simp] theorem setHooks_call (h : Hart) (q : List Hook) (s : State) : (setHooks h q s).call = s.call := rfl
@[simp] theorem setHooks_ret (h : Hart) (q : List Hook) (s : State) : (setHooks h q s).ret = s.ret := rfl
@[simp] theorem setHooks_busy (h : Hart) (q : List Hook) (s : State) : (setHooks h q s).busy = s.busy := rfl
@[simp] theorem setHooks_trace (h : Hart) (q : List Hook) (s : State) : (setHooks h q s).trace = s.trace := rfl
@[simp] theorem setHooks_handler (h : Hart) (q : List Hook) (s : State) : (setHooks h q s).handler = s.handler := rfl
@[simp] theorem setHooks_coldHart (h : Hart) (q : List Hook) (s : State) : (setHooks h q s).coldHart = s.coldHart := rfl
@[simp] theorem setHooks_hooks (h : Hart) (q : List Hook) (s : State) : (setHooks h q s).hooks = s.hooks.set h.val q := rfl
@[simp] theorem setHooks_hart (h : Hart) (q : List Hook) (s : State) : (setHooks h q s).hart = s.hart := rfl
@[simp] theorem setHooks_inputs (h : Hart) (q : List Hook) (s : State) : (setHooks h q s).inputs = s.inputs := rfl

@[simp] theorem tblRead_cfg (c : Bank) (r : TblReg) (s : State) : (tblRead c r s).cfg = s.cfg := rfl
@[simp] theorem tblRead_tbl (c : Bank) (r : TblReg) (s : State) : (tblRead c r s).tbl = s.tbl := rfl
@[simp] theorem tblRead_vis (c : Bank) (r : TblReg) (s : State) : (tblRead c r s).vis = s.vis := rfl
@[simp] theorem tblRead_pend (c : Bank) (r : TblReg) (s : State) : (tblRead c r s).pend = s.pend := rfl
@[simp] theorem tblRead_pmu (c : Bank) (r : TblReg) (s : State) : (tblRead c r s).pmu = s.pmu := rfl
@[simp] theorem tblRead_call (c : Bank) (r : TblReg) (s : State) : (tblRead c r s).call = s.call := rfl
@[simp] theorem tblRead_ret (c : Bank) (r : TblReg) (s : State) : (tblRead c r s).ret = s.ret := rfl
@[simp] theorem tblRead_busy (c : Bank) (r : TblReg) (s : State) : (tblRead c r s).busy = s.busy := rfl
@[simp] theorem tblRead_trace (c : Bank) (r : TblReg) (s : State) : (tblRead c r s).trace = s.trace ++ [.regRd c r (s.tblAt c r)] := rfl
@[simp] theorem tblRead_handler (c : Bank) (r : TblReg) (s : State) : (tblRead c r s).handler = s.handler := rfl
@[simp] theorem tblRead_coldHart (c : Bank) (r : TblReg) (s : State) : (tblRead c r s).coldHart = s.coldHart := rfl
@[simp] theorem tblRead_hooks (c : Bank) (r : TblReg) (s : State) : (tblRead c r s).hooks = s.hooks := rfl
@[simp] theorem tblRead_hart (c : Bank) (r : TblReg) (s : State) : (tblRead c r s).hart = s.hart := rfl
@[simp] theorem tblRead_inputs (c : Bank) (r : TblReg) (s : State) : (tblRead c r s).inputs = s.inputs := rfl

@[simp] theorem tblWrite_cfg (c : Bank) (r : TblReg) (v : Word32) (s : State) : (tblWrite c r v s).cfg = s.cfg := rfl
@[simp] theorem tblWrite_tbl (c : Bank) (r : TblReg) (v : Word32) (s : State) : (tblWrite c r v s).tbl = Memory.writeWord s.tbl (regAddr s.cfg c r) v := rfl
@[simp] theorem tblWrite_vis (c : Bank) (r : TblReg) (v : Word32) (s : State) : (tblWrite c r v s).vis = s.vis := rfl
@[simp] theorem tblWrite_pend (c : Bank) (r : TblReg) (v : Word32) (s : State) : (tblWrite c r v s).pend = s.pend.set s.hart.val (s.pendOf s.hart ++ [⟨c, r, v⟩]) := rfl
@[simp] theorem tblWrite_pmu (c : Bank) (r : TblReg) (v : Word32) (s : State) : (tblWrite c r v s).pmu = s.pmu := rfl
@[simp] theorem tblWrite_call (c : Bank) (r : TblReg) (v : Word32) (s : State) : (tblWrite c r v s).call = s.call := rfl
@[simp] theorem tblWrite_ret (c : Bank) (r : TblReg) (v : Word32) (s : State) : (tblWrite c r v s).ret = s.ret := rfl
@[simp] theorem tblWrite_busy (c : Bank) (r : TblReg) (v : Word32) (s : State) : (tblWrite c r v s).busy = s.busy := rfl
@[simp] theorem tblWrite_trace (c : Bank) (r : TblReg) (v : Word32) (s : State) : (tblWrite c r v s).trace = s.trace ++ [.regWr c r v] := rfl
@[simp] theorem tblWrite_handler (c : Bank) (r : TblReg) (v : Word32) (s : State) : (tblWrite c r v s).handler = s.handler := rfl
@[simp] theorem tblWrite_coldHart (c : Bank) (r : TblReg) (v : Word32) (s : State) : (tblWrite c r v s).coldHart = s.coldHart := rfl
@[simp] theorem tblWrite_hooks (c : Bank) (r : TblReg) (v : Word32) (s : State) : (tblWrite c r v s).hooks = s.hooks := rfl
@[simp] theorem tblWrite_hart (c : Bank) (r : TblReg) (v : Word32) (s : State) : (tblWrite c r v s).hart = s.hart := rfl
@[simp] theorem tblWrite_inputs (c : Bank) (r : TblReg) (v : Word32) (s : State) : (tblWrite c r v s).inputs = s.inputs := rfl

@[simp] theorem barrier_cfg (s : State) : (barrier s).cfg = s.cfg := rfl
@[simp] theorem barrier_tbl (s : State) : (barrier s).tbl = s.tbl := rfl
@[simp] theorem barrier_vis (s : State) : (barrier s).vis = (s.pendOf s.hart).foldl (applyPending s.cfg) s.vis := rfl
@[simp] theorem barrier_pend (s : State) : (barrier s).pend = s.pend.set s.hart.val [] := rfl
@[simp] theorem barrier_pmu (s : State) : (barrier s).pmu = s.pmu := rfl
@[simp] theorem barrier_call (s : State) : (barrier s).call = s.call := rfl
@[simp] theorem barrier_ret (s : State) : (barrier s).ret = s.ret := rfl
@[simp] theorem barrier_busy (s : State) : (barrier s).busy = s.busy := rfl
@[simp] theorem barrier_trace (s : State) : (barrier s).trace = s.trace ++ [.barrier] := rfl
@[simp] theorem barrier_handler (s : State) : (barrier s).handler = s.handler := rfl
@[simp] theorem barrier_coldHart (s : State) : (barrier s).coldHart = s.coldHart := rfl
@[simp] theorem barrier_hooks (s : State) : (barrier s).hooks = s.hooks := rfl
@[simp] theorem barrier_hart (s : State) : (barrier s).hart = s.hart := rfl
@[simp] theorem barrier_inputs (s : State) : (barrier s).inputs = s.inputs := rfl

@[simp] theorem csrWrite_cfg (k : Csr) (v : Word) (s : State) : (csrWrite k v s).cfg = s.cfg := rfl
@[simp] theorem csrWrite_tbl (k : Csr) (v : Word) (s : State) : (csrWrite k v s).tbl = s.tbl := rfl
@[simp] theorem csrWrite_vis (k : Csr) (v : Word) (s : State) : (csrWrite k v s).vis = s.vis := rfl
@[simp] theorem csrWrite_pend (k : Csr) (v : Word) (s : State) : (csrWrite k v s).pend = s.pend := rfl
@[simp] theorem csrWrite_pmu (k : Csr) (v : Word) (s : State) : (csrWrite k v s).pmu = s.pmu.set s.hart.val ((s.pmuOf s.hart).put k v) := rfl
@[simp] theorem csrWrite_call (k : Csr) (v : Word) (s : State) : (csrWrite k v s).call = s.call := rfl
@[simp] theorem csrWrite_ret (k : Csr) (v : Word) (s : State) : (csrWrite k v s).ret = s.ret := rfl
@[simp] theorem csrWrite_busy (k : Csr) (v : Word) (s : State) : (csrWrite k v s).busy = s.busy := rfl
@[simp] theorem csrWrite_trace (k : Csr) (v : Word) (s : State) : (csrWrite k v s).trace = s.trace ++ [.csrWr s.hart k v] := rfl
@[simp] theorem csrWrite_handler (k : Csr) (v : Word) (s : State) : (csrWrite k v s).handler = s.handler := rfl
@[simp] theorem csrWrite_coldHart (k : Csr) (v : Word) (s : State) : (csrWrite k v s).coldHart = s.coldHart := rfl
@[simp] theorem csrWrite_hooks (k : Csr) (v : Word) (s : State) : (csrWrite k v s).hooks = s.hooks := rfl
@[simp] theorem csrWrite_hart (k : Csr) (v : Word) (s : State) : (csrWrite k v s).hart = s.hart := rfl
@[simp] theorem csrWrite_inputs (k : Csr) (v : Word) (s : State) : (csrWrite k v s).inputs = s.inputs := rfl

@[simp] theorem csrSetBits_cfg (k : Csr) (m : Word) (s : State) : (csrSetBits k m s).cfg = s.cfg := rfl
@[simp] theorem csrSetBits_tbl (k : Csr) (m : Word) (s : State) : (csrSetBits k m s).tbl = s.tbl := rfl
@[simp] theorem csrSetBits_vis (k : Csr) (m : Word) (s : State) : (csrSetBits k m s).vis = s.vis := rfl
@[simp] theorem csrSetBits_pend (k : Csr) (m : Word) (s : State) : (csrSetBits k m s).pend = s.pend := rfl
@[simp] theorem csrSetBits_pmu (k : Csr) (m : Word) (s : State) : (csrSetBits k m s).pmu = s.pmu.set s.hart.val ((s.pmuOf s.hart).put k ((s.pmuOf s.hart).get k ||| m)) := rfl
@[simp] theorem csrSetBits_call (k : Csr) (m : Word) (s : State) : (csrSetBits k m s).call = s.call := rfl
@[simp] theorem csrSetBits_ret (k : Csr) (m : Word) (s : State) : (csrSetBits k m s).ret = s.ret := rfl
@[simp] theorem csrSetBits_busy (k : Csr) (m : Word) (s : State) : (csrSetBits k m s).busy = s.busy := rfl
@[simp] theorem csrSetBits_trace (k : Csr) (m : Word) (s : State) : (csrSetBits k m s).trace = s.trace ++ [.csrSet s.hart k m] := rfl
@[simp] theorem csrSetBits_handler (k : Csr) (m : Word) (s : State) : (csrSetBits k m s).handler = s.handler := rfl
@[simp] theorem csrSetBits_coldHart (k : Csr) (m : Word) (s : State) : (csrSetBits k m s).coldHart = s.coldHart := rfl
@[simp] theorem csrSetBits_hooks (k : Csr) (m : Word) (s : State) : (csrSetBits k m s).hooks = s.hooks := rfl
@[simp] theorem csrSetBits_hart (k : Csr) (m : Word) (s : State) : (csrSetBits k m s).hart = s.hart := rfl
@[simp] theorem csrSetBits_inputs (k : Csr) (m : Word) (s : State) : (csrSetBits k m s).inputs = s.inputs := rfl

@[simp] theorem extCall_cfg (n : Collaborator) (s : State) : (extCall n s).cfg = s.cfg := rfl
@[simp] theorem extCall_tbl (n : Collaborator) (s : State) : (extCall n s).tbl = s.tbl := rfl
@[simp] theorem extCall_vis (n : Collaborator) (s : State) : (extCall n s).vis = s.vis := rfl
@[simp] theorem extCall_pend (n : Collaborator) (s : State) : (extCall n s).pend = s.pend := rfl
@[simp] theorem extCall_pmu (n : Collaborator) (s : State) : (extCall n s).pmu = s.pmu := rfl
@[simp] theorem extCall_call (n : Collaborator) (s : State) : (extCall n s).call = s.call := rfl
@[simp] theorem extCall_ret (n : Collaborator) (s : State) : (extCall n s).ret = s.ret := rfl
@[simp] theorem extCall_busy (n : Collaborator) (s : State) : (extCall n s).busy = s.busy := rfl
@[simp] theorem extCall_trace (n : Collaborator) (s : State) : (extCall n s).trace = s.trace ++ [.ext n] := rfl
@[simp] theorem extCall_handler (n : Collaborator) (s : State) : (extCall n s).handler = (s.handler || decide (n = .registerVendorExtensionHandler)) := rfl
@[simp] theorem extCall_coldHart (n : Collaborator) (s : State) : (extCall n s).coldHart = s.coldHart := rfl
@[simp] theorem extCall_hooks (n : Collaborator) (s : State) : (extCall n s).hooks = s.hooks := rfl
@[simp] theorem extCall_hart (n : Collaborator) (s : State) : (extCall n s).hart = s.hart := rfl
@[simp] theorem extCall_inputs (n : Collaborator) (s : State) : (extCall n s).inputs = s.inputs := rfl

@[simp] theorem complete_cfg (r : Return) (s : State) : (complete r s).cfg = s.cfg := by cases r <;> rfl
@[simp] theorem complete_tbl (r : Return) (s : State) : (complete r s).tbl = s.tbl := by cases r <;> rfl
@[simp] theorem complete_vis (r : Return) (s : State) : (complete r s).vis = s.vis := by cases r <;> rfl
@[simp] theorem complete_pend (r : Return) (s : State) : (complete r s).pend = s.pend := by cases r <;> rfl
@[simp] theorem complete_pmu (r : Return) (s : State) : (complete r s).pmu = s.pmu := by cases r <;> rfl
@[simp] theorem complete_busy (r : Return) (s : State) : (complete r s).busy = s.busy := by cases r <;> rfl
@[simp] theorem complete_trace (r : Return) (s : State) : (complete r s).trace = s.trace := by cases r <;> rfl
@[simp] theorem complete_handler (r : Return) (s : State) : (complete r s).handler = s.handler := by cases r <;> rfl
@[simp] theorem complete_coldHart (r : Return) (s : State) : (complete r s).coldHart = s.coldHart := by cases r <;> rfl
@[simp] theorem complete_hooks (r : Return) (s : State) : (complete r s).hooks = s.hooks := by cases r <;> rfl
@[simp] theorem complete_hart (r : Return) (s : State) : (complete r s).hart = s.hart := by cases r <;> rfl
@[simp] theorem complete_inputs (r : Return) (s : State) : (complete r s).inputs = s.inputs := by cases r <;> rfl

@[simp] theorem complete_ret (r : Return) (s : State) :
    (complete r s).ret = s.ret.set s.hart.val r := by cases r <;> rfl

/-- The call registers an operation leaves: only a vendor call writes them, and only `err` and `val`. -/
@[simp] theorem complete_call (r : Return) (s : State) :
    (complete r s).call = match r with
      | .status e v => s.call.set s.hart.val { s.callOf s.hart with err := e, val := v }
      | _ => s.call := by cases r <;> rfl

/-! ### Accessors -/

@[simp] theorem pendOf_setPend (h k : Hart) (q : List Pending) (s : State) :
    (setPend h q s).pendOf k = if h = k then q else s.pendOf k := by
  simp [State.pendOf, Vector.getElem_set, Fin.ext_iff]

@[simp] theorem pmuOf_setPmu (h k : Hart) (q : CounterRegs) (s : State) :
    (setPmu h q s).pmuOf k = if h = k then q else s.pmuOf k := by
  simp [State.pmuOf, Vector.getElem_set, Fin.ext_iff]

@[simp] theorem callOf_setCall (h k : Hart) (q : CallRegs) (s : State) :
    (setCall h q s).callOf k = if h = k then q else s.callOf k := by
  simp [State.callOf, Vector.getElem_set, Fin.ext_iff]

@[simp] theorem retOf_setRet (h k : Hart) (q : Return) (s : State) :
    (setRet h q s).retOf k = if h = k then q else s.retOf k := by
  simp [State.retOf, Vector.getElem_set, Fin.ext_iff]

@[simp] theorem busyOf_setBusy (h k : Hart) (q : List Micro) (s : State) :
    (setBusy h q s).busyOf k = if h = k then q else s.busyOf k := by
  simp [State.busyOf, Vector.getElem_set, Fin.ext_iff]

@[simp] theorem hooksOf_setHooks (h k : Hart) (q : List Hook) (s : State) :
    (setHooks h q s).hooksOf k = if h = k then q else s.hooksOf k := by
  simp [State.hooksOf, Vector.getElem_set, Fin.ext_iff]

@[simp] theorem pendOf_emit (e : Event) (s : State) (j : Hart) : (emit e s).pendOf j = s.pendOf j := rfl
@[simp] theorem pmuOf_emit (e : Event) (s : State) (j : Hart) : (emit e s).pmuOf j = s.pmuOf j := rfl
@[simp] theorem callOf_emit (e : Event) (s : State) (j : Hart) : (emit e s).callOf j = s.callOf j := rfl
@[simp] theorem retOf_emit (e : Event) (s : State) (j : Hart) : (emit e s).retOf j = s.retOf j := rfl
@[simp] theorem busyOf_emit (e : Event) (s : State) (j : Hart) : (emit e s).busyOf j = s.busyOf j := rfl
@[simp] theorem hooksOf_emit (e : Event) (s : State) (j : Hart) : (emit e s).hooksOf j = s.hooksOf j := rfl
@[simp] theorem pmuOf_setPend (h : Hart) (q : List Pending) (s : State) (j : Hart) : (setPend h q s).pmuOf j = s.pmuOf j := rfl
@[simp] theorem callOf_setPend (h : Hart) (q : List Pending) (s : State) (j : Hart) : (setPend h q s).callOf j = s.callOf j := rfl
@[simp] theorem retOf_setPend (h : Hart) (q : List Pending) (s : State) (j : Hart) : (setPend h q s).retOf j = s.retOf j := rfl
@[simp] theorem busyOf_setPend (h : Hart) (q : List Pending) (s : State) (j : Hart) : (setPend h q s).busyOf j = s.busyOf j := rfl
@[simp] theorem hooksOf_setPend (h : Hart) (q : List Pending) (s : State) (j : Hart) : (setPend h q s).hooksOf j = s.hooksOf j := rfl
@[simp] theorem pendOf_setPmu (h : Hart) (p : CounterRegs) (s : State) (j : Hart) : (setPmu h p s).pendOf j = s.pendOf j := rfl
@[simp] theorem callOf_setPmu (h : Hart) (p : CounterRegs) (s : State) (j : Hart) : (setPmu h p s).callOf j = s.callOf j := rfl
@[simp] theorem retOf_setPmu (h : Hart) (p : CounterRegs) (s : State) (j : Hart) : (setPmu h p s).retOf j = s.retOf j := rfl
@[simp] theorem busyOf_setPmu (h : Hart) (p : CounterRegs) (s : State) (j : Hart) : (setPmu h p s).busyOf j = s.busyOf j := rfl
@[simp] theorem hooksOf_setPmu (h : Hart) (p : CounterRegs) (s : State) (j : Hart) : (setPmu h p s).hooksOf j = s.hooksOf j := rfl
@[simp] theorem pendOf_setCall (h : Hart) (c : CallRegs) (s : State) (j : Hart) : (setCall h c s).pendOf j = s.pendOf j := rfl
@[simp] theorem pmuOf_setCall (h : Hart) (c : CallRegs) (s : State) (j : Hart) : (setCall h c s).pmuOf j = s.pmuOf j := rfl
@[simp] theorem retOf_setCall (h : Hart) (c : CallRegs) (s : State) (j : Hart) : (setCall h c s).retOf j = s.retOf j := rfl
@[simp] theorem busyOf_setCall (h : Hart) (c : CallRegs) (s : State) (j : Hart) : (setCall h c s).busyOf j = s.busyOf j := rfl
@[simp] theorem hooksOf_setCall (h : Hart) (c : CallRegs) (s : State) (j : Hart) : (setCall h c s).hooksOf j = s.hooksOf j := rfl
@[simp] theorem pendOf_setRet (h : Hart) (r : Return) (s : State) (j : Hart) : (setRet h r s).pendOf j = s.pendOf j := rfl
@[simp] theorem pmuOf_setRet (h : Hart) (r : Return) (s : State) (j : Hart) : (setRet h r s).pmuOf j = s.pmuOf j := rfl
@[simp] theorem callOf_setRet (h : Hart) (r : Return) (s : State) (j : Hart) : (setRet h r s).callOf j = s.callOf j := rfl
@[simp] theorem busyOf_setRet (h : Hart) (r : Return) (s : State) (j : Hart) : (setRet h r s).busyOf j = s.busyOf j := rfl
@[simp] theorem hooksOf_setRet (h : Hart) (r : Return) (s : State) (j : Hart) : (setRet h r s).hooksOf j = s.hooksOf j := rfl
@[simp] theorem pendOf_setBusy (h : Hart) (q : List Micro) (s : State) (j : Hart) : (setBusy h q s).pendOf j = s.pendOf j := rfl
@[simp] theorem pmuOf_setBusy (h : Hart) (q : List Micro) (s : State) (j : Hart) : (setBusy h q s).pmuOf j = s.pmuOf j := rfl
@[simp] theorem callOf_setBusy (h : Hart) (q : List Micro) (s : State) (j : Hart) : (setBusy h q s).callOf j = s.callOf j := rfl
@[simp] theorem retOf_setBusy (h : Hart) (q : List Micro) (s : State) (j : Hart) : (setBusy h q s).retOf j = s.retOf j := rfl
@[simp] theorem hooksOf_setBusy (h : Hart) (q : List Micro) (s : State) (j : Hart) : (setBusy h q s).hooksOf j = s.hooksOf j := rfl
@[simp] theorem pendOf_setHooks (h : Hart) (q : List Hook) (s : State) (j : Hart) : (setHooks h q s).pendOf j = s.pendOf j := rfl
@[simp] theorem pmuOf_setHooks (h : Hart) (q : List Hook) (s : State) (j : Hart) : (setHooks h q s).pmuOf j = s.pmuOf j := rfl
@[simp] theorem callOf_setHooks (h : Hart) (q : List Hook) (s : State) (j : Hart) : (setHooks h q s).callOf j = s.callOf j := rfl
@[simp] theorem retOf_setHooks (h : Hart) (q : List Hook) (s : State) (j : Hart) : (setHooks h q s).retOf j = s.retOf j := rfl
@[simp] theorem busyOf_setHooks (h : Hart) (q : List Hook) (s : State) (j : Hart) : (setHooks h q s).busyOf j = s.busyOf j := rfl
@[simp] theorem pendOf_tblRead (c : Bank) (r : TblReg) (s : State) (j : Hart) : (tblRead c r s).pendOf j = s.pendOf j := rfl
@[simp] theorem pmuOf_tblRead (c : Bank) (r : TblReg) (s : State) (j : Hart) : (tblRead c r s).pmuOf j = s.pmuOf j := rfl
@[simp] theorem callOf_tblRead (c : Bank) (r : TblReg) (s : State) (j : Hart) : (tblRead c r s).callOf j = s.callOf j := rfl
@[simp] theorem retOf_tblRead (c : Bank) (r : TblReg) (s : State) (j : Hart) : (tblRead c r s).retOf j = s.retOf j := rfl
@[simp] theorem busyOf_tblRead (c : Bank) (r : TblReg) (s : State) (j : Hart) : (tblRead c r s).busyOf j = s.busyOf j := rfl
@[simp] theorem hooksOf_tblRead (c : Bank) (r : TblReg) (s : State) (j : Hart) : (tblRead c r s).hooksOf j = s.hooksOf j := rfl
@[simp] theorem pmuOf_tblWrite (c : Bank) (r : TblReg) (v : Word32) (s : State) (j : Hart) : (tblWrite c r v s).pmuOf j = s.pmuOf j := rfl
@[simp] theorem callOf_tblWrite (c : Bank) (r : TblReg) (v : Word32) (s : State) (j : Hart) : (tblWrite c r v s).callOf j = s.callOf j := rfl
@[simp] theorem retOf_tblWrite (c : Bank) (r : TblReg) (v : Word32) (s : State) (j : Hart) : (tblWrite c r v s).retOf j = s.retOf j := rfl
@[simp] theorem busyOf_tblWrite (c : Bank) (r : TblReg) (v : Word32) (s : State) (j : Hart) : (tblWrite c r v s).busyOf j = s.busyOf j := rfl
@[simp] theorem hooksOf_tblWrite (c : Bank) (r : TblReg) (v : Word32) (s : State) (j : Hart) : (tblWrite c r v s).hooksOf j = s.hooksOf j := rfl
@[simp] theorem pmuOf_barrier (s : State) (j : Hart) : (barrier s).pmuOf j = s.pmuOf j := rfl
@[simp] theorem callOf_barrier (s : State) (j : Hart) : (barrier s).callOf j = s.callOf j := rfl
@[simp] theorem retOf_barrier (s : State) (j : Hart) : (barrier s).retOf j = s.retOf j := rfl
@[simp] theorem busyOf_barrier (s : State) (j : Hart) : (barrier s).busyOf j = s.busyOf j := rfl
@[simp] theorem hooksOf_barrier (s : State) (j : Hart) : (barrier s).hooksOf j = s.hooksOf j := rfl
@[simp] theorem pendOf_csrWrite (k : Csr) (v : Word) (s : State) (j : Hart) : (csrWrite k v s).pendOf j = s.pendOf j := rfl
@[simp] theorem callOf_csrWrite (k : Csr) (v : Word) (s : State) (j : Hart) : (csrWrite k v s).callOf j = s.callOf j := rfl
@[simp] theorem retOf_csrWrite (k : Csr) (v : Word) (s : State) (j : Hart) : (csrWrite k v s).retOf j = s.retOf j := rfl
@[simp] theorem busyOf_csrWrite (k : Csr) (v : Word) (s : State) (j : Hart) : (csrWrite k v s).busyOf j = s.busyOf j := rfl
@[simp] theorem hooksOf_csrWrite (k : Csr) (v : Word) (s : State) (j : Hart) : (csrWrite k v s).hooksOf j = s.hooksOf j := rfl
@[simp] theorem pendOf_csrSetBits (k : Csr) (m : Word) (s : State) (j : Hart) : (csrSetBits k m s).pendOf j = s.pendOf j := rfl
@[simp] theorem callOf_csrSetBits (k : Csr) (m : Word) (s : State) (j : Hart) : (csrSetBits k m s).callOf j = s.callOf j := rfl
@[simp] theorem retOf_csrSetBits (k : Csr) (m : Word) (s : State) (j : Hart) : (csrSetBits k m s).retOf j = s.retOf j := rfl
@[simp] theorem busyOf_csrSetBits (k : Csr) (m : Word) (s : State) (j : Hart) : (csrSetBits k m s).busyOf j = s.busyOf j := rfl
@[simp] theorem hooksOf_csrSetBits (k : Csr) (m : Word) (s : State) (j : Hart) : (csrSetBits k m s).hooksOf j = s.hooksOf j := rfl
@[simp] theorem pendOf_extCall (n : Collaborator) (s : State) (j : Hart) : (extCall n s).pendOf j = s.pendOf j := rfl
@[simp] theorem pmuOf_extCall (n : Collaborator) (s : State) (j : Hart) : (extCall n s).pmuOf j = s.pmuOf j := rfl
@[simp] theorem callOf_extCall (n : Collaborator) (s : State) (j : Hart) : (extCall n s).callOf j = s.callOf j := rfl
@[simp] theorem retOf_extCall (n : Collaborator) (s : State) (j : Hart) : (extCall n s).retOf j = s.retOf j := rfl
@[simp] theorem busyOf_extCall (n : Collaborator) (s : State) (j : Hart) : (extCall n s).busyOf j = s.busyOf j := rfl
@[simp] theorem hooksOf_extCall (n : Collaborator) (s : State) (j : Hart) : (extCall n s).hooksOf j = s.hooksOf j := rfl
@[simp] theorem pendOf_complete (r : Return) (s : State) (k : Hart) :
    (complete r s).pendOf k = s.pendOf k := by simp [State.pendOf]
@[simp] theorem pmuOf_complete (r : Return) (s : State) (k : Hart) :
    (complete r s).pmuOf k = s.pmuOf k := by simp [State.pmuOf]
@[simp] theorem busyOf_complete (r : Return) (s : State) (k : Hart) :
    (complete r s).busyOf k = s.busyOf k := by simp [State.busyOf]
@[simp] theorem hooksOf_complete (r : Return) (s : State) (k : Hart) :
    (complete r s).hooksOf k = s.hooksOf k := by simp [State.hooksOf]

@[simp] theorem retOf_complete (r : Return) (s : State) (k : Hart) :
    (complete r s).retOf k = if s.hart = k then r else s.retOf k := by
  simp [State.retOf, Vector.getElem_set, Fin.ext_iff]

@[simp] theorem pendOf_tblWrite (c : Bank) (r : TblReg) (v : Word32) (s : State) (k : Hart) :
    (tblWrite c r v s).pendOf k =
      if s.hart = k then s.pendOf k ++ [⟨c, r, v⟩] else s.pendOf k := by
  by_cases h : s.hart = k
  · subst h; simp [State.pendOf]
  · have h' : s.hart.val ≠ k.val := fun e => h (Fin.ext e)
    simp [State.pendOf, h, h']

@[simp] theorem pendOf_barrier (s : State) (k : Hart) :
    (barrier s).pendOf k = if s.hart = k then [] else s.pendOf k := by
  simp [State.pendOf, Vector.getElem_set, Fin.ext_iff]

@[simp] theorem pmuOf_csrWrite (k : Csr) (v : Word) (s : State) (h : Hart) :
    (csrWrite k v s).pmuOf h = if s.hart = h then (s.pmuOf h).put k v else s.pmuOf h := by
  by_cases e : s.hart = h
  · subst e; simp [State.pmuOf]
  · have e' : s.hart.val ≠ h.val := fun x => e (Fin.ext x)
    simp [State.pmuOf, e, e']

@[simp] theorem pmuOf_csrSetBits (k : Csr) (m : Word) (s : State) (h : Hart) :
    (csrSetBits k m s).pmuOf h =
      if s.hart = h then (s.pmuOf h).put k ((s.pmuOf h).get k ||| m) else s.pmuOf h := by
  by_cases e : s.hart = h
  · subst e; simp [State.pmuOf]
  · have e' : s.hart.val ≠ h.val := fun x => e (Fin.ext x)
    simp [State.pmuOf, e, e']

/-! ### The table under updates that do not write it -/

@[simp] theorem tblAt_emit (e : Event) (s : State) (x : Bank) (y : TblReg) :
    (emit e s).tblAt x y = s.tblAt x y := rfl
@[simp] theorem tblAt_setPend (h : Hart) (q : List Pending) (s : State) (x : Bank) (y : TblReg) :
    (setPend h q s).tblAt x y = s.tblAt x y := rfl
@[simp] theorem tblAt_setPmu (h : Hart) (p : CounterRegs) (s : State) (x : Bank) (y : TblReg) :
    (setPmu h p s).tblAt x y = s.tblAt x y := rfl
@[simp] theorem tblAt_setCall (h : Hart) (c : CallRegs) (s : State) (x : Bank) (y : TblReg) :
    (setCall h c s).tblAt x y = s.tblAt x y := rfl
@[simp] theorem tblAt_setRet (h : Hart) (r : Return) (s : State) (x : Bank) (y : TblReg) :
    (setRet h r s).tblAt x y = s.tblAt x y := rfl
@[simp] theorem tblAt_setBusy (h : Hart) (q : List Micro) (s : State) (x : Bank) (y : TblReg) :
    (setBusy h q s).tblAt x y = s.tblAt x y := rfl
@[simp] theorem tblAt_setHooks (h : Hart) (q : List Hook) (s : State) (x : Bank) (y : TblReg) :
    (setHooks h q s).tblAt x y = s.tblAt x y := rfl
@[simp] theorem tblAt_tblRead (c : Bank) (r : TblReg) (s : State) (x : Bank) (y : TblReg) :
    (tblRead c r s).tblAt x y = s.tblAt x y := rfl
@[simp] theorem tblAt_barrier (s : State) (x : Bank) (y : TblReg) :
    (barrier s).tblAt x y = s.tblAt x y := rfl
@[simp] theorem tblAt_csrWrite (k : Csr) (v : Word) (s : State) (x : Bank) (y : TblReg) :
    (csrWrite k v s).tblAt x y = s.tblAt x y := rfl
@[simp] theorem tblAt_csrSetBits (k : Csr) (m : Word) (s : State) (x : Bank) (y : TblReg) :
    (csrSetBits k m s).tblAt x y = s.tblAt x y := rfl
@[simp] theorem tblAt_extCall (n : Collaborator) (s : State) (x : Bank) (y : TblReg) :
    (extCall n s).tblAt x y = s.tblAt x y := rfl
@[simp] theorem tblAt_complete (r : Return) (s : State) (x : Bank) (y : TblReg) :
    (complete r s).tblAt x y = s.tblAt x y := by simp [State.tblAt]

/-! ### The control registers of one hart -/

@[simp] theorem evtAt_put (p : CounterRegs) (k : Csr) (v : Word) (j : Counter) :
    (p.put k v).evtAt j = if k = .evt j then v else p.evtAt j := by
  cases k <;> simp [CounterRegs.put, CounterRegs.evtAt, Vector.getElem_set, Fin.ext_iff]

@[simp] theorem ideleg_put (p : CounterRegs) (k : Csr) (v : Word) :
    (p.put k v).ideleg = if k = .ideleg then v else p.ideleg := by
  cases k <;> simp [CounterRegs.put]

@[simp] theorem wen_put (p : CounterRegs) (k : Csr) (v : Word) :
    (p.put k v).wen = if k = .wen then v.setWidth 32 else p.wen := by
  cases k <;> simp [CounterRegs.put]

end Sys2Proof.Machine
end

