-- ==== Sys2Proof/Laws/Counter.lean ====
section
/-! SUPPORT. What the operations of the counter mapper and the hooks do (41_counter_mapper.md,
43_boot_context.md). -/

namespace Sys2Proof.Machine

/-- `t` is `s` but for the acting hart's control registers and the trace. -/
structure OnlyCounters (s t : State) : Prop where
  cfg      : t.cfg = s.cfg
  tbl      : t.tbl = s.tbl
  vis      : t.vis = s.vis
  pend     : t.pend = s.pend
  call     : t.call = s.call
  ret      : t.ret = s.ret
  busy     : t.busy = s.busy
  handler  : t.handler = s.handler
  coldHart : t.coldHart = s.coldHart
  hooks    : t.hooks = s.hooks
  hart     : t.hart = s.hart
  inputs   : t.inputs = s.inputs
  others   : ∀ k, k ≠ s.hart → t.pmuOf k = s.pmuOf k

theorem OnlyCounters.refl (s : State) : OnlyCounters s s :=
  ⟨rfl, rfl, rfl, rfl, rfl, rfl, rfl, rfl, rfl, rfl, rfl, rfl, fun _ _ => rfl⟩

theorem OnlyCounters.trans {s t u : State} (a : OnlyCounters s t) (b : OnlyCounters t u) :
    OnlyCounters s u :=
  ⟨b.cfg.trans a.cfg, b.tbl.trans a.tbl, b.vis.trans a.vis, b.pend.trans a.pend,
   b.call.trans a.call, b.ret.trans a.ret, b.busy.trans a.busy, b.handler.trans a.handler,
   b.coldHart.trans a.coldHart, b.hooks.trans a.hooks, b.hart.trans a.hart, b.inputs.trans a.inputs,
   fun k hk => (b.others k (by rw [a.hart]; exact hk)).trans (a.others k hk)⟩

theorem onlyCounters_csrWrite (k : Csr) (v : Word) (s : State) : OnlyCounters s (csrWrite k v s) :=
  ⟨rfl, rfl, rfl, rfl, rfl, rfl, rfl, rfl, rfl, rfl, rfl, rfl, fun j hj => by
    rw [pmuOf_csrWrite, if_neg (Ne.symm hj)]⟩

theorem onlyCounters_csrSetBits (k : Csr) (m : Word) (s : State) :
    OnlyCounters s (csrSetBits k m s) :=
  ⟨rfl, rfl, rfl, rfl, rfl, rfl, rfl, rfl, rfl, rfl, rfl, rfl, fun j hj => by
    rw [pmuOf_csrSetBits, if_neg (Ne.symm hj)]⟩

theorem onlyCounters_baselines (l : List Counter) (s : State) :
    OnlyCounters s (l.foldl bindBaseline s) := by
  induction l generalizing s with
  | nil => exact .refl s
  | cons i l ih => exact (onlyCounters_csrWrite _ _ s).trans (ih _)

theorem onlyCounters_bindCounter (i e : Word) (s : State) : OnlyCounters s (bindCounter i e s) := by
  unfold bindCounter
  split
  · exact onlyCounters_csrWrite _ _ _
  · exact .refl s

theorem onlyCounters_resetCounters (s : State) : OnlyCounters s (resetCounters s) :=
  ((onlyCounters_csrSetBits _ _ s).trans (onlyCounters_csrWrite _ _ _)).trans
    (onlyCounters_baselines _ _)

theorem onlyCounters_dispatchCounter (t i e : Word) (s : State) :
    OnlyCounters s (dispatchCounter t i e s) := by
  unfold dispatchCounter
  split
  · exact onlyCounters_bindCounter _ _ _
  · exact onlyCounters_resetCounters _

/-- A counter index from 3 to 31 names its counter slot (10_state.md R45). -/
theorem counterOf_eq_some {i : Word} {c : Counter} (h : i.toNat = c.val + 3) :
    counterOf i = some c := by
  have := c.isLt
  unfold counterOf
  rw [dif_pos (by omega)]
  exact congrArg some (Fin.ext (by simp [h]))

/-- A counter index outside 3 to 31 names none. -/
theorem counterOf_eq_none {i : Word} (h : ¬ (3 ≤ i.toNat ∧ i.toNat ≤ 31)) : counterOf i = none := by
  unfold counterOf; rw [dif_neg h]

/-- The acting hart's registers after a list of baseline assignments. -/
theorem baselines_pmu (l : List Counter) (s : State) :
    (∀ c, ((l.foldl bindBaseline s).pmuOf s.hart).evtAt c =
      if c ∈ l then baseline c else (s.pmuOf s.hart).evtAt c) ∧
    ((l.foldl bindBaseline s).pmuOf s.hart).ideleg = (s.pmuOf s.hart).ideleg ∧
    ((l.foldl bindBaseline s).pmuOf s.hart).wen = (s.pmuOf s.hart).wen := by
  induction l generalizing s with
  | nil => simp
  | cons i l ih =>
    obtain ⟨e, d, w⟩ := ih (bindBaseline s i)
    have hh : (bindBaseline s i).hart = s.hart := rfl
    have hp : (bindBaseline s i).pmuOf s.hart = (s.pmuOf s.hart).put (.evt i) (baseline i) := by
      simp [bindBaseline]
    rw [hh] at e d w
    refine ⟨fun c => ?_, ?_, ?_⟩
    · rw [List.foldl_cons, e c, hp, evtAt_put]
      by_cases hc : c ∈ l
      · simp [hc]
      · by_cases hi : i = c
        · subst hi; simp
        · have hi' : ¬ c = i := fun e => hi e.symm
          simp [hc, hi, hi']
    · rw [List.foldl_cons, d, hp]; simp
    · rw [List.foldl_cons, w, hp]; simp

/-- The counters 3 to 28 and no others have a baseline. -/
theorem mem_baselineCounters (c : Counter) : c ∈ baselineCounters ↔ c.val + 3 ≤ 28 := by
  simp [baselineCounters, counterIndex]

/-- The event registers after a reset (41_counter_mapper.md R162). -/
theorem resetCounters_evt (s : State) (c : Counter) :
    ((resetCounters s).pmuOf s.hart).evtAt c =
      if c.val + 3 ≤ 28 then BitVec.ofNat 64 (c.val + 1) else (s.pmuOf s.hart).evtAt c := by
  have := (baselines_pmu baselineCounters
    (csrWrite .wen wenAllOnes (csrSetBits .ideleg (overflowMask s.cfg) s))).1 c
  simp only [csrWrite_hart, csrSetBits_hart, mem_baselineCounters, pmuOf_csrWrite,
    pmuOf_csrSetBits, if_true, evtAt_put] at this
  rw [resetCounters, this]
  simp [baseline, counterIndex]

/-- IDELEG after a reset (41_counter_mapper.md R165). -/
theorem resetCounters_ideleg (s : State) :
    ((resetCounters s).pmuOf s.hart).ideleg =
      (s.pmuOf s.hart).ideleg ||| (1#64 <<< s.cfg.ovfDelegBit.val) := by
  have := (baselines_pmu baselineCounters
    (csrWrite .wen wenAllOnes (csrSetBits .ideleg (overflowMask s.cfg) s))).2.1
  simp only [csrWrite_hart, csrSetBits_hart, pmuOf_csrWrite, pmuOf_csrSetBits, if_true,
    ideleg_put] at this
  rw [resetCounters, this]
  simp [CounterRegs.get, overflowMask]

/-- WEN after a reset (41_counter_mapper.md R162). -/
theorem resetCounters_wen (s : State) :
    ((resetCounters s).pmuOf s.hart).wen = 0xFFFFFFFF := by
  have := (baselines_pmu baselineCounters
    (csrWrite .wen wenAllOnes (csrSetBits .ideleg (overflowMask s.cfg) s))).2.2
  simp only [csrWrite_hart, csrSetBits_hart, pmuOf_csrWrite, pmuOf_csrSetBits, if_true,
    wen_put] at this
  rw [resetCounters, this]
  simp [wenAllOnes]

theorem baselines_trace (l : List Counter) (s : State) :
    (l.foldl bindBaseline s).trace =
      s.trace ++ l.map fun i => .csrWr s.hart (.evt i) (baseline i) := by
  induction l generalizing s with
  | nil => simp
  | cons i l ih => rw [List.foldl_cons, ih]; simp [bindBaseline]

/-- The events of a reset (41_counter_mapper.md R164). -/
theorem resetCounters_trace (s : State) :
    (resetCounters s).trace = s.trace ++ resetEvents s.cfg s.hart := by
  rw [resetCounters, baselines_trace]
  simp only [csrWrite_trace, csrSetBits_trace, csrWrite_hart, csrSetBits_hart, List.append_assoc,
    resetEvents]
  have e : baselineCounters = (List.finRange 26).map fun j => j.castLE (by decide) := by decide
  simp [e, overflowMask, wenAllOnes, baseline, counterIndex, Function.comp_def]

/-! ### Completion -/

/-- Every meaning answers a next state under a configuration that passes the check. -/
theorem operate_next {s : State} (h : cfgOk s.cfg = true) (f : State → State) (r : Return) :
    operate f r s = .next (complete r (f s)) := by simp [operate, h]

/-- A next state comes from an effect under a configuration that passes the check, and a return. -/
theorem operate_inv {f : State → State} {r : Return} {s t : State} (h : operate f r s = .next t) :
    cfgOk s.cfg = true ∧ t = complete r (f s) := by
  unfold operate at h
  split at h
  · simp only [Host.Outcome.next.injEq] at h; exact ⟨‹_›, h.symm⟩
  · cases h

/-- Under a configuration that fails the check an operation is refused. -/
theorem operate_refused {s : State} (h : cfgOk s.cfg = false) (f : State → State) (r : Return) :
    operate f r s = .refused .badConfig := by simp [operate, h]

end Sys2Proof.Machine
end

