-- ==== Sys2Proof/Laws/Memory.lean ====
section
/-! SUPPORT. The laws of the byte memory: every operation keeps the canonical form, a read after a
write, equal readings make equal memories, and words of four bytes. -/

namespace Sys2Proof.Machine

namespace Memory

theorem wf_cons_iff {a : Nat} {b : Byte} {m : Memory} :
    Memory.wf ((a, b) :: m) = true ↔
      b ≠ unlistedByte ∧ (∀ e ∈ m, a < e.1) ∧ Memory.wf m = true := by
  simp [Memory.wf, and_assoc]

/-- Below every listed address nothing is listed. -/
theorem read_eq_unlisted {m : Memory} {k : Nat} (h : ∀ e ∈ m, k < e.1) :
    Memory.read m k = unlistedByte := by
  induction m with
  | nil => rfl
  | cons e m ih =>
    obtain ⟨a, b⟩ := e
    have ha : k < a := h (a, b) (by simp)
    simp only [Memory.read, if_neg (by omega : ¬ a = k)]
    exact ih fun e he => h e (by simp [he])

theorem mem_cons {k : Nat} {v : Byte} {m : Memory} {e : Host.Cell}
    (h : e ∈ Memory.cons k v m) : e = (k, v) ∨ e ∈ m := by
  unfold Memory.cons at h
  split at h <;> simp_all

/-- A write lists no other address than the ones listed before and its own. -/
theorem mem_write {m : Memory} {k : Nat} {v : Byte} {e : Host.Cell}
    (h : e ∈ Memory.write m k v) : e = (k, v) ∨ e ∈ m := by
  induction m with
  | nil => exact mem_cons h
  | cons x m ih =>
    obtain ⟨a, b⟩ := x
    unfold Memory.write at h
    split at h
    · exact mem_cons h
    split at h
    · rcases mem_cons h with h | h <;> simp [h]
    · rcases List.mem_cons.1 h with h | h
      · simp [h]
      · rcases ih h with h | h <;> simp [h]

theorem cons_wf {k : Nat} {v : Byte} {m : Memory} (hm : Memory.wf m = true)
    (h : ∀ e ∈ m, k < e.1) : Memory.wf (Memory.cons k v m) = true := by
  unfold Memory.cons
  split
  · exact hm
  · exact wf_cons_iff.2 ⟨‹_›, h, hm⟩

/-- A write keeps the canonical form. -/
theorem write_wf {m : Memory} (hm : Memory.wf m = true) (k : Nat) (v : Byte) :
    Memory.wf (Memory.write m k v) = true := by
  induction m with
  | nil => exact cons_wf hm (by simp)
  | cons x m ih =>
    obtain ⟨a, b⟩ := x
    obtain ⟨hb, hlt, hm'⟩ := wf_cons_iff.1 hm
    unfold Memory.write
    split
    · refine cons_wf hm ?_
      rintro e he
      rcases List.mem_cons.1 he with rfl | he
      · assumption
      · have := hlt e he; omega
    split
    · subst_vars; exact cons_wf hm' hlt
    · refine wf_cons_iff.2 ⟨hb, ?_, ih hm'⟩
      intro e he
      rcases mem_write he with rfl | he
      · simp; omega
      · exact hlt e he

theorem read_cons {k : Nat} {v : Byte} {m : Memory} (h : ∀ e ∈ m, k < e.1) (j : Nat) :
    Memory.read (Memory.cons k v m) j = if k = j then v else Memory.read m j := by
  unfold Memory.cons
  split
  · split
    · subst_vars; exact read_eq_unlisted h
    · rfl
  · rfl

/-- A read after a write: the value written at its address, the old value anywhere else. -/
theorem read_write {m : Memory} (hm : Memory.wf m = true) (k : Nat) (v : Byte) (j : Nat) :
    Memory.read (Memory.write m k v) j = if k = j then v else Memory.read m j := by
  induction m with
  | nil => exact read_cons (by simp) j
  | cons x m ih =>
    obtain ⟨a, b⟩ := x
    obtain ⟨hb, hlt, hm'⟩ := wf_cons_iff.1 hm
    unfold Memory.write
    split
    · refine read_cons ?_ j
      rintro e he
      rcases List.mem_cons.1 he with rfl | he
      · assumption
      · have := hlt e he; omega
    split
    · subst_vars
      rw [read_cons hlt]
      by_cases h : a = j <;> simp [Memory.read, h]
    · simp only [Memory.read, ih hm']
      by_cases h : a = j
      · rw [if_pos h, if_pos h, if_neg (by omega)]
      · simp [h]

/-- Equal readings make equal memories: the canonical form is one form. -/
theorem ext_of_read {m n : Memory} (hm : Memory.wf m = true) (hn : Memory.wf n = true)
    (h : ∀ k, Memory.read m k = Memory.read n k) : m = n := by
  induction m generalizing n with
  | nil =>
    cases n with
    | nil => rfl
    | cons y n =>
      obtain ⟨c, d⟩ := y
      have := h c
      simp only [Memory.read, if_true] at this
      exact absurd this.symm (wf_cons_iff.1 hn).1
  | cons x m ih =>
    obtain ⟨a, b⟩ := x
    obtain ⟨hb, hlt, hm'⟩ := wf_cons_iff.1 hm
    cases n with
    | nil =>
      have := h a
      simp only [Memory.read, if_true] at this
      exact absurd this hb
    | cons y n =>
      obtain ⟨c, d⟩ := y
      obtain ⟨hd, hlt', hn'⟩ := wf_cons_iff.1 hn
      have hac : a = c := by
        rcases Nat.lt_trichotomy a c with hc | hc | hc
        · have := h a
          rw [read_eq_unlisted (m := (c, d) :: n)] at this
          · simp [Memory.read, hb] at this
          · intro e he
            rcases List.mem_cons.1 he with rfl | he
            · exact hc
            · have := hlt' e he; omega
        · exact hc
        · have := h c
          rw [read_eq_unlisted (m := (a, b) :: m)] at this
          · simp [Memory.read, hd.symm] at this
          · intro e he
            rcases List.mem_cons.1 he with rfl | he
            · exact hc
            · have := hlt e he; omega
      subst hac
      have hbd : b = d := by have := h a; simpa [Memory.read] using this
      subst hbd
      have : m = n := by
        refine ih hm' hn' fun k => ?_
        have := h k
        by_cases hk : a = k
        · subst hk; rw [read_eq_unlisted hlt, read_eq_unlisted hlt']
        · simpa [Memory.read, hk] using this
      rw [this]

/-! ### Words -/

/-- A word write keeps the canonical form. -/
theorem writeWord_wf {m : Memory} (hm : Memory.wf m = true) (a : Nat) (v : Word32) :
    Memory.wf (Memory.writeWord m a v) = true :=
  write_wf (write_wf (write_wf (write_wf hm _ _) _ _) _ _) _ _

/-- Every byte after a word write: byte `j` of the word at its address, the old byte elsewhere. -/
theorem read_writeWord {m : Memory} (hm : Memory.wf m = true) (a : Nat) (v : Word32) (k : Nat) :
    Memory.read (Memory.writeWord m a v) k =
      if inWord a k then v.extractLsb' (8 * (k - a)) 8 else Memory.read m k := by
  have h1 := write_wf hm a (v.extractLsb' 0 8)
  have h2 := write_wf h1 (a + 1) (v.extractLsb' 8 8)
  have h3 := write_wf h2 (a + 2) (v.extractLsb' 16 8)
  unfold Memory.writeWord
  rw [read_write h3, read_write h2, read_write h1, read_write hm]
  by_cases hk : a ≤ k ∧ k < a + 4
  · obtain ⟨j, rfl⟩ : ∃ j, k = a + j := ⟨k - a, by omega⟩
    obtain rfl | rfl | rfl | rfl : j = 0 ∨ j = 1 ∨ j = 2 ∨ j = 3 := by omega
    all_goals simp [inWord]
  · rw [if_neg (by omega), if_neg (by omega), if_neg (by omega), if_neg (by omega)]
    simp only [inWord, Bool.and_eq_true, decide_eq_true_eq, if_neg hk]

/-- A word is its four bytes, the lowest last. -/
theorem bytes_append (v : BitVec 32) :
    (v.extractLsb' 24 8 ++ v.extractLsb' 16 8 ++ v.extractLsb' 8 8 ++ v.extractLsb' 0 8 : BitVec 32) = v := by
  apply BitVec.eq_of_getLsbD_eq
  intro i hi
  simp only [BitVec.getLsbD_append, BitVec.getLsbD_extractLsb']
  by_cases h1 : i < 8
  · simp [h1]
  by_cases h2 : i < 16
  · have : i - 8 < 8 := by omega
    simp [h1, this]; congr 1; omega
  by_cases h3 : i < 24
  · have a : ¬ i - 8 < 8 := by omega
    have b : i - 8 - 8 < 8 := by omega
    simp [h1, a, b]; congr 1; omega
  · have a : ¬ i - 8 < 8 := by omega
    have b : ¬ i - 8 - 8 < 8 := by omega
    have c : i - 8 - 8 - 8 < 8 := by omega
    simp [h1, a, b, c]; congr 1; omega

/-- A word read after a word write at the same address. -/
theorem readWord_writeWord_same {m : Memory} (hm : Memory.wf m = true) (a : Nat) (v : Word32) :
    Memory.readWord (Memory.writeWord m a v) a = v := by
  have e : ∀ j, j < 4 → inWord a (a + j) = true := by
    intro j hj; simp only [inWord, Bool.and_eq_true, decide_eq_true_eq]; omega
  have e0 := e 0 (by omega)
  simp only [Nat.add_zero] at e0
  have z : ∀ j, a + j - a = j := by omega
  unfold Memory.readWord
  simp only [read_writeWord hm, e 1 (by omega), e 2 (by omega), e 3 (by omega), e0, z,
    Nat.sub_self, if_true]
  exact bytes_append v

/-- A word read after a word write that shares no byte with it. -/
theorem readWord_writeWord_apart {m : Memory} (hm : Memory.wf m = true) {a b : Nat}
    (h : a + 4 ≤ b ∨ b + 4 ≤ a) (v : Word32) :
    Memory.readWord (Memory.writeWord m a v) b = Memory.readWord m b := by
  unfold Memory.readWord
  have e : ∀ j, j < 4 → inWord a (b + j) = false := by
    intro j hj; simp only [inWord, Bool.and_eq_false_iff, decide_eq_false_iff_not]; omega
  have e0 := e 0 (by omega)
  simp only [read_writeWord hm, e 1 (by omega), e 2 (by omega), e 3 (by omega)]
  simp only [Nat.add_zero] at e0
  simp [e0]

end Memory

end Sys2Proof.Machine
end

