-- ==== Sys2Proof/Laws/Table.lean ====
section
/-! SUPPORT. The laws of the region table under a configuration that passes the check: the 32
registers share no byte, a register reads as last written, and what each shared operation of the
region controller does. -/

namespace Sys2Proof.Machine

/-! ### The address map (20_memory.md R61, R62) -/

theorem mem_bankRegs (r : TblReg) : r ∈ bankRegs := by
  rcases r with x | x | w
  all_goals first | (cases x <;> decide) | (cases w <;> decide)

theorem mem_banks (c : Bank) : c ∈ banks := by revert c; decide

/-- What the check says of one register's offset. -/
structure OffsetOk (cfg : Cfg) (r : TblReg) : Prop where
  aligned : regOff cfg r % 4 = 0
  inBank  : regOff cfg r + 4 ≤ cfg.coreStride
  below   : cfg.tableBase + 3 * cfg.coreStride + regOff cfg r + 3 < Config.addressTop

theorem mapOk_of_cfgOk {cfg : Cfg} (h : cfgOk cfg = true) : mapOk cfg = true := by
  simp only [cfgOk, Bool.and_eq_true] at h; tauto

theorem offsetOk {cfg : Cfg} (h : cfgOk cfg = true) (r : TblReg) : OffsetOk cfg r := by
  have := mapOk_of_cfgOk h
  simp only [mapOk, Bool.and_eq_true, List.all_eq_true, decide_eq_true_eq, beq_iff_eq] at this
  obtain ⟨⟨⟨_, _⟩, ho⟩, _⟩ := this
  have := ho r (mem_bankRegs r)
  exact ⟨this.1.1, this.1.2, this.2⟩

theorem regOff_injective {cfg : Cfg} (h : cfgOk cfg = true) {r r' : TblReg}
    (e : regOff cfg r = regOff cfg r') : r = r' := by
  have := mapOk_of_cfgOk h
  simp only [mapOk, Bool.and_eq_true, decide_eq_true_eq] at this
  exact List.inj_on_of_nodup_map this.2 (mem_bankRegs r) (mem_bankRegs r') e

/-- Two registers of the table share no byte (20_memory.md R62 (c)). -/
theorem regAddr_apart {cfg : Cfg} (h : cfgOk cfg = true) {c c' : Bank} {r r' : TblReg}
    (ne : ¬ (c = c' ∧ r = r')) :
    regAddr cfg c r + 4 ≤ regAddr cfg c' r' ∨ regAddr cfg c' r' + 4 ≤ regAddr cfg c r := by
  have o := offsetOk h r
  have o' := offsetOk h r'
  have step : ∀ {i j : Nat}, i < j → i * cfg.coreStride + cfg.coreStride ≤ j * cfg.coreStride := by
    intro i j hij
    calc i * cfg.coreStride + cfg.coreStride = (i + 1) * cfg.coreStride := by ring
      _ ≤ j * cfg.coreStride := Nat.mul_le_mul_right _ hij
  have := o.inBank; have := o'.inBank
  unfold regAddr
  rcases Nat.lt_trichotomy c.val c'.val with hc | hc | hc
  · have := step hc; omega
  · have hr : regOff cfg r ≠ regOff cfg r' := fun e => ne ⟨Fin.ext hc, regOff_injective h e⟩
    have := o.aligned; have := o'.aligned
    rw [hc]; omega
  · have := step hc; omega

/-- A register's address is one of the table's addresses. -/
theorem regAddr_mem (cfg : Cfg) (c : Bank) (r : TblReg) : regAddr cfg c r ∈ tableAddrs cfg :=
  List.mem_flatMap.2 ⟨c, mem_banks c, List.mem_map.2 ⟨r, mem_bankRegs r, rfl⟩⟩

/-- Every register's address is a multiple of 4 (20_memory.md R66). -/
theorem regAddr_aligned {cfg : Cfg} (h : cfgOk cfg = true) (c : Bank) (r : TblReg) :
    regAddr cfg c r % 4 = 0 := by
  have m := mapOk_of_cfgOk h
  simp only [mapOk, Bool.and_eq_true, beq_iff_eq] at m
  have := (offsetOk h r).aligned
  have hb := m.1.1.1
  have hs : c.val * cfg.coreStride % 4 = 0 := by rw [Nat.mul_mod, m.1.1.2]; simp
  unfold regAddr; omega

/-- A write of a register lists no byte outside the table. -/
theorem inTable_writeWord {cfg : Cfg} {m : Memory} (h : Memory.inTable cfg m = true)
    (c : Bank) (r : TblReg) (v : Word32) :
    Memory.inTable cfg (Memory.writeWord m (regAddr cfg c r) v) = true := by
  simp only [Memory.inTable, List.all_eq_true, List.any_eq_true] at h ⊢
  intro e he
  have here : ∀ j b, j < 4 → e = (regAddr cfg c r + j, b) →
      ∃ a ∈ tableAddrs cfg, inWord a e.1 = true := by
    rintro j b hj rfl
    exact ⟨_, regAddr_mem cfg c r, by simp [inWord]; omega⟩
  unfold Memory.writeWord at he
  rcases Memory.mem_write he with he | he
  · exact here 3 _ (by omega) he
  rcases Memory.mem_write he with he | he
  · exact here 2 _ (by omega) he
  rcases Memory.mem_write he with he | he
  · exact here 1 _ (by omega) he
  rcases Memory.mem_write he with he | he
  · exact here 0 _ (by omega) he
  · exact h e he

/-- A register after a write of a register: the value if it is the same register of the same bank
(10_state.md R33). -/
theorem readWord_writeWord {cfg : Cfg} (h : cfgOk cfg = true) {m : Memory}
    (hm : Memory.wf m = true) (c c' : Bank) (r r' : TblReg) (v : Word32) :
    Memory.readWord (Memory.writeWord m (regAddr cfg c r) v) (regAddr cfg c' r') =
      if c = c' ∧ r = r' then v else Memory.readWord m (regAddr cfg c' r') := by
  split
  · rename_i e; obtain ⟨rfl, rfl⟩ := e; exact Memory.readWord_writeWord_same hm _ _
  · rename_i e; exact Memory.readWord_writeWord_apart hm (regAddr_apart h e) _

theorem tblAt_tblWrite {s : State} (h : cfgOk s.cfg = true) (hm : Memory.wf s.tbl = true)
    (c c' : Bank) (r r' : TblReg) (v : Word32) :
    (tblWrite c r v s).tblAt c' r' = if c = c' ∧ r = r' then v else s.tblAt c' r' :=
  readWord_writeWord h hm c c' r r' v

theorem tblWrite_tblWf {s : State} (hm : Memory.wf s.tbl = true) (c : Bank) (r : TblReg)
    (v : Word32) : Memory.wf (tblWrite c r v s).tbl = true := Memory.writeWord_wf hm _ _

/-! ### The helpers of the region controller -/

/-- What a table operation leaves alone whatever it writes. -/
structure SameBut (s t : State) : Prop where
  cfg      : t.cfg = s.cfg
  pmu      : t.pmu = s.pmu
  call     : t.call = s.call
  ret      : t.ret = s.ret
  busy     : t.busy = s.busy
  handler  : t.handler = s.handler
  coldHart : t.coldHart = s.coldHart
  hooks    : t.hooks = s.hooks
  hart     : t.hart = s.hart
  inputs   : t.inputs = s.inputs

theorem SameBut.refl (s : State) : SameBut s s := ⟨rfl, rfl, rfl, rfl, rfl, rfl, rfl, rfl, rfl, rfl⟩

theorem SameBut.trans {s t u : State} (a : SameBut s t) (b : SameBut t u) : SameBut s u :=
  ⟨b.cfg.trans a.cfg, b.pmu.trans a.pmu, b.call.trans a.call, b.ret.trans a.ret,
   b.busy.trans a.busy, b.handler.trans a.handler, b.coldHart.trans a.coldHart,
   b.hooks.trans a.hooks, b.hart.trans a.hart, b.inputs.trans a.inputs⟩

theorem sameBut_tblRead (c : Bank) (r : TblReg) (s : State) : SameBut s (tblRead c r s) :=
  ⟨rfl, rfl, rfl, rfl, rfl, rfl, rfl, rfl, rfl, rfl⟩

theorem sameBut_tblWrite (c : Bank) (r : TblReg) (v : Word32) (s : State) :
    SameBut s (tblWrite c r v s) := ⟨rfl, rfl, rfl, rfl, rfl, rfl, rfl, rfl, rfl, rfl⟩

theorem sameBut_barrier (s : State) : SameBut s (barrier s) :=
  ⟨rfl, rfl, rfl, rfl, rfl, rfl, rfl, rfl, rfl, rfl⟩

theorem sameBut_foldl {f : State → Bank → State} (hf : ∀ s c, SameBut s (f s c)) (l : List Bank)
    (s : State) : SameBut s (l.foldl f s) := by
  induction l generalizing s with
  | nil => exact .refl s
  | cons c l ih => exact (hf s c).trans (ih (f s c))

theorem sameBut_programFrames (x : Slot) (s : State) : SameBut s (programFrames x s) :=
  sameBut_foldl (fun s c => (sameBut_tblWrite _ _ _ s).trans (sameBut_tblWrite c _ _ _)) _ s

theorem sameBut_rmwAuth (x : Slot) (a : Byte) (s : State) : SameBut s (rmwAuth x a s) :=
  sameBut_foldl (fun s c => (sameBut_tblRead _ _ s).trans (sameBut_tblWrite c _ _ _)) _ s

theorem sameBut_ensureReserved (s : State) : SameBut s (ensureReserved s) := by
  unfold ensureReserved
  have r := sameBut_tblRead Config.readReplica (.startFrame .rsv) s
  split
  · exact r
  · exact r.trans <| (sameBut_programFrames .rsv _).trans <|
      (sameBut_rmwAuth .rsv _ _).trans (sameBut_barrier _)

theorem sameBut_fixUpFrames (x : Slot) (s : State) : SameBut s (fixUpFrames x s) := by
  unfold fixUpFrames
  have r := sameBut_tblRead Config.readReplica (.startFrame x) s
  split
  · exact r
  · exact r.trans (sameBut_programFrames x _)

theorem sameBut_setAuthorization (region : Word) (a : Byte) (s : State) :
    SameBut s (setAuthorization region a s) := by
  unfold setAuthorization
  split
  · exact .refl s
  · exact (sameBut_ensureReserved s).trans <| (sameBut_fixUpFrames _ _).trans <|
      (sameBut_rmwAuth _ _ _).trans (sameBut_barrier _)

/-- `program_frames` keeps the canonical form. -/
theorem programFrames_tblWf {s : State} (hm : Memory.wf s.tbl = true) (x : Slot) :
    Memory.wf (programFrames x s).tbl = true := by
  simp only [programFrames, banks, List.foldl_cons, List.foldl_nil, programBank]
  iterate 8 apply tblWrite_tblWf
  exact hm

/-- `rmw_auth` keeps the canonical form. -/
theorem rmwAuth_tblWf {s : State} (hm : Memory.wf s.tbl = true) (x : Slot) (a : Byte) :
    Memory.wf (rmwAuth x a s).tbl = true := by
  simp only [rmwAuth, banks, List.foldl_cons, List.foldl_nil, rmwBank]
  iterate 4 (apply tblWrite_tblWf; simp only [tblRead_tbl])
  exact hm

/-- One bank of `program_frames` (40_region_controller.md R131). -/
theorem programBank_tblAt {s : State} (h : cfgOk s.cfg = true) (hm : Memory.wf s.tbl = true)
    (x : Slot) (b c : Bank) (r : TblReg) :
    (programBank x s b).tblAt c r =
      if b = c ∧ r = .startFrame x then expStart s.cfg x
      else if b = c ∧ r = .endFrame x then expEnd s.cfg x
      else s.tblAt c r := by
  unfold programBank
  have h' : cfgOk (tblWrite b (.startFrame x) (expStart s.cfg x) s).cfg = true := h
  rw [tblAt_tblWrite h' (tblWrite_tblWf hm _ _ _), tblAt_tblWrite h hm]
  by_cases e1 : b = c ∧ r = .startFrame x
  · obtain ⟨rfl, rfl⟩ := e1; simp
  · by_cases e2 : b = c ∧ r = .endFrame x
    · obtain ⟨rfl, rfl⟩ := e2; simp
    · have e1' : ¬ (b = c ∧ TblReg.startFrame x = r) := fun e => e1 ⟨e.1, e.2.symm⟩
      have e2' : ¬ (b = c ∧ TblReg.endFrame x = r) := fun e => e2 ⟨e.1, e.2.symm⟩
      simp only [if_neg e1, if_neg e2, if_neg e1', if_neg e2']

@[simp] theorem programBank_cfg (x : Slot) (s : State) (b : Bank) : (programBank x s b).cfg = s.cfg := rfl

theorem programBank_tblWf {s : State} (hm : Memory.wf s.tbl = true) (x : Slot) (b : Bank) :
    Memory.wf (programBank x s b).tbl = true := tblWrite_tblWf (tblWrite_tblWf hm _ _ _) _ _ _

theorem programFold_tblAt (x : Slot) (c : Bank) (r : TblReg) (l : List Bank) {s : State}
    (h : cfgOk s.cfg = true) (hm : Memory.wf s.tbl = true) :
    (l.foldl (programBank x) s).tblAt c r =
      if c ∈ l ∧ r = .startFrame x then expStart s.cfg x
      else if c ∈ l ∧ r = .endFrame x then expEnd s.cfg x
      else s.tblAt c r := by
  induction l generalizing s with
  | nil => simp
  | cons b l ih =>
    rw [List.foldl_cons, ih (by rw [programBank_cfg]; exact h) (programBank_tblWf hm x b),
      programBank_tblAt h hm, programBank_cfg]
    by_cases hc : c ∈ l
    · by_cases e1 : r = .startFrame x
      · simp [hc, e1]
      · by_cases e2 : r = .endFrame x <;> simp [hc, e1, e2]
    · simp only [hc, false_and, if_false, List.mem_cons, or_false, eq_comm (a := b)]

/-- The registers after `program_frames` (40_region_controller.md R131). -/
theorem programFrames_tblAt {s : State} (h : cfgOk s.cfg = true) (hm : Memory.wf s.tbl = true)
    (x : Slot) (c : Bank) (r : TblReg) :
    (programFrames x s).tblAt c r =
      if r = .startFrame x then expStart s.cfg x
      else if r = .endFrame x then expEnd s.cfg x
      else s.tblAt c r := by
  simpa [programFrames, mem_banks c] using programFold_tblAt x c r banks h hm

@[simp] theorem rmwBank_cfg (x : Slot) (a : Byte) (s : State) (b : Bank) : (rmwBank x a s b).cfg = s.cfg :=
  rfl

theorem rmwBank_tblWf {s : State} (hm : Memory.wf s.tbl = true) (x : Slot) (a : Byte) (b : Bank) :
    Memory.wf (rmwBank x a s b).tbl = true := tblWrite_tblWf (s := tblRead b _ s) hm _ _ _

/-- One bank of `rmw_auth`: that bank's word only (40_region_controller.md R132). -/
theorem rmwBank_tblAt {s : State} (h : cfgOk s.cfg = true) (hm : Memory.wf s.tbl = true)
    (x : Slot) (a : Byte) (b c : Bank) (r : TblReg) :
    (rmwBank x a s b).tblAt c r =
      if b = c ∧ r = authReg s.cfg x then mergeAuth s.cfg x a (s.tblAt c r) else s.tblAt c r := by
  unfold rmwBank
  rw [tblAt_tblWrite (s := tblRead b _ s) h hm]
  by_cases e : b = c ∧ authReg s.cfg x = r
  · obtain ⟨rfl, rfl⟩ := e; simp
  · have e' : ¬ (b = c ∧ r = authReg s.cfg x) := fun q => e ⟨q.1, q.2.symm⟩
    simp only [if_neg e, if_neg e', tblAt_tblRead]

theorem rmwFold_tblAt (x : Slot) (a : Byte) (c : Bank) (r : TblReg) (l : List Bank)
    (nd : l.Nodup) {s : State} (h : cfgOk s.cfg = true) (hm : Memory.wf s.tbl = true) :
    (l.foldl (rmwBank x a) s).tblAt c r =
      if c ∈ l ∧ r = authReg s.cfg x then mergeAuth s.cfg x a (s.tblAt c r)
      else s.tblAt c r := by
  induction l generalizing s with
  | nil => simp
  | cons b l ih =>
    obtain ⟨hb, nd'⟩ := List.nodup_cons.1 nd
    rw [List.foldl_cons, ih nd' (by rw [rmwBank_cfg]; exact h) (rmwBank_tblWf hm x a b),
      rmwBank_tblAt h hm, rmwBank_cfg]
    by_cases hc : c ∈ l
    · have : b ≠ c := fun e => hb (e ▸ hc)
      simp [hc, this]
    · simp only [hc, false_and, if_false, List.mem_cons, or_false, eq_comm (a := b)]

/-- The registers after `rmw_auth` (40_region_controller.md R132). -/
theorem rmwAuth_tblAt {s : State} (h : cfgOk s.cfg = true) (hm : Memory.wf s.tbl = true)
    (x : Slot) (a : Byte) (c : Bank) (r : TblReg) :
    (rmwAuth x a s).tblAt c r =
      if r = authReg s.cfg x then mergeAuth s.cfg x a (s.tblAt c r) else s.tblAt c r := by
  simpa [rmwAuth, mem_banks c] using rmwFold_tblAt x a c r banks (by decide) h hm

/-- The events of `program_frames` (40_region_controller.md R131). -/
theorem programFrames_trace (x : Slot) (s : State) :
    (programFrames x s).trace = s.trace ++ frameEvents s.cfg x := by
  simp [programFrames, banks, programBank, frameEvents]

theorem rmwBank_trace (x : Slot) (a : Byte) (s : State) (b : Bank) :
    (rmwBank x a s b).trace = s.trace ++
      [.regRd b (authReg s.cfg x) (s.tblAt b (authReg s.cfg x)),
       .regWr b (authReg s.cfg x) (mergeAuth s.cfg x a (s.tblAt b (authReg s.cfg x)))] := by
  simp [rmwBank]

theorem rmwFold_trace (x : Slot) (a : Byte) (l : List Bank) (nd : l.Nodup) {s : State}
    (h : cfgOk s.cfg = true) (hm : Memory.wf s.tbl = true) :
    (l.foldl (rmwBank x a) s).trace = s.trace ++ l.flatMap fun b =>
      [.regRd b (authReg s.cfg x) (s.tblAt b (authReg s.cfg x)),
       .regWr b (authReg s.cfg x) (mergeAuth s.cfg x a (s.tblAt b (authReg s.cfg x)))] := by
  induction l generalizing s with
  | nil => simp
  | cons b l ih =>
    obtain ⟨hb, nd'⟩ := List.nodup_cons.1 nd
    rw [List.foldl_cons, ih nd' (by rw [rmwBank_cfg]; exact h) (rmwBank_tblWf hm x a b),
      rmwBank_trace, rmwBank_cfg, List.flatMap_cons, List.append_assoc]
    refine congrArg (s.trace ++ ·) (congrArg (_ ++ ·) (List.flatMap_congr fun c hc => ?_))
    have : b ≠ c := fun e => hb (e ▸ hc)
    rw [rmwBank_tblAt h hm, if_neg (by simp [this])]

/-- The events of `rmw_auth`: the values read are those before it (40_region_controller.md R132). -/
theorem rmwAuth_trace {s : State} (h : cfgOk s.cfg = true) (hm : Memory.wf s.tbl = true)
    (x : Slot) (a : Byte) : (rmwAuth x a s).trace = s.trace ++ rmwEvents x a s := by
  rw [rmwAuth, rmwFold_trace x a banks (by decide) h hm]
  simp [banks, rmwEvents]

/-- `startObserved` compares the observed start frame with the expected one. -/
theorem startObserved_iff (x : Slot) (s : State) :
    startObserved x s = true ↔ s.tblAt 0 (.startFrame x) = expStart s.cfg x := by
  simp [startObserved, startMatches, Config.readReplica]

end Sys2Proof.Machine
end

