-- ==== Sys2Proof/Laws/Region.lean ====
section
/-! SUPPORT. What the two operations of the region controller do: registers, events, queues and the
observers' view (40_region_controller.md). -/

namespace Sys2Proof.Machine

/-! ### The merge of an authorization field (00_scope.md R15) -/

theorem authShift_le (cfg : Cfg) (x : Slot) : authShift cfg x ≤ 24 := by
  have := (slotCfg cfg x).lane.isLt
  unfold authShift; omega

/-- Bit by bit: the field's bits are the authorization's, every other bit is the old one. -/
theorem getLsbD_mergeAuth (cfg : Cfg) (x : Slot) (a : Byte) (old : Word32) (i : Nat) :
    (mergeAuth cfg x a old).getLsbD i =
      if authShift cfg x ≤ i ∧ i < authShift cfg x + 8 then a.getLsbD (i - authShift cfg x)
      else old.getLsbD i := by
  have hs := authShift_le cfg x
  have ff : ∀ j : Nat, (0xFF#32).getLsbD j = decide (j < 8) := by
    intro j
    by_cases hj : j < 32
    · have : ∀ j : Fin 32, (0xFF#32).getLsbD j.val = decide (j.val < 8) := by decide
      exact this ⟨j, hj⟩
    · rw [BitVec.getLsbD_of_ge _ _ (by omega)]; simp; omega
  by_cases hi : i < 32
  · simp only [mergeAuth, authMask, BitVec.getLsbD_or, BitVec.getLsbD_and, BitVec.getLsbD_not,
      BitVec.getLsbD_shiftLeft, BitVec.getLsbD_setWidth, ff]
    by_cases h1 : authShift cfg x ≤ i
    · by_cases h2 : i < authShift cfg x + 8
      · have e1 : i - authShift cfg x < 8 := by omega
        have e2 : i - authShift cfg x < 32 := by omega
        have e3 : ¬ i < authShift cfg x := by omega
        simp [hi, h1, h2, e1, e2, e3]
      · have e1 : ¬ i - authShift cfg x < 8 := by omega
        have e2 : a.getLsbD (i - authShift cfg x) = false :=
          BitVec.getLsbD_of_ge _ _ (by omega)
        simp [hi, h1, h2, e1, e2]
    · have : i < authShift cfg x := by omega
      simp [hi, h1, this]
  · rw [BitVec.getLsbD_of_ge _ _ (by omega), BitVec.getLsbD_of_ge old _ (by omega),
      if_neg (by omega)]

/-- The merged word holds the authorization in the slot's field. -/
theorem authField_mergeAuth (cfg : Cfg) (x : Slot) (a : Byte) (old : Word32) :
    authField cfg x (mergeAuth cfg x a old) = a := by
  apply BitVec.eq_of_getLsbD_eq
  intro i hi
  simp only [authField, BitVec.getLsbD_extractLsb', getLsbD_mergeAuth]
  have : authShift cfg x + i - authShift cfg x = i := by omega
  simp [hi, this]

/-- The merged word holds the old word outside the slot's field. -/
theorem mergeAuth_outside (cfg : Cfg) (x : Slot) (a : Byte) (old : Word32) :
    mergeAuth cfg x a old &&& ~~~(authMask cfg x) = old &&& ~~~(authMask cfg x) := by
  apply BitVec.eq_of_getLsbD_eq
  intro i hi
  have hs := authShift_le cfg x
  simp only [BitVec.getLsbD_and, BitVec.getLsbD_not, getLsbD_mergeAuth]
  by_cases h : authShift cfg x ≤ i ∧ i < authShift cfg x + 8
  · have e1 : ¬ i < authShift cfg x := by omega
    have e2 : i - authShift cfg x < 8 := by omega
    have ff : ∀ j : Fin 8, (0xFF#32).getLsbD j.val = true := by decide
    have := ff ⟨i - authShift cfg x, e2⟩
    simp only [authMask, BitVec.getLsbD_shiftLeft, hi, e1, this]
    simp
  · simp [h]

/-- The merge of another slot's field leaves a field alone. -/
theorem authField_mergeAuth_other (cfg : Cfg) {x y : Slot}
    (h : (slotCfg cfg x).lane ≠ (slotCfg cfg y).lane) (a : Byte) (old : Word32) :
    authField cfg y (mergeAuth cfg x a old) = authField cfg y old := by
  apply BitVec.eq_of_getLsbD_eq
  intro i hi
  have : (slotCfg cfg x).lane.val ≠ (slotCfg cfg y).lane.val := fun e => h (Fin.ext e)
  simp only [authField, BitVec.getLsbD_extractLsb', getLsbD_mergeAuth]
  rw [if_neg (by unfold authShift; omega)]

/-- Merging the same authorization twice is merging it once. -/
theorem mergeAuth_idem (cfg : Cfg) (x : Slot) (a : Byte) (old : Word32) :
    mergeAuth cfg x a (mergeAuth cfg x a old) = mergeAuth cfg x a old := by
  apply BitVec.eq_of_getLsbD_eq
  intro i _
  simp only [getLsbD_mergeAuth]
  split <;> rfl

/-! ### ensure_reserved_region -/

theorem tblAt_congr {s t : State} (hc : t.cfg = s.cfg) (ht : t.tbl = s.tbl) (c : Bank) (r : TblReg) :
    t.tblAt c r = s.tblAt c r := by simp [State.tblAt, hc, ht]

theorem programFrames_cfg (x : Slot) (s : State) : (programFrames x s).cfg = s.cfg :=
  (sameBut_programFrames x s).cfg

theorem rmwAuth_cfg (x : Slot) (a : Byte) (s : State) : (rmwAuth x a s).cfg = s.cfg :=
  (sameBut_rmwAuth x a s).cfg

/-- The registers after the programming of a slot: frames, then authorization. -/
theorem programmed_tblAt {s : State} (h : cfgOk s.cfg = true) (hm : Memory.wf s.tbl = true)
    (x : Slot) (a : Byte) (c : Bank) (r : TblReg) :
    (rmwAuth x a (programFrames x s)).tblAt c r =
      if r = .startFrame x then expStart s.cfg x
      else if r = .endFrame x then expEnd s.cfg x
      else if r = authReg s.cfg x then mergeAuth s.cfg x a (s.tblAt c r)
      else s.tblAt c r := by
  have k : cfgOk (programFrames x s).cfg = true := by rw [programFrames_cfg]; exact h
  rw [rmwAuth_tblAt k (programFrames_tblWf hm x), programFrames_cfg, programFrames_tblAt h hm]
  by_cases e1 : r = .startFrame x
  · subst e1; simp [authReg]
  · by_cases e2 : r = .endFrame x
    · subst e2; simp [authReg]
    · simp [e1, e2]

/-- The events of the programming of a slot. -/
theorem programmed_trace {s : State} (h : cfgOk s.cfg = true) (hm : Memory.wf s.tbl = true)
    (x : Slot) (a : Byte) :
    (rmwAuth x a (programFrames x s)).trace =
      s.trace ++ (frameEvents s.cfg x ++ rmwEvents x a s) := by
  have k : cfgOk (programFrames x s).cfg = true := by rw [programFrames_cfg]; exact h
  have word : ∀ c, (programFrames x s).tblAt c (authReg s.cfg x) = s.tblAt c (authReg s.cfg x) := by
    intro c; rw [programFrames_tblAt h hm]; simp [authReg]
  rw [rmwAuth_trace k (programFrames_tblWf hm x), programFrames_trace, List.append_assoc]
  simp only [rmwEvents, programFrames_cfg, word]

/-- The registers after `ensure_reserved_region` (40_region_controller.md R136). -/
theorem ensureReserved_tblAt {s : State} (h : cfgOk s.cfg = true) (hm : Memory.wf s.tbl = true)
    (c : Bank) (r : TblReg) :
    (ensureReserved s).tblAt c r =
      if s.tblAt 0 (.startFrame .rsv) = expStart s.cfg .rsv then s.tblAt c r
      else if r = .startFrame .rsv then expStart s.cfg .rsv
      else if r = .endFrame .rsv then expEnd s.cfg .rsv
      else if r = authReg s.cfg .rsv then mergeAuth s.cfg .rsv s.cfg.noAccess (s.tblAt c r)
      else s.tblAt c r := by
  unfold ensureReserved
  simp only [startObserved_iff]
  split
  · exact tblAt_tblRead _ _ _ _ _
  · rw [tblAt_barrier, programmed_tblAt (by simpa using h) (by simpa using hm)]
    simp only [tblRead_cfg, tblAt_tblRead]
    rfl

theorem ensureReserved_tblWf {s : State} (hm : Memory.wf s.tbl = true) :
    Memory.wf (ensureReserved s).tbl = true := by
  unfold ensureReserved
  simp only
  split
  · simpa using hm
  · rw [barrier_tbl]
    exact rmwAuth_tblWf (programFrames_tblWf (by simpa using hm) _) _ _

/-- The events of `ensure_reserved_region` (40_region_controller.md R138). -/
theorem ensureReserved_trace {s : State} (h : cfgOk s.cfg = true) (hm : Memory.wf s.tbl = true) :
    (ensureReserved s).trace = s.trace ++ ensureEvents s := by
  unfold ensureReserved ensureEvents
  simp only [startObserved_iff]
  split
  · simp [observeEvent, Config.readReplica]
  · rw [barrier_trace, programmed_trace (by simpa using h) (by simpa using hm)]
    simp [rmwEvents, observeEvent, Config.readReplica]

/-! ### set_region_authorization -/

theorem regionSlot_ne_rsv {region : Word} {x : Slot} (h : regionSlot region = some x) : x ≠ .rsv := by
  unfold regionSlot at h
  split at h
  · cases h; decide
  split at h
  · cases h; decide
  · cases h

theorem fixUpFrames_tblAt {s : State} (h : cfgOk s.cfg = true) (hm : Memory.wf s.tbl = true)
    (x : Slot) (c : Bank) (r : TblReg) :
    (fixUpFrames x s).tblAt c r =
      if s.tblAt 0 (.startFrame x) = expStart s.cfg x then s.tblAt c r
      else if r = .startFrame x then expStart s.cfg x
      else if r = .endFrame x then expEnd s.cfg x
      else s.tblAt c r := by
  unfold fixUpFrames
  simp only [startObserved_iff]
  split
  · exact tblAt_tblRead _ _ _ _ _
  · rw [programFrames_tblAt (by simpa using h) (by simpa using hm)]
    simp only [tblRead_cfg, tblAt_tblRead]

theorem fixUpFrames_tblWf {s : State} (hm : Memory.wf s.tbl = true) (x : Slot) :
    Memory.wf (fixUpFrames x s).tbl = true := by
  unfold fixUpFrames
  simp only
  split
  · simpa using hm
  · exact programFrames_tblWf (by simpa using hm) _

theorem fixUpFrames_trace (x : Slot) (s : State) :
    (fixUpFrames x s).trace = s.trace ++ observeEvent x s ::
      (if s.tblAt 0 (.startFrame x) = expStart s.cfg x then [] else frameEvents s.cfg x) := by
  unfold fixUpFrames
  simp only [startObserved_iff]
  split
  · simp [observeEvent, Config.readReplica]
  · rw [programFrames_trace]; simp [observeEvent, Config.readReplica]

/-- The registers after `set_region_authorization` for a valid region (40_region_controller.md R144):
the authorization is merged into each bank's own word, on top of what `ensure_reserved_region` and
the fix-up of the frames leave. -/
theorem setAuthorization_tblAt {s : State} (h : cfgOk s.cfg = true) (hm : Memory.wf s.tbl = true)
    {region : Word} {x : Slot} (hx : regionSlot region = some x) (a : Byte) (c : Bank) (r : TblReg) :
    (setAuthorization region a s).tblAt c r =
      if r = authReg s.cfg x then mergeAuth s.cfg x a ((ensureReserved s).tblAt c r)
      else if s.tblAt 0 (.startFrame x) ≠ expStart s.cfg x ∧ r = .startFrame x then expStart s.cfg x
      else if s.tblAt 0 (.startFrame x) ≠ expStart s.cfg x ∧ r = .endFrame x then expEnd s.cfg x
      else (ensureReserved s).tblAt c r := by
  have h1 := (sameBut_ensureReserved s).cfg
  have h2 := (sameBut_fixUpFrames x (ensureReserved s)).cfg.trans h1
  have k1 : cfgOk (ensureReserved s).cfg = true := by rw [h1]; exact h
  have k2 : cfgOk (fixUpFrames x (ensureReserved s)).cfg = true := by rw [h2]; exact h
  have m1 := ensureReserved_tblWf hm
  have ne := regionSlot_ne_rsv hx
  have st : (ensureReserved s).tblAt 0 (.startFrame x) = s.tblAt 0 (.startFrame x) := by
    rw [ensureReserved_tblAt h hm]
    simp [ne, authReg]
  simp only [setAuthorization, hx, tblAt_barrier]
  rw [rmwAuth_tblAt k2 (fixUpFrames_tblWf m1 _), h2, fixUpFrames_tblAt k1 m1, h1, st]
  by_cases e0 : r = authReg s.cfg x
  · subst e0; simp [authReg]
  · by_cases e1 : s.tblAt 0 (.startFrame x) = expStart s.cfg x <;> simp [e0, e1]

theorem setAuthorization_tblWf {s : State} (hm : Memory.wf s.tbl = true) (region : Word) (a : Byte) :
    Memory.wf (setAuthorization region a s).tbl = true := by
  unfold setAuthorization
  split
  · exact hm
  · rw [barrier_tbl]
    exact rmwAuth_tblWf (fixUpFrames_tblWf (ensureReserved_tblWf hm) _) _ _

/-- The events of `set_region_authorization` for a valid region (40_region_controller.md R145), with
the field in a word of its own. -/
theorem setAuthorization_trace {s : State} (h : cfgOk s.cfg = true) (hm : Memory.wf s.tbl = true)
    {region : Word} {x : Slot} (hx : regionSlot region = some x) (own : ownWord s.cfg x) (a : Byte) :
    (setAuthorization region a s).trace = s.trace ++ setAuthEvents x a s := by
  have h1 := (sameBut_ensureReserved s).cfg
  have h2 := (sameBut_fixUpFrames x (ensureReserved s)).cfg.trans h1
  have k1 : cfgOk (ensureReserved s).cfg = true := by rw [h1]; exact h
  have k2 : cfgOk (fixUpFrames x (ensureReserved s)).cfg = true := by rw [h2]; exact h
  have m1 := ensureReserved_tblWf hm
  have ne := regionSlot_ne_rsv hx
  have st : (ensureReserved s).tblAt 0 (.startFrame x) = s.tblAt 0 (.startFrame x) := by
    rw [ensureReserved_tblAt h hm]
    simp [ne, authReg]
  have word : ∀ c, (fixUpFrames x (ensureReserved s)).tblAt c (authReg s.cfg x) =
      s.tblAt c (authReg s.cfg x) := by
    intro c
    have o : authReg s.cfg x ≠ authReg s.cfg .rsv := own
    rw [fixUpFrames_tblAt k1 m1, st, h1, ensureReserved_tblAt h hm]
    simp only [if_neg o]
    simp [authReg]
  simp only [setAuthorization, hx, barrier_trace]
  rw [rmwAuth_trace k2 (fixUpFrames_tblWf m1 _), fixUpFrames_trace, ensureReserved_trace h hm]
  simp [rmwEvents, h1, h2, word, st, observeEvent, setAuthEvents]

/-! ### What is published -/

/-- What the acting hart has queued is what the observers lack. -/
def CaughtUp (s : State) : Prop :=
  (s.pendOf s.hart).foldl (applyPending s.cfg) s.vis = s.tbl

theorem caughtUp_tblRead {s : State} (h : CaughtUp s) (c : Bank) (r : TblReg) :
    CaughtUp (tblRead c r s) := h

theorem caughtUp_tblWrite {s : State} (h : CaughtUp s) (c : Bank) (r : TblReg) (v : Word32) :
    CaughtUp (tblWrite c r v s) := by
  unfold CaughtUp at *
  simp [h, applyPending]

theorem caughtUp_foldl {f : State → Bank → State} (hf : ∀ s c, CaughtUp s → CaughtUp (f s c))
    (l : List Bank) {s : State} (h : CaughtUp s) : CaughtUp (l.foldl f s) := by
  induction l generalizing s with
  | nil => exact h
  | cons c l ih => exact ih (hf s c h)

theorem caughtUp_programFrames {s : State} (h : CaughtUp s) (x : Slot) :
    CaughtUp (programFrames x s) :=
  caughtUp_foldl (fun _ _ h => caughtUp_tblWrite (caughtUp_tblWrite h _ _ _) _ _ _) _ h

theorem caughtUp_rmwAuth {s : State} (h : CaughtUp s) (x : Slot) (a : Byte) :
    CaughtUp (rmwAuth x a s) :=
  caughtUp_foldl (fun _ _ h => caughtUp_tblWrite (caughtUp_tblRead h _ _) _ _ _) _ h

/-- After a barrier the observers see what the harts see (20_memory.md R72). -/
theorem barrier_vis_of_caughtUp {s : State} (h : CaughtUp s) : (barrier s).vis = (barrier s).tbl := h

theorem caughtUp_barrier {s : State} (h : CaughtUp s) : CaughtUp (barrier s) := by
  unfold CaughtUp at *
  simpa using h

theorem caughtUp_ensureReserved {s : State} (h : CaughtUp s) : CaughtUp (ensureReserved s) := by
  unfold ensureReserved
  simp only
  split
  · exact caughtUp_tblRead h _ _
  · exact caughtUp_barrier
      (caughtUp_rmwAuth (caughtUp_programFrames (caughtUp_tblRead h _ _) _) _ _)

theorem caughtUp_fixUpFrames {s : State} (h : CaughtUp s) (x : Slot) :
    CaughtUp (fixUpFrames x s) := by
  unfold fixUpFrames
  simp only
  split
  · exact caughtUp_tblRead h _ _
  · exact caughtUp_programFrames (caughtUp_tblRead h _ _) _

/-- The queue of another hart is untouched by a table operation. -/
theorem pendOf_foldl {f : State → Bank → State} (k : Hart)
    (hf : ∀ s c, s.hart ≠ k → (f s c).pendOf k = s.pendOf k ∧ (f s c).hart = s.hart)
    (l : List Bank) {s : State} (h : s.hart ≠ k) : (l.foldl f s).pendOf k = s.pendOf k := by
  induction l generalizing s with
  | nil => rfl
  | cons c l ih =>
    obtain ⟨e1, e2⟩ := hf s c h
    rw [List.foldl_cons, ih (by rw [e2]; exact h), e1]

theorem pendOf_programFrames_other {s : State} {k : Hart} (h : s.hart ≠ k) (x : Slot) :
    (programFrames x s).pendOf k = s.pendOf k :=
  pendOf_foldl k (fun s c e => by simp [programBank, e]) _ h

theorem pendOf_rmwAuth_other {s : State} {k : Hart} (h : s.hart ≠ k) (x : Slot) (a : Byte) :
    (rmwAuth x a s).pendOf k = s.pendOf k :=
  pendOf_foldl k (fun s c e => by simp [rmwBank, e]) _ h

end Sys2Proof.Machine
end

