-- ==== Sys2Proof/Laws/Schedule.lean ====
section
/-! SUPPORT. Every operation as one effect and one return, what a step can do, and the operations as
lists of what they do one at a time. -/

namespace Sys2Proof.Machine

/-- The effect of an operation, its return apart. -/
def effectOf : Instr → State → State
  | .ensureReservedRegion => ensureReserved
  | .setRegionAuthorization region a => setAuthorization region a
  | .bind i e => bindCounter i e
  | .resetBaseline => resetCounters
  | .dispatch t i e => dispatchCounter t i e
  | .isColdBootAllowed _ => id
  | .earlyInit => fun s => extCallIf s.cfg.errata.tlbFlush .registerTlbFlushTrapHandler s
  | .extensionsInit => extCall .registerPmuDevice
  | .finalInit => finalHooks
  | .vcallPmuBind _ a1 a2 => dispatchCounter Config.opBind a1 a2
  | .vcallPmuReset _ a0 a1 a2 => dispatchCounter a0 a1 a2
  | .vcallPmpTcm0 a0 _ _ => setAuthorization Config.fidTcm0 (authOperand a0)
  | .vcallPmpTcm1 a0 _ _ => setAuthorization Config.fidTcm1 (authOperand a0)
  | .vcallPmpNop _ _ _ _ => id
  | .vcallNop _ _ _ _ _ => id
  | .vcallLegacyBind _ _ a1 a2 => dispatchCounter Config.opBind a1 a2
  | .vcallLegacyReset _ _ a0 a1 a2 => dispatchCounter a0 a1 a2

/-- Every meaning has the one shape. -/
theorem exec_eq_operate (i : Instr) (s : State) :
    exec i s = operate (effectOf i) (returnOf s.cfg i) s := by cases i <;> rfl

/-- Every operation completes under a configuration that passes the check. -/
theorem exec_next {s : State} (h : cfgOk s.cfg = true) (i : Instr) :
    exec i s = .next (complete (returnOf s.cfg i) (effectOf i s)) := by
  rw [exec_eq_operate, operate_next h]

/-- What `exec` answers, if it answers a next state. -/
theorem exec_inv {i : Instr} {s t : State} (h : exec i s = .next t) :
    cfgOk s.cfg = true ∧ t = complete (returnOf s.cfg i) (effectOf i s) := by
  rw [exec_eq_operate] at h; exact operate_inv h

/-- What a step can do. -/
inductive StepCase (s t : State) : Prop where
  | idle : s.inputs = [] → t = s → StepCase s t
  | unreached (inp : Input) (rest : List Input) :
      s.inputs = inp :: rest → t = { s with inputs := rest } → StepCase s t
  | request (h : Hart) (r : Request) (rest : List Input) (i : Instr) :
      s.inputs = .request h r :: rest → s.busyOf h = [] → decode s.cfg r = .ok i →
      exec i (begun h r i { s with inputs := rest }) = .next t → StepCase s t
  | start (h : Hart) (r : Request) (rest : List Input) (i : Instr) :
      s.inputs = .start h r :: rest → s.busyOf h = [] → decode s.cfg r = .ok i →
      cfgOk s.cfg = true →
      t = setBusy h (micros s.cfg (decide (h = s.coldHart)) i)
        (begun h r i { s with inputs := rest }) → StepCase s t
  | issue (h : Hart) (rest : List Input) :
      s.inputs = .issue h :: rest → t = issueNext { s with inputs := rest, hart := h } → StepCase s t
  | land (h : Hart) (rest : List Input) :
      s.inputs = .land h :: rest → t = landNext h { s with inputs := rest } → StepCase s t

/-- What `receive` answers, if it answers an operation. -/
theorem receive_runs {h : Hart} {r : Request} {s u : State} {i : Instr}
    (e : receive h r s = .runs i u) :
    s.busyOf h = [] ∧ decode s.cfg r = .ok i ∧ u = begun h r i s ∧ reaches r s = true := by
  unfold receive at e
  split at e
  · cases e
  rename_i h1
  split at e
  · cases e
  rename_i h2
  split at e
  · rename_i j hj
    simp only [Admission.runs.injEq] at e
    obtain ⟨rfl, rfl⟩ := e
    exact ⟨by simpa using h2, hj, rfl, by simpa using h1⟩
  · cases e

@[simp] theorem presented_cfg (h : Hart) (r : Request) (s : State) :
    (presented h r s).cfg = s.cfg := by cases r <;> rfl

@[simp] theorem presented_hart (h : Hart) (r : Request) (s : State) :
    (presented h r s).hart = h := by cases r <;> rfl

@[simp] theorem presented_coldHart (h : Hart) (r : Request) (s : State) :
    (presented h r s).coldHart = s.coldHart := by cases r <;> rfl

@[simp] theorem presented_tbl (h : Hart) (r : Request) (s : State) :
    (presented h r s).tbl = s.tbl := by cases r <;> rfl

@[simp] theorem presented_vis (h : Hart) (r : Request) (s : State) :
    (presented h r s).vis = s.vis := by cases r <;> rfl

@[simp] theorem presented_pend (h : Hart) (r : Request) (s : State) :
    (presented h r s).pend = s.pend := by cases r <;> rfl

@[simp] theorem presented_pmu (h : Hart) (r : Request) (s : State) :
    (presented h r s).pmu = s.pmu := by cases r <;> rfl

@[simp] theorem presented_busy (h : Hart) (r : Request) (s : State) :
    (presented h r s).busy = s.busy := by cases r <;> rfl

@[simp] theorem presented_trace (h : Hart) (r : Request) (s : State) :
    (presented h r s).trace = s.trace := by cases r <;> rfl

@[simp] theorem presented_inputs (h : Hart) (r : Request) (s : State) :
    (presented h r s).inputs = s.inputs := by cases r <;> rfl

@[simp] theorem presented_handler (h : Hart) (r : Request) (s : State) :
    (presented h r s).handler = s.handler := by cases r <;> rfl

@[simp] theorem presented_ret (h : Hart) (r : Request) (s : State) :
    (presented h r s).ret = s.ret := by cases r <;> rfl

@[simp] theorem presented_hooks (h : Hart) (r : Request) (s : State) :
    (presented h r s).hooks = s.hooks := by cases r <;> rfl

@[simp] theorem noteHook_cfg (i : Instr) (s : State) : (noteHook i s).cfg = s.cfg := by
  unfold noteHook; split <;> rfl

@[simp] theorem noteHook_hart (i : Instr) (s : State) : (noteHook i s).hart = s.hart := by
  unfold noteHook; split <;> rfl

@[simp] theorem noteHook_coldHart (i : Instr) (s : State) : (noteHook i s).coldHart = s.coldHart := by
  unfold noteHook; split <;> rfl

@[simp] theorem noteHook_tbl (i : Instr) (s : State) : (noteHook i s).tbl = s.tbl := by
  unfold noteHook; split <;> rfl

@[simp] theorem noteHook_vis (i : Instr) (s : State) : (noteHook i s).vis = s.vis := by
  unfold noteHook; split <;> rfl

@[simp] theorem noteHook_pend (i : Instr) (s : State) : (noteHook i s).pend = s.pend := by
  unfold noteHook; split <;> rfl

@[simp] theorem noteHook_pmu (i : Instr) (s : State) : (noteHook i s).pmu = s.pmu := by
  unfold noteHook; split <;> rfl

@[simp] theorem noteHook_call (i : Instr) (s : State) : (noteHook i s).call = s.call := by
  unfold noteHook; split <;> rfl

@[simp] theorem noteHook_ret (i : Instr) (s : State) : (noteHook i s).ret = s.ret := by
  unfold noteHook; split <;> rfl

@[simp] theorem noteHook_busy (i : Instr) (s : State) : (noteHook i s).busy = s.busy := by
  unfold noteHook; split <;> rfl

@[simp] theorem noteHook_trace (i : Instr) (s : State) : (noteHook i s).trace = s.trace := by
  unfold noteHook; split <;> rfl

@[simp] theorem noteHook_handler (i : Instr) (s : State) : (noteHook i s).handler = s.handler := by
  unfold noteHook; split <;> rfl

@[simp] theorem noteHook_inputs (i : Instr) (s : State) : (noteHook i s).inputs = s.inputs := by
  unfold noteHook; split <;> rfl

/-- The only hooks list that changes is the acting hart's, by the hook that begins. -/
@[simp] theorem hooksOf_noteHook (i : Instr) (s : State) (k : Hart) :
    (noteHook i s).hooksOf k =
      if s.hart = k then s.hooksOf k ++ (hookOf i).toList else s.hooksOf k := by
  unfold noteHook
  split
  · simp [*]
  · rename_i j hj
    rw [hooksOf_setHooks]
    split
    · simp [*]
    · rfl

@[simp] theorem begun_cfg (h : Hart) (r : Request) (i : Instr) (s : State) :
    (begun h r i s).cfg = s.cfg := by simp [begun]

@[simp] theorem begun_hart (h : Hart) (r : Request) (i : Instr) (s : State) :
    (begun h r i s).hart = h := by simp [begun]

@[simp] theorem begun_coldHart (h : Hart) (r : Request) (i : Instr) (s : State) :
    (begun h r i s).coldHart = s.coldHart := by simp [begun]

@[simp] theorem begun_tbl (h : Hart) (r : Request) (i : Instr) (s : State) :
    (begun h r i s).tbl = s.tbl := by simp [begun]

@[simp] theorem begun_vis (h : Hart) (r : Request) (i : Instr) (s : State) :
    (begun h r i s).vis = s.vis := by simp [begun]

@[simp] theorem begun_pend (h : Hart) (r : Request) (i : Instr) (s : State) :
    (begun h r i s).pend = s.pend := by simp [begun]

@[simp] theorem begun_pmu (h : Hart) (r : Request) (i : Instr) (s : State) :
    (begun h r i s).pmu = s.pmu := by simp [begun]

@[simp] theorem begun_ret (h : Hart) (r : Request) (i : Instr) (s : State) :
    (begun h r i s).ret = s.ret := by simp [begun]

@[simp] theorem begun_busy (h : Hart) (r : Request) (i : Instr) (s : State) :
    (begun h r i s).busy = s.busy := by simp [begun]

@[simp] theorem begun_trace (h : Hart) (r : Request) (i : Instr) (s : State) :
    (begun h r i s).trace = s.trace := by simp [begun]

@[simp] theorem begun_handler (h : Hart) (r : Request) (i : Instr) (s : State) :
    (begun h r i s).handler = s.handler := by simp [begun]

@[simp] theorem begun_inputs (h : Hart) (r : Request) (i : Instr) (s : State) :
    (begun h r i s).inputs = s.inputs := by simp [begun]

@[simp] theorem hooksOf_presented (h k : Hart) (r : Request) (s : State) :
    (presented h r s).hooksOf k = s.hooksOf k := by simp [State.hooksOf]

@[simp] theorem hooksOf_begun (h k : Hart) (r : Request) (i : Instr) (s : State) :
    (begun h r i s).hooksOf k = if h = k then s.hooksOf k ++ (hookOf i).toList else s.hooksOf k := by
  simp [begun]

/-- Every step is one of these cases. -/
theorem step_cases {s t : State} (e : step s = .next t) : StepCase s t := by
  unfold step at e
  split at e
  · simp only [Host.Outcome.next.injEq] at e; exact .idle ‹_› e.symm
  rename_i inp rest hin
  cases inp with
  | request h r =>
    simp only [takeInput] at e
    split at e
    · rename_i i u ha
      obtain ⟨hb, hd, rfl, _⟩ := receive_runs ha
      exact .request h r rest i hin hb hd e
    · simp only [Host.Outcome.next.injEq] at e; exact .unreached _ rest hin e.symm
    · cases e
  | start h r =>
    simp only [takeInput] at e
    split at e
    · rename_i i u ha
      obtain ⟨hb, hd, rfl, _⟩ := receive_runs ha
      unfold beginOperation at e
      split at e
      · rename_i hc
        simp only [Host.Outcome.next.injEq, begun_cfg, begun_hart, begun_coldHart] at e hc
        exact .start h r rest i hin hb hd hc e.symm
      · cases e
    · simp only [Host.Outcome.next.injEq] at e; exact .unreached _ rest hin e.symm
    · cases e
  | issue h =>
    simp only [takeInput, Host.Outcome.next.injEq] at e; exact .issue h rest hin e.symm
  | land h =>
    simp only [takeInput, Host.Outcome.next.injEq] at e; exact .land h rest hin e.symm

/-! ### Operations in progress publish what they write -/

/-- A rest that publishes queued writes serves as well where none is queued. -/
theorem Fenced.weaken {q : List Micro} (h : Fenced true q) : Fenced false q := by
  generalize hp : true = p at h
  induction h with
  | done => exact .done
  | test _ _ i1 i2 => exact .test (i1 hp) (i2 hp)
  | write h _ => exact .write h
  | rmw h _ => exact .rmw h
  | barrier h _ => exact .barrier h
  | csrWrite _ i => exact .csrWrite (i hp)
  | csrSet _ i => exact .csrSet (i hp)
  | ext _ i => exact .ext (i hp)
  | ret h _ => exact .ret h

theorem Fenced.ofTrue {q : List Micro} (h : Fenced true q) (p : Bool) : Fenced p q := by
  cases p
  · exact h.weaken
  · exact h

/-- The programming of a slot publishes itself, whatever follows. -/
theorem fenced_programming (cfg : Cfg) (x y : Slot) (a : Byte) {q : List Micro}
    (h : Fenced false q) (p : Bool) :
    Fenced p (programMicros cfg x ++ rmwMicros y a ++ .barrier :: q) := by
  simp only [programMicros, rmwMicros, banks, frameMicros, List.flatMap_cons, List.flatMap_nil,
    List.map_cons, List.map_nil, List.cons_append, List.nil_append]
  iterate 8 apply Fenced.write
  iterate 4 apply Fenced.rmw
  exact .barrier h

theorem fenced_rmw (y : Slot) (a : Byte) {q : List Micro} (h : Fenced false q) (p : Bool) :
    Fenced p (rmwMicros y a ++ .barrier :: q) := by
  simp only [rmwMicros, banks, List.map_cons, List.map_nil, List.cons_append, List.nil_append]
  iterate 4 apply Fenced.rmw
  exact .barrier h

theorem fenced_ensure (cfg : Cfg) {q : List Micro} (h : Fenced false q) :
    Fenced false (ensureMicros cfg ++ q) := by
  have e : ensureMicros cfg ++ q = .test .rsv 13 ::
      (programMicros cfg .rsv ++ rmwMicros .rsv cfg.noAccess ++ .barrier :: q) := by
    simp [ensureMicros]
  rw [e]
  refine .test (fenced_programming cfg .rsv .rsv _ h _) ?_
  have : (programMicros cfg .rsv ++ rmwMicros .rsv cfg.noAccess ++ .barrier :: q).drop 13 = q := by
    simp [programMicros, rmwMicros, banks, frameMicros]
  rw [this]; exact h

theorem fenced_setAuth (cfg : Cfg) (region : Word) (a : Byte) {q : List Micro}
    (h : Fenced false q) : Fenced false (setAuthMicros cfg region a ++ q) := by
  unfold setAuthMicros
  split
  · exact h
  · rename_i x _
    rw [List.append_assoc]
    apply fenced_ensure
    rw [List.cons_append, List.append_assoc, List.singleton_append]
    refine .test (fenced_programming cfg x x a h _) ?_
    have : (programMicros cfg x ++ rmwMicros x a ++ .barrier :: q).drop 8 =
        rmwMicros x a ++ .barrier :: q := by
      simp [programMicros, banks, frameMicros]
    rw [this]; exact fenced_rmw x a h _

theorem fenced_csrWrites (l : List Counter) {q : List Micro} (h : Fenced false q) :
    Fenced false ((l.map fun i => Micro.csrWrite (.evt i) (baseline i)) ++ q) := by
  induction l with
  | nil => exact h
  | cons i l ih => exact .csrWrite ih

theorem fenced_dispatch (cfg : Cfg) (t i e : Word) {q : List Micro} (h : Fenced false q) :
    Fenced false (dispatchMicros cfg t i e ++ q) := by
  unfold dispatchMicros
  split
  · unfold bindMicros
    split
    · exact .csrWrite h
    · exact h
  · exact .csrSet (.csrWrite (fenced_csrWrites _ h))

theorem fenced_extMicros (b : Bool) (n : Collaborator) {q : List Micro} (h : Fenced false q) :
    Fenced false (extMicros b n ++ q) := by
  unfold extMicros
  split
  · exact .ext h
  · exact h

/-- Every operation publishes what it writes before it returns (20_memory.md R76). -/
theorem fenced_micros (cfg : Cfg) (cold : Bool) (i : Instr) : Fenced false (micros cfg cold i) := by
  have r : ∀ v, Fenced false [.ret v] := fun v => .ret .done
  unfold micros
  cases i with
  | ensureReservedRegion => exact fenced_ensure cfg (r _)
  | setRegionAuthorization region a => exact fenced_setAuth cfg region a (r _)
  | bind i e =>
    simp only [bodyMicros, bindMicros]
    split
    · exact .csrWrite (r _)
    · exact r _
  | resetBaseline => exact .csrSet (.csrWrite (fenced_csrWrites _ (r _)))
  | dispatch t i e => exact fenced_dispatch cfg t i e (r _)
  | isColdBootAllowed _ => exact r _
  | earlyInit => exact fenced_extMicros _ _ (r _)
  | extensionsInit => exact .ext (r _)
  | finalInit =>
    simp only [bodyMicros, finalMicros]
    split
    · rw [List.append_assoc]; exact fenced_extMicros _ _ (fenced_extMicros _ _ (r _))
    · exact r _
  | vcallPmuBind _ a1 a2 => exact fenced_dispatch cfg _ a1 a2 (r _)
  | vcallPmuReset _ a0 a1 a2 => exact fenced_dispatch cfg a0 a1 a2 (r _)
  | vcallPmpTcm0 a0 _ _ => exact fenced_setAuth cfg Config.fidTcm0 (authOperand a0) (r _)
  | vcallPmpTcm1 a0 _ _ => exact fenced_setAuth cfg Config.fidTcm1 (authOperand a0) (r _)
  | vcallPmpNop _ _ _ _ => exact r _
  | vcallNop _ _ _ _ _ => exact r _
  | vcallLegacyBind _ _ a1 a2 => exact fenced_dispatch cfg _ a1 a2 (r _)
  | vcallLegacyReset _ _ a0 a1 a2 => exact fenced_dispatch cfg a0 a1 a2 (r _)

end Sys2Proof.Machine
end

