-- ==== Sys2Proof/Laws/Effect.lean ====
section
/-! SUPPORT. What every operation keeps, whichever it is: the hart that acts, the operations in
progress, the queues, the canonical form of both views. -/

namespace Sys2Proof.Machine

/-- No operation changes which hart acts. -/
theorem effectOf_hart (i : Instr) (s : State) : (effectOf i s).hart = s.hart := by
  cases i with
  | ensureReservedRegion => exact (sameBut_ensureReserved s).hart
  | setRegionAuthorization r a => simp only [effectOf]; exact (sameBut_setAuthorization _ _ s).hart
  | bind i e => exact (onlyCounters_bindCounter i e s).hart
  | resetBaseline => exact (onlyCounters_resetCounters s).hart
  | dispatch t i e => exact (onlyCounters_dispatchCounter t i e s).hart
  | earlyInit => simp only [effectOf, extCallIf]; split <;> rfl
  | finalInit => simp only [effectOf, finalHooks, extCallIf]; split <;> (try split) <;> (try split) <;> rfl
  | vcallPmuBind _ a1 a2 => exact (onlyCounters_dispatchCounter _ _ _ s).hart
  | vcallPmuReset _ a0 a1 a2 => exact (onlyCounters_dispatchCounter _ _ _ s).hart
  | vcallLegacyBind _ _ a1 a2 => exact (onlyCounters_dispatchCounter _ _ _ s).hart
  | vcallLegacyReset _ _ a0 a1 a2 => exact (onlyCounters_dispatchCounter _ _ _ s).hart
  | vcallPmpTcm0 _ _ _ => simp only [effectOf]; exact (sameBut_setAuthorization _ _ s).hart
  | vcallPmpTcm1 _ _ _ => simp only [effectOf]; exact (sameBut_setAuthorization _ _ s).hart
  | _ => rfl

/-- The memory part of the invariant. -/
structure MemInv (s : State) : Prop where
  tblWf    : Memory.wf s.tbl = true
  visWf    : Memory.wf s.vis = true
  tblInMap : Memory.inTable s.cfg s.tbl = true
  visInMap : Memory.inTable s.cfg s.vis = true

theorem memInv_tblRead {s} (h : MemInv s) (c r) : MemInv (tblRead c r s) := ⟨h.1, h.2, h.3, h.4⟩
theorem memInv_tblWrite {s} (h : MemInv s) (c r v) : MemInv (tblWrite c r v s) :=
  ⟨Memory.writeWord_wf h.1 _ _, h.2, inTable_writeWord h.3 _ _ _, h.4⟩
/-- The landing of any number of writes keeps the canonical form and the map. -/
theorem applyAll_wf (cfg) (l : List Pending) {m : Memory} (h : Memory.wf m = true ∧ Memory.inTable cfg m = true) :
   Memory.wf (l.foldl (applyPending cfg) m) = true ∧ Memory.inTable cfg (l.foldl (applyPending cfg) m) = true := by
  induction l generalizing m with
  | nil => exact h
  | cons p l ih => exact ih ⟨Memory.writeWord_wf h.1 _ _, inTable_writeWord h.2 _ _ _⟩
theorem memInv_barrier {s} (h : MemInv s) : MemInv (barrier s) :=
  ⟨h.1, (applyAll_wf s.cfg _ ⟨h.2, h.4⟩).1, h.3, (applyAll_wf s.cfg _ ⟨h.2, h.4⟩).2⟩
theorem memInv_foldl {f : State → Bank → State} (hf : ∀ s c, MemInv s → MemInv (f s c)) (l : List Bank) {s} (h : MemInv s) : MemInv (l.foldl f s) := by
  induction l generalizing s with
  | nil => exact h
  | cons c l ih => exact ih (hf s c h)
theorem memInv_programFrames {s} (h : MemInv s) (x) : MemInv (programFrames x s) := memInv_foldl (fun _ _ h => memInv_tblWrite (memInv_tblWrite h _ _ _) _ _ _) _ h
theorem memInv_rmwAuth {s} (h : MemInv s) (x a) : MemInv (rmwAuth x a s) := memInv_foldl (fun _ _ h => memInv_tblWrite (memInv_tblRead h _ _) _ _ _) _ h
theorem memInv_ensureReserved {s} (h : MemInv s) : MemInv (ensureReserved s) := by
  unfold ensureReserved; simp only; split
  · exact memInv_tblRead h _ _
  · exact memInv_barrier (memInv_rmwAuth (memInv_programFrames (memInv_tblRead h _ _) _) _ _)
theorem memInv_fixUpFrames {s} (h : MemInv s) (x) : MemInv (fixUpFrames x s) := by
  unfold fixUpFrames; simp only; split
  · exact memInv_tblRead h _ _
  · exact memInv_programFrames (memInv_tblRead h _ _) _
theorem memInv_setAuthorization {s} (h : MemInv s) (r a) : MemInv (setAuthorization r a s) := by
  unfold setAuthorization; split
  · exact h
  · exact memInv_barrier (memInv_rmwAuth (memInv_fixUpFrames (memInv_ensureReserved h) _) _ _)
theorem memInv_onlyCounters {s t : State} (o : OnlyCounters s t) (h : MemInv s) : MemInv t := by
  obtain ⟨a,b,c,d⟩ := h
  constructor <;> simp only [o.cfg, o.tbl, o.vis] <;> assumption
theorem memInv_complete {s : State} (h : MemInv s) (r) : MemInv (complete r s) := by
  obtain ⟨a,b,c,d⟩ := h
  constructor <;> simp <;> assumption
theorem memInv_extCallIf {s} (h : MemInv s) (b n) : MemInv (extCallIf b n s) := by
  unfold extCallIf; split
  · exact ⟨h.1,h.2,h.3,h.4⟩
  · exact h
/-- Every operation keeps the canonical form of both views and lists nothing outside the table. -/
theorem memInv_effectOf {s} (h : MemInv s) (i) : MemInv (effectOf i s) := by
  cases i with
  | ensureReservedRegion => exact memInv_ensureReserved h
  | setRegionAuthorization r a => simp only [effectOf]; exact memInv_setAuthorization h _ _
  | bind i e => exact memInv_onlyCounters (onlyCounters_bindCounter i e s) h
  | resetBaseline => exact memInv_onlyCounters (onlyCounters_resetCounters s) h
  | dispatch t i e => exact memInv_onlyCounters (onlyCounters_dispatchCounter t i e s) h
  | isColdBootAllowed _ => exact h
  | earlyInit => exact memInv_extCallIf h _ _
  | extensionsInit => exact ⟨h.1,h.2,h.3,h.4⟩
  | finalInit =>
    simp only [effectOf, finalHooks]; split
    · exact memInv_extCallIf (memInv_extCallIf h _ _) _ _
    · exact h
  | vcallPmuBind _ a1 a2 => exact memInv_onlyCounters (onlyCounters_dispatchCounter _ _ _ s) h
  | vcallPmuReset _ a0 a1 a2 => exact memInv_onlyCounters (onlyCounters_dispatchCounter _ _ _ s) h
  | vcallPmpTcm0 _ _ _ => simp only [effectOf]; exact memInv_setAuthorization h _ _
  | vcallPmpTcm1 _ _ _ => simp only [effectOf]; exact memInv_setAuthorization h _ _
  | vcallPmpNop _ _ _ _ => exact h
  | vcallNop _ _ _ _ _ => exact h
  | vcallLegacyBind _ _ a1 a2 => exact memInv_onlyCounters (onlyCounters_dispatchCounter _ _ _ s) h
  | vcallLegacyReset _ _ a0 a1 a2 => exact memInv_onlyCounters (onlyCounters_dispatchCounter _ _ _ s) h

/-- An operation begun with its hart's queue empty leaves every queue as it was. -/
theorem effectOf_pend (i : Instr) (s : State) (h0 : s.pendOf s.hart = []) (k : Hart) : (effectOf i s).pendOf k = s.pendOf k := by
  have ens : ∀ s : State, s.pendOf s.hart = [] → ∀ k, (ensureReserved s).pendOf k = s.pendOf k := by
    intro s h0 k
    unfold ensureReserved; simp only; split
    · rfl
    · rw [pendOf_barrier]
      have hh : (rmwAuth .rsv s.cfg.noAccess (programFrames .rsv (tblRead Config.readReplica (.startFrame .rsv) s))).hart = s.hart :=
        (sameBut_rmwAuth _ _ _).hart.trans (sameBut_programFrames _ _).hart
      rw [hh]
      split
      · subst_vars; exact h0.symm
      · rename_i hk
        rw [pendOf_rmwAuth_other (by rw [(sameBut_programFrames _ _).hart]; exact hk), pendOf_programFrames_other (by exact hk)]; rfl
  have set : ∀ r a, (setAuthorization r a s).pendOf k = s.pendOf k := by
    intro r a
    unfold setAuthorization; split
    · rfl
    · rename_i x hx
      have e1 := (sameBut_ensureReserved s).hart
      have e2 := (sameBut_fixUpFrames x (ensureReserved s)).hart.trans e1
      have e3 := (sameBut_rmwAuth x a (fixUpFrames x (ensureReserved s))).hart.trans e2
      rw [pendOf_barrier, e3]
      split
      · subst_vars; exact h0.symm
      · rename_i hk
        rw [pendOf_rmwAuth_other (by rw [e2]; exact hk)]
        unfold fixUpFrames; simp only; split
        · rw [pendOf_tblRead]; exact ens s h0 k
        · rw [pendOf_programFrames_other (by rw [tblRead_hart, e1]; exact hk), pendOf_tblRead]; exact ens s h0 k
  have cnt : ∀ t, OnlyCounters s t → t.pendOf k = s.pendOf k := fun t o => by simp [State.pendOf, o.pend]
  have exi : ∀ b n (s : State), (extCallIf b n s).pendOf k = s.pendOf k := by intro b n s; unfold extCallIf; split <;> rfl
  cases i with
  | ensureReservedRegion => exact ens s h0 k
  | setRegionAuthorization r a => simp only [effectOf]; exact set _ _
  | bind i e => exact cnt _ (onlyCounters_bindCounter i e s)
  | resetBaseline => exact cnt _ (onlyCounters_resetCounters s)
  | dispatch t i e => exact cnt _ (onlyCounters_dispatchCounter t i e s)
  | isColdBootAllowed _ => rfl
  | earlyInit => exact exi _ _ _
  | extensionsInit => rfl
  | finalInit =>
    simp only [effectOf, finalHooks]; split
    · rw [exi, exi]
    · rfl
  | vcallPmuBind _ a1 a2 => exact cnt _ (onlyCounters_dispatchCounter _ _ _ s)
  | vcallPmuReset _ a0 a1 a2 => exact cnt _ (onlyCounters_dispatchCounter _ _ _ s)
  | vcallPmpTcm0 _ _ _ => simp only [effectOf]; exact set _ _
  | vcallPmpTcm1 _ _ _ => simp only [effectOf]; exact set _ _
  | vcallPmpNop _ _ _ _ => rfl
  | vcallNop _ _ _ _ _ => rfl
  | vcallLegacyBind _ _ a1 a2 => exact cnt _ (onlyCounters_dispatchCounter _ _ _ s)
  | vcallLegacyReset _ _ a0 a1 a2 => exact cnt _ (onlyCounters_dispatchCounter _ _ _ s)

/-- No operation begins or ends another one. -/
theorem effectOf_busy (i : Instr) (s : State) : (effectOf i s).busy = s.busy := by
  have exi : ∀ b n (s : State), (extCallIf b n s).busy = s.busy := by intro b n s; unfold extCallIf; split <;> rfl
  cases i with
  | ensureReservedRegion => exact (sameBut_ensureReserved s).busy
  | setRegionAuthorization r a => simp only [effectOf]; exact (sameBut_setAuthorization _ _ s).busy
  | bind i e => exact (onlyCounters_bindCounter i e s).busy
  | resetBaseline => exact (onlyCounters_resetCounters s).busy
  | dispatch t i e => exact (onlyCounters_dispatchCounter t i e s).busy
  | earlyInit => exact exi _ _ _
  | finalInit =>
    simp only [effectOf, finalHooks]; split
    · rw [exi, exi]
    · rfl
  | vcallPmuBind _ a1 a2 => exact (onlyCounters_dispatchCounter _ _ _ s).busy
  | vcallPmuReset _ a0 a1 a2 => exact (onlyCounters_dispatchCounter _ _ _ s).busy
  | vcallLegacyBind _ _ a1 a2 => exact (onlyCounters_dispatchCounter _ _ _ s).busy
  | vcallLegacyReset _ _ a0 a1 a2 => exact (onlyCounters_dispatchCounter _ _ _ s).busy
  | vcallPmpTcm0 _ _ _ => simp only [effectOf]; exact (sameBut_setAuthorization _ _ s).busy
  | vcallPmpTcm1 _ _ _ => simp only [effectOf]; exact (sameBut_setAuthorization _ _ s).busy
  | _ => rfl

/-- The memory part of the invariant. -/
theorem State.Inv.memInv {s : State} (h : s.Inv) : MemInv s := ⟨h.1,h.2,h.3,h.4⟩
/-- On a hart with no operation in progress nothing is queued. -/
theorem State.Inv.idle_pend {s : State} (h : s.Inv) {k} (hb : s.busyOf k = []) : s.pendOf k = [] := by
  have := h.fenced k
  rw [hb] at this
  generalize hp : decide (s.pendOf k ≠ []) = p at this
  cases this
  simpa using hp

/-- Every operation keeps the two views one drain apart. -/
theorem effectOf_caughtUp (i : Instr) {s : State} (h : CaughtUp s) : CaughtUp (effectOf i s) := by
  have cnt : ∀ t, OnlyCounters s t → CaughtUp t := by
    intro t o; unfold CaughtUp at *; simp only [State.pendOf, o.hart, o.pend, o.cfg, o.vis, o.tbl]; exact h
  have set : ∀ r a, CaughtUp (setAuthorization r a s) := by
    intro r a; unfold setAuthorization; split
    · exact h
    · exact caughtUp_barrier (caughtUp_rmwAuth (caughtUp_fixUpFrames (caughtUp_ensureReserved h) _) _ _)
  have exi : ∀ b n (s : State), CaughtUp s → CaughtUp (extCallIf b n s) := by intro b n s h; unfold extCallIf; split <;> exact h
  cases i with
  | ensureReservedRegion => exact caughtUp_ensureReserved h
  | setRegionAuthorization r a => exact set _ _
  | bind i e => exact cnt _ (onlyCounters_bindCounter i e s)
  | resetBaseline => exact cnt _ (onlyCounters_resetCounters s)
  | dispatch t i e => exact cnt _ (onlyCounters_dispatchCounter t i e s)
  | isColdBootAllowed _ => exact h
  | earlyInit => exact exi _ _ _ h
  | extensionsInit => exact h
  | finalInit =>
    simp only [effectOf, finalHooks]; split
    · exact exi _ _ _ (exi _ _ _ h)
    · exact h
  | vcallPmuBind _ a1 a2 => exact cnt _ (onlyCounters_dispatchCounter _ _ _ s)
  | vcallPmuReset _ a0 a1 a2 => exact cnt _ (onlyCounters_dispatchCounter _ _ _ s)
  | vcallPmpTcm0 _ _ _ => simp only [effectOf]; exact set _ _
  | vcallPmpTcm1 _ _ _ => simp only [effectOf]; exact set _ _
  | vcallPmpNop _ _ _ _ => exact h
  | vcallNop _ _ _ _ _ => exact h
  | vcallLegacyBind _ _ a1 a2 => exact cnt _ (onlyCounters_dispatchCounter _ _ _ s)
  | vcallLegacyReset _ _ a0 a1 a2 => exact cnt _ (onlyCounters_dispatchCounter _ _ _ s)

end Sys2Proof.Machine
end

