-- ==== Sys2Proof/Laws/PerInstr.lean ====
section
/-! SUPPORT. What holds of every operation as syntax, one lemma per constructor of `Instr`. -/

namespace Sys2Proof.Laws.Format

open Sys2Proof.Machine

/-- The format of an operation (30_encoding.md R100, R110): a row of the dispatcher is encoded as a
vendor call, every other operation as an entry point, and an entry point has no condition on the
configuration. -/
def Statement (i : Instr) : Prop :=
  ∀ cfg : Cfg,
    (isVendorCall i = true → ∃ c, encode cfg i = .vcall c) ∧
    (isVendorCall i = false →
      (∃ ep args, encode cfg i = .proc ep args ∧ ep.toNat < 9) ∧ i.wellFormed cfg = true)

theorem ensureReservedRegion : Statement (.ensureReservedRegion) :=
  fun _ => ⟨nofun, fun _ => ⟨⟨_, _, rfl, by decide⟩, rfl⟩⟩

theorem setRegionAuthorization (p : Word) (q : Byte) : Statement (.setRegionAuthorization p q) :=
  fun _ => ⟨nofun, fun _ => ⟨⟨_, _, rfl, by decide⟩, rfl⟩⟩

theorem bind (p q : Word) : Statement (.bind p q) :=
  fun _ => ⟨nofun, fun _ => ⟨⟨_, _, rfl, by decide⟩, rfl⟩⟩

theorem resetBaseline : Statement (.resetBaseline) :=
  fun _ => ⟨nofun, fun _ => ⟨⟨_, _, rfl, by decide⟩, rfl⟩⟩

theorem dispatch (p q r : Word) : Statement (.dispatch p q r) :=
  fun _ => ⟨nofun, fun _ => ⟨⟨_, _, rfl, by decide⟩, rfl⟩⟩

theorem isColdBootAllowed (p : Word) : Statement (.isColdBootAllowed p) :=
  fun _ => ⟨nofun, fun _ => ⟨⟨_, _, rfl, by decide⟩, rfl⟩⟩

theorem earlyInit : Statement (.earlyInit) :=
  fun _ => ⟨nofun, fun _ => ⟨⟨_, _, rfl, by decide⟩, rfl⟩⟩

theorem extensionsInit : Statement (.extensionsInit) :=
  fun _ => ⟨nofun, fun _ => ⟨⟨_, _, rfl, by decide⟩, rfl⟩⟩

theorem finalInit : Statement (.finalInit) :=
  fun _ => ⟨nofun, fun _ => ⟨⟨_, _, rfl, by decide⟩, rfl⟩⟩

theorem vcallPmuBind (p q r : Word) : Statement (.vcallPmuBind p q r) :=
  fun _ => ⟨fun _ => ⟨_, rfl⟩, nofun⟩

theorem vcallPmuReset (p q r u : Word) : Statement (.vcallPmuReset p q r u) :=
  fun _ => ⟨fun _ => ⟨_, rfl⟩, nofun⟩

theorem vcallPmpTcm0 (p q r : Word) : Statement (.vcallPmpTcm0 p q r) :=
  fun _ => ⟨fun _ => ⟨_, rfl⟩, nofun⟩

theorem vcallPmpTcm1 (p q r : Word) : Statement (.vcallPmpTcm1 p q r) :=
  fun _ => ⟨fun _ => ⟨_, rfl⟩, nofun⟩

theorem vcallPmpNop (p q r u : Word) : Statement (.vcallPmpNop p q r u) :=
  fun _ => ⟨fun _ => ⟨_, rfl⟩, nofun⟩

theorem vcallNop (p q r u v : Word) : Statement (.vcallNop p q r u v) :=
  fun _ => ⟨fun _ => ⟨_, rfl⟩, nofun⟩

theorem vcallLegacyBind (p q r u : Word) : Statement (.vcallLegacyBind p q r u) :=
  fun _ => ⟨fun _ => ⟨_, rfl⟩, nofun⟩

theorem vcallLegacyReset (p q r u v : Word) : Statement (.vcallLegacyReset p q r u v) :=
  fun _ => ⟨fun _ => ⟨_, rfl⟩, nofun⟩

end Sys2Proof.Laws.Format
end

