-- ==== Sys2Proof/Tests/Slice0.lean ====
section
/-! SUPPORT. Tests of the model's author: the checks of well-formedness, the decoding of written-out
requests, one step of every operation with results taken by hand from 95_test_vectors.md, and for
every obligation that has hypotheses a concrete case that meets them. -/

namespace Sys2Proof.Tests

open Sys2Proof Sys2Proof.Machine

/-! ### Helpers -/

abbrev tcfg : Cfg := Config.reference
abbrev legacyCfg : Cfg := Config.reference.onPath .legacy

/-- TCFG, L_ZERO, P_ZERO, the dispatcher registered. -/
def ready : State := { State.reset with handler := true }

def onLegacy (s : State) : State := { s with cfg := legacyCfg }

/-- A table register at launch: both views hold it. -/
def launch (c : Bank) (r : TblReg) (v : Word32) (s : State) : State :=
  { s with
    tbl := Memory.writeWord s.tbl (regAddr s.cfg c r) v
    vis := Memory.writeWord s.vis (regAddr s.cfg c r) v }

/-- The same value at launch in every bank. -/
def launchAll (r : TblReg) (v : Word32) (s : State) : State :=
  banks.foldl (fun s c => launch c r v s) s

/-- Bank 0's reserved start frame matches. -/
def matched : State := launch 0 (.startFrame .rsv) 0x8040 ready

/-- The launch state of V-RC-2. -/
def vrc2 : State :=
  launch 0 (.startFrame .tcm0) 0x8000 <| launch 0 (.startFrame .tcm1) 0x8020 <|
  launch 0 (.cfgWord .w6) 0xAABBCCDD <| launch 1 (.cfgWord .w6) 0x11223344 <|
  launch 2 (.cfgWord .w6) 0xFFFFFFFF matched

/-- P_AAAA. -/
def paaaa : State :=
  { ready with pmu := Vector.replicate 4 ⟨Vector.replicate 29 0xAAAA, 0x222, 0⟩ }

/-- The state a result holds, or the one given. -/
def after (s : State) : Result → State
  | .next t => t
  | .fault _ => s
  | .refused _ => s

def runs : Result → Bool
  | .next _ => true
  | .fault _ => false
  | .refused _ => false

theorem next_of_runs {r : Result} (h : runs r = true) : ∃ t, r = .next t := by
  cases r with
  | next t => exact ⟨t, rfl⟩
  | fault f => cases f
  | refused e => cases h

/-- A register in the four banks. -/
def inBanks (s : State) (r : TblReg) : List Word32 := banks.map fun c => s.tblAt c r

/-- EVT(i) of a hart. -/
def evt (s : State) (h : Hart) (i : Nat) : Word := (s.pmuOf h).evt.toList.getD (i - 3) 0

/-- One operation run on the acting hart. -/
def perform (i : Instr) (s : State) : State := after s (exec i s)

/-- One vendor call presented on a hart, by a step. -/
def call (h : Hart) (c : Call) (s : State) : State :=
  after s (step { s with inputs := [.request h (.vcall c)] })

/-! ### Well-formedness: every check refuses an ill-formed operation -/

theorem test_wf_pmuBind_legacy : (Instr.vcallPmuBind 0 5 42).wellFormed legacyCfg = false :=
  by decide
theorem test_wf_pmuReset_legacy : (Instr.vcallPmuReset 0 7 0 0).wellFormed legacyCfg = false :=
  by decide
theorem test_wf_pmuReset_type2 : (Instr.vcallPmuReset 0 2 0 0).wellFormed tcfg = false := by decide
theorem test_wf_pmpTcm0_legacy : (Instr.vcallPmpTcm0 0 0 0).wellFormed legacyCfg = false :=
  by decide
theorem test_wf_pmpTcm1_legacy : (Instr.vcallPmpTcm1 0 0 0).wellFormed legacyCfg = false :=
  by decide
theorem test_wf_pmpNop_legacy : (Instr.vcallPmpNop 9 0 0 0).wellFormed legacyCfg = false :=
  by decide
theorem test_wf_pmpNop_fid0 : (Instr.vcallPmpNop 0 0 0 0).wellFormed tcfg = false := by decide
theorem test_wf_pmpNop_fid1 : (Instr.vcallPmpNop 1 0 0 0).wellFormed tcfg = false := by decide
theorem test_wf_nop_legacy : (Instr.vcallNop 7 0 0 0 0).wellFormed legacyCfg = false := by decide
theorem test_wf_nop_pmu : (Instr.vcallNop 0x09000001 0 0 0 0).wellFormed tcfg = false := by decide
theorem test_wf_nop_pmp : (Instr.vcallNop 0x09000002 0 0 0 0).wellFormed tcfg = false := by decide
theorem test_wf_legacyBind_aware : (Instr.vcallLegacyBind 0 0 0 0).wellFormed tcfg = false :=
  by decide
theorem test_wf_legacyReset_aware : (Instr.vcallLegacyReset 0 0 0 0 0).wellFormed tcfg = false := by
  decide
theorem test_wf_legacyReset_type2 : (Instr.vcallLegacyReset 0 0 2 0 0).wellFormed legacyCfg = false := by
  decide

/-! ### Decoding of requests written out from 30_encoding.md R104, R105, R110 and from the vectors of
95_test_vectors.md 3.3, with the selector each vector states -/

theorem test_sel_VVC : [selector tcfg ⟨0x09000001, 0, 2, 5, 42⟩, selector tcfg ⟨0x09000001, 99, 2, 5, 42⟩,
    selector tcfg ⟨0x09000001, 0, 7, 0, 0⟩, selector tcfg ⟨0x09000002, 0, 0x11, 0, 0⟩,
    selector tcfg ⟨0x09000002, 0, 2, 0, 0⟩, selector tcfg ⟨0x09000002, 1, 0x22, 0, 0⟩,
    selector tcfg ⟨0x09000002, 9, 0xFF, 0, 0⟩, selector tcfg ⟨0x09000003, 0, 2, 5, 42⟩,
    selector legacyCfg ⟨0x09000002, 0, 0x11, 0, 0⟩, selector legacyCfg ⟨0x09000003, 7, 2, 5, 42⟩] =
    [0x09, 0x0D, 0x08, 0x10, 0x11, 0x12, 0x14, 0x01, 0x30, 0x25] := by decide

theorem test_decode_ep0 : decode tcfg (.proc 0b0000 []) = .ok .ensureReservedRegion := by decide
theorem test_decode_ep1 :
    decode tcfg (.proc 0b0001 [.word 1, .byte 0x5A]) = .ok (.setRegionAuthorization 1 0x5A) :=
  by decide
theorem test_decode_ep2 : decode tcfg (.proc 0b0010 [.word 5, .word 42]) = .ok (.bind 5 42) :=
  by decide
theorem test_decode_ep3 : decode tcfg (.proc 0b0011 []) = .ok .resetBaseline := by decide
theorem test_decode_ep4 :
    decode tcfg (.proc 0b0100 [.word 2, .word 5, .word 42]) = .ok (.dispatch 2 5 42) := by decide
theorem test_decode_ep5 : decode tcfg (.proc 0b0101 [.word 3]) = .ok (.isColdBootAllowed 3) :=
  by decide
theorem test_decode_ep6 : decode tcfg (.proc 0b0110 []) = .ok .earlyInit := by decide
theorem test_decode_ep7 : decode tcfg (.proc 0b0111 []) = .ok .extensionsInit := by decide
theorem test_decode_ep8 : decode tcfg (.proc 0b1000 []) = .ok .finalInit := by decide
theorem test_decode_ep9 : decode tcfg (.proc 0b1001 []) = .error (.unknownEntryPoint 9) := by decide
theorem test_decode_untyped :
    decode tcfg (.proc 0b0001 [.word 1, .word 0x5A]) = .error (.wrongOperands 1) := by decide
theorem test_decode_VVC1 :
    decode tcfg (.vcall ⟨0x09000001, 0, 2, 5, 42⟩) = .ok (.vcallPmuBind 0 5 42) := by decide
theorem test_decode_VVC3 :
    decode tcfg (.vcall ⟨0x09000001, 0, 7, 0, 0⟩) = .ok (.vcallPmuReset 0 7 0 0) := by decide
theorem test_decode_VVC5 :
    decode tcfg (.vcall ⟨0x09000002, 0, 2, 0, 0⟩) = .ok (.vcallPmpTcm0 2 0 0) := by decide
theorem test_decode_VVC6 :
    decode tcfg (.vcall ⟨0x09000002, 1, 0x22, 0, 0⟩) = .ok (.vcallPmpTcm1 0x22 0 0) := by decide
theorem test_decode_VVC7 :
    decode tcfg (.vcall ⟨0x09000002, 9, 0xFF, 0, 0⟩) = .ok (.vcallPmpNop 9 0xFF 0 0) := by decide
theorem test_decode_VVC8 :
    decode tcfg (.vcall ⟨0x09000003, 0, 2, 5, 42⟩) = .ok (.vcallNop 0x09000003 0 2 5 42) :=
  by decide
theorem test_decode_VVC12 : decode legacyCfg (.vcall ⟨0x09000002, 0, 0x11, 0, 0⟩) =
    .ok (.vcallLegacyReset 0x09000002 0 0x11 0 0) := by decide
theorem test_decode_VVC13 : decode legacyCfg (.vcall ⟨0x09000003, 7, 2, 5, 42⟩) =
    .ok (.vcallLegacyBind 0x09000003 7 5 42) := by decide

/-- Words of the opcode table: an EP, selectors, and a selector no call has. -/
theorem test_tableWords : decodeTableWord 8 0x03 = some .resetBaseline ∧
    decodeTableWord 8 0x12 = some (.vcallPmpTcm1 0 0 0) ∧
    decodeTableWord 8 0x20 = some (.vcallLegacyReset 0 0 0 0 0) ∧
    decodeTableWord 8 0x18 = none := by decide

/-- The request of a table word runs as the first operation after reset. -/
theorem test_withFetchWord :
    (after State.reset (step (State.reset.withFetchWord 8 0x12))).trace.length = 36 ∧
    (after State.reset (step (State.reset.withFetchWord 8 0x12))).retOf 0 = .status 0 0 :=
  by decide +kernel

/-! ### One operation each -/

/-- V-RC-1 step A. -/
theorem test_ensure_VRC1 : (perform .ensureReservedRegion ready).trace =
    [ .regRd 0 (.startFrame .rsv) 0,
      .regWr 0 (.startFrame .rsv) 0x8040, .regWr 0 (.endFrame .rsv) 0x8100,
      .regWr 1 (.startFrame .rsv) 0x8040, .regWr 1 (.endFrame .rsv) 0x8100,
      .regWr 2 (.startFrame .rsv) 0x8040, .regWr 2 (.endFrame .rsv) 0x8100,
      .regWr 3 (.startFrame .rsv) 0x8040, .regWr 3 (.endFrame .rsv) 0x8100,
      .regRd 0 (.cfgWord .w7) 0, .regWr 0 (.cfgWord .w7) 0,
      .regRd 1 (.cfgWord .w7) 0, .regWr 1 (.cfgWord .w7) 0,
      .regRd 2 (.cfgWord .w7) 0, .regWr 2 (.cfgWord .w7) 0,
      .regRd 3 (.cfgWord .w7) 0, .regWr 3 (.cfgWord .w7) 0, .barrier ] := by decide +kernel

/-- V-RC-3, under TCFG2. -/
theorem test_ensure_VRC3 :
    inBanks (perform .ensureReservedRegion
      (launchAll (.cfgWord .w7) 0xDEADBEEF { ready with cfg := { tcfg with noAccess := 0x80 } }))
      (.cfgWord .w7) = [0xDEADBE80, 0xDEADBE80, 0xDEADBE80, 0xDEADBE80] := by decide +kernel

/-- V-RC-2, first call: unequal banks, 11 events. -/
theorem test_setAuthorization_VRC2 :
    inBanks (perform (.setRegionAuthorization 0 0x5A) vrc2) (.cfgWord .w6) =
      [0xAA5ACCDD, 0x115A3344, 0xFF5AFFFF, 0x005A0000] ∧
    (perform (.setRegionAuthorization 0 0x5A) vrc2).trace.length = 11 := by decide +kernel

/-- V-RC-8, first call. -/
theorem test_setAuthorization_VRC8 :
    inBanks (perform (.setRegionAuthorization 1 0) (launchAll (.cfgWord .w6) 0xFFFFFFFF vrc2))
      (.cfgWord .w6) = [0x00FFFFFF, 0x00FFFFFF, 0x00FFFFFF, 0x00FFFFFF] := by decide +kernel

/-- V-PM-5. -/
theorem test_bind_VPM5 : evt (perform (.bind 31 0xFFFFFFFFFFFFFFFF) paaaa) 0 31 = 0xFFFFFFFFFFFFFFFF ∧
    evt (perform (.bind 3 0) paaaa) 0 3 = 0 ∧
    evt (perform (.bind 3 0) paaaa) 0 4 = 0xAAAA := by decide +kernel

/-- V-PM-4. -/
theorem test_bind_VPM4 : (perform (.bind 2 7) paaaa).pmu = paaaa.pmu ∧
    (perform (.bind 32 7) paaaa).trace = [] := by decide +kernel

/-- V-PM-8: on hart 1. -/
theorem test_resetBaseline_VPM8 :
    (((perform .resetBaseline { ready with hart := 1 }).pmuOf 1).ideleg = 0x20000) ∧
    (perform .resetBaseline { ready with hart := 1 }).pmuOf 0 = ready.pmuOf 0 := by decide +kernel

/-- V-PM-2. -/
theorem test_dispatch_VPM2 :
    let t := perform (.dispatch 7 123 456) paaaa
    [evt t 0 3, evt t 0 10, evt t 0 16, evt t 0 28, evt t 0 29] = [1, 8, 14, 26, 0xAAAA] ∧
    (t.pmuOf 0).ideleg = 0x20222 ∧ (t.pmuOf 0).wen = 0xFFFFFFFF ∧ t.trace.length = 28 := by
  decide +kernel

/-- V-PM-6: 2 + 2^32 is no bind. -/
theorem test_dispatch_VPM6 : (perform (.dispatch 0x100000002 5 42) paaaa).trace.length = 28 ∧
    (perform (.dispatch 2 40 1) paaaa).trace = [] := by decide +kernel

/-- V-BC-1 and V-BC-2. -/
theorem test_coldBoot_VBC :
    (perform (.isColdBootAllowed 7) ready).retOf 0 = .boolean true ∧
    (perform (.isColdBootAllowed 2) { ready with cfg := { tcfg with coldBootHart := some 2 } }).retOf 0 =
      .boolean true ∧
    (perform (.isColdBootAllowed 7) { ready with cfg := { tcfg with coldBootHart := some 2 } }).retOf 0 =
      .boolean false := by decide +kernel

/-- V-BC-3, rows 1 and 3. -/
theorem test_earlyInit_VBC3 : (perform .earlyInit ready).trace = [] ∧
    (perform .earlyInit { ready with cfg := { tcfg with errata := ⟨true, true⟩ } }).trace =
      [.ext .registerTlbFlushTrapHandler] := by decide +kernel

theorem test_extensionsInit_VBC3 :
    (perform .extensionsInit ready).trace = [.ext .registerPmuDevice] := by decide +kernel

/-- V-BC-3, rows 3, 4 and a hart that does not perform cold boot. -/
theorem test_finalInit_VBC3 :
    (perform .finalInit { State.reset with cfg := { tcfg with errata := ⟨true, true⟩ } }).trace =
      [.ext .installPowerControlDevice, .ext .registerVendorExtensionHandler] ∧
    (perform .finalInit { State.reset with
      cfg := { tcfg with errata := ⟨false, true⟩, matchedCompat := "other" } }).trace =
      [.ext .installPowerControlDevice] ∧
    (perform .finalInit { State.reset with hart := 3 }).trace = [] := by decide +kernel

/-- Until `final_init` has run no call reaches the dispatcher; afterwards it does (R193). -/
theorem test_finalInit_registers : (call 0 ⟨0x09000001, 0, 2, 5, 42⟩ State.reset).trace = [] ∧
    (perform .finalInit State.reset).handler = true := by decide +kernel

/-- V-VC-1, on hart 2. -/
theorem test_pmuBind_VVC1 : (call 2 ⟨0x09000001, 0, 2, 5, 42⟩ ready).trace = [.csrWr 2 (.evt 2) 42] ∧
    evt (call 2 ⟨0x09000001, 0, 2, 5, 42⟩ ready) 2 5 = 42 ∧
    (call 2 ⟨0x09000001, 0, 2, 5, 42⟩ ready).retOf 2 = .status 0 0 := by decide +kernel

/-- V-VC-14: out of range, still success. -/
theorem test_pmuBind_VVC14 : (call 0 ⟨0x09000001, 0, 2, 40, 1⟩ ready).trace = [] ∧
    (call 0 ⟨0x09000001, 0, 2, 40, 1⟩ ready).retOf 0 = .status 0 0 := by decide +kernel

/-- V-VC-3. -/
theorem test_pmuReset_VVC3 : (call 0 ⟨0x09000001, 0, 7, 0, 0⟩ ready).trace.length = 28 ∧
    evt (call 0 ⟨0x09000001, 0, 7, 0, 0⟩ ready) 0 28 = 26 := by decide +kernel

/-- V-VC-9 and 42_call_dispatcher.md R183: 36 events, the upper bits of a0 dropped. -/
theorem test_pmpTcm0_VVC9 :
    inBanks (call 0 ⟨0x09000002, 0, 0x111, 0, 0⟩ ready) (.cfgWord .w6) =
      [0x00110000, 0x00110000, 0x00110000, 0x00110000] ∧
    (call 0 ⟨0x09000002, 0, 0x111, 0, 0⟩ ready).trace.length = 36 := by decide +kernel

/-- 42_call_dispatcher.md R184. -/
theorem test_pmpTcm1_R184 :
    inBanks (call 0 ⟨0x09000002, 1, 0x22, 0, 0⟩ ready) (.cfgWord .w6) =
      [0x22000000, 0x22000000, 0x22000000, 0x22000000] ∧
    inBanks (call 0 ⟨0x09000002, 1, 0x22, 0, 0⟩ ready) (.startFrame .tcm1) =
      [0x8020, 0x8020, 0x8020, 0x8020] ∧
    inBanks (call 0 ⟨0x09000002, 1, 0x22, 0, 0⟩ ready) (.endFrame .tcm1) =
      [0x8040, 0x8040, 0x8040, 0x8040] := by decide +kernel

/-- V-VC-7 and V-VC-10. -/
theorem test_pmpNop_VVC7 : (call 0 ⟨0x09000002, 9, 0xFF, 0, 0⟩ ready).tbl = ready.tbl ∧
    (call 0 ⟨0x09000002, 0x100000000, 0x11, 0, 0⟩ ready).trace = [] := by decide +kernel

/-- V-VC-8 and V-VC-11. -/
theorem test_nop_VVC8 : (call 0 ⟨0x09000003, 0, 2, 5, 42⟩ ready).pmu = ready.pmu ∧
    (call 0 ⟨0x0000000109000002, 0, 0x11, 0, 0⟩ ready).trace = [] ∧
    (call 0 ⟨0x09000003, 0, 2, 5, 42⟩ ready).retOf 0 = .status 0 0 := by decide +kernel

/-- V-VC-13. -/
theorem test_legacyBind_VVC13 :
    (call 0 ⟨0x09000003, 7, 2, 5, 42⟩ (onLegacy ready)).trace = [.csrWr 0 (.evt 2) 42] := by
  decide +kernel

/-- V-VC-12: no region is programmed. -/
theorem test_legacyReset_VVC12 :
    (call 0 ⟨0x09000002, 0, 0x11, 0, 0⟩ (onLegacy ready)).trace.length = 28 ∧
    (call 0 ⟨0x09000002, 0, 0x11, 0, 0⟩ (onLegacy ready)).tbl = ready.tbl := by decide +kernel

/-- A hook is written down when it begins, and comes in order once (43_boot_context.md R206). -/
theorem test_hooks_in_order :
    let t := after State.reset (step { State.reset with inputs := [.request 0 (.proc 7 [])] })
    t.hooksOf 0 = [.extensionsInit] ∧ hookInOrder 0 .finalInit t = true ∧
    hookInOrder 0 .extensionsInit t = false ∧ hookInOrder 0 .earlyInit t = false ∧
    hookInOrder 1 .earlyInit t = true := by decide

/-- 95_test_vectors.md section 1: the address of END(28) of bank 3. -/
theorem test_address : regAddr tcfg 3 (.endFrame .rsv) = 0x100031E4 ∧ cfgOk tcfg = true := by decide

/-- Two queued writes: the older lands first (20_memory.md R71). -/
def queued : State :=
  setPend 1 [⟨0, .startFrame .rsv, 7⟩, ⟨2, .endFrame .rsv, 9⟩] ready

theorem test_land_oldest_first :
    let t := after queued (step { queued with inputs := [.land 1] })
    t.visAt 0 (.startFrame .rsv) = 7 ∧ t.visAt 2 (.endFrame .rsv) = 0 ∧ (t.pendOf 1).length = 1 := by
  decide +kernel

/-! ### Witnesses: for every obligation with hypotheses, a case that meets them, each clause at a value
where it begins or ends -/

theorem ready_canonical : ready.Canonical := ⟨by decide, by decide⟩

theorem vrc2_canonical : vrc2.Canonical := ⟨by decide +kernel, by decide +kernel⟩

theorem tcfg_ownWord : ownWord tcfg .tcm0 ∧ ownWord tcfg .tcm1 := by
  unfold ownWord; decide

theorem tcfg_placement : placementR11 tcfg := by unfold placementR11; decide

theorem ready_quiescent : ready.Quiescent :=
  ⟨fun h => by revert h; decide, rfl, fun h => by revert h; decide⟩

theorem vrc2_quiescent : vrc2.Quiescent :=
  ⟨fun h => by revert h; decide, by decide +kernel, fun h => by revert h; decide⟩

/-- One request on a hart. -/
def asked (h : Hart) (r : Request) (s : State) : State := { s with inputs := [.request h r] }

/-- An operation in progress on hart 1. -/
def halfDone : State := setBusy 1 [.barrier, .ret .nothing] ready

/-- `early_init` has run on hart 0. -/
def hooked : State := setHooks 0 [.earlyInit] State.reset

/-- Hart 2 about to make the external call that registers the dispatcher. -/
def registering : State :=
  { setBusy 2 [.ext .registerVendorExtensionHandler, .ret .nothing] State.reset with
    inputs := [.issue 2] }

/-- Harts 0 and 1 about to merge a field each into bank 2's word (95_test_vectors.md program 5). -/
def twoHarts : State :=
  { setBusy 0 [.rmw 2 .tcm0 0x11] (setBusy 1 [.rmw 2 .tcm1 0x22] ready) with
    inputs := [.issue 0, .issue 1, .issue 0, .issue 1] }

theorem witness_DecodeOfEncode :
    tcfg.extPmu ≠ tcfg.extPmp ∧ (Instr.vcallPmpNop 9 1 2 3).wellFormed tcfg = true ∧
    (Instr.vcallLegacyReset 1 2 3 4 5).wellFormed legacyCfg = true := by decide

theorem witness_EncodeOfDecode :
    decode tcfg (.vcall ⟨0x09000001, 7, 2, 5, 42⟩) = .ok (.vcallPmuBind 7 5 42) ∧
    decode tcfg (.proc 1 [.word 1, .byte 0xFF]) = .ok (.setRegionAuthorization 1 0xFF) := by decide

theorem witness_EveryCallHasOneRowAndSucceeds :
    ready.cfg = tcfg ∧ cfgOk tcfg = true ∧ (onLegacy ready).cfg = legacyCfg ∧ cfgOk legacyCfg = true :=
  by decide

/-- Extension ids, a0 = 2 and 3, fid = 0, 1 and 2. -/
theorem witness_PmpAwareDecisionTable :
    tcfg.dispatchPath = .pmpAware ∧ tcfg.extPmu ≠ tcfg.extPmp ∧
    (0x09000001 : Word) = tcfg.extPmu ∧ (0x09000002 : Word) = tcfg.extPmp ∧
    (0x09000003 : Word) ≠ tcfg.extPmu ∧ (0x09000003 : Word) ≠ tcfg.extPmp ∧
    (3 : Word) ≠ 2 ∧ (2 : Word) ≠ 0 ∧ (2 : Word) ≠ 1 := by decide

theorem witness_LegacyDecisionTable :
    legacyCfg.dispatchPath = .legacy ∧ (1 : Word) ≠ 2 ∧ (3 : Word) ≠ 2 := by decide

theorem witness_UnknownEntryPointsRejected :
    9 ≤ (9 : BitVec 4).toNat ∧ 9 ≤ (15 : BitVec 4).toNat := by decide

/-- A call with the dispatcher registered, an entry point without. -/
theorem witness_StepRunsDecodedRequest :
    (asked 3 (.vcall ⟨0x09000001, 0, 2, 5, 42⟩) ready).busyOf 3 = [] ∧
    (asked 3 (.vcall ⟨0x09000001, 0, 2, 5, 42⟩) ready).handler = true ∧
    decode ready.cfg (.vcall ⟨0x09000001, 0, 2, 5, 42⟩) = .ok (.vcallPmuBind 0 5 42) ∧
    (asked 0 (.proc 8 []) State.reset).busyOf 0 = [] ∧ decode tcfg (.proc 8 []) = .ok .finalInit :=
  by decide

theorem witness_UnreachedCallChangesNothing :
    State.reset.handler = false ∧
    ({ State.reset with inputs := [.start 2 (.vcall ⟨0, 0, 0, 0, 0⟩)] } : State).inputs =
      [.start 2 (.vcall ⟨0, 0, 0, 0, 0⟩)] := by decide

theorem witness_RequestsWithoutMeaningStop :
    (asked 1 (.proc 0 []) halfDone).busyOf 1 ≠ [] ∧
    (asked 0 (.proc 9 []) ready).busyOf 0 = [] ∧
    decode tcfg (.proc 9 []) = .error (.unknownEntryPoint 9) ∧
    decode tcfg (.proc 0 [.word 0]) = .error (.wrongOperands 0) := by decide

theorem witness_CallRegistersDoNotSurvive :
    ready.handler = true ∧
    (asked 0 (.vcall ⟨1, 2, 3, 4, 5⟩) ready).inputs = [.request 0 (.vcall ⟨1, 2, 3, 4, 5⟩)] :=
  by decide

/-- One configuration for each constraint, each just outside it. -/
theorem witness_BadConfigurationIsRefused :
    regOff { tcfg with cfgOff6 := 0x19 } (.cfgWord .w6) % 4 ≠ 0 ∧
    ({ tcfg with tableBase := 2 } : Cfg).tableBase % 4 ≠ 0 ∧
    ({ tcfg with coreStride := 0x1001 } : Cfg).coreStride % 4 ≠ 0 ∧
    regOff { tcfg with cfgOff6 := 0x01C } (.cfgWord .w6) =
      regOff { tcfg with cfgOff6 := 0x01C } (.cfgWord .w7) ∧
    ({ tcfg with coreStride := 0x1E4 } : Cfg).coreStride < regOff tcfg (.endFrame .rsv) + 4 ∧
    2 ^ 64 ≤ ({ tcfg with tableBase := 2 ^ 64 - 0x3000 } : Cfg).tableBase + 3 * tcfg.coreStride +
      regOff tcfg (.startFrame .tcm0) + 3 ∧
    (0x08000001 : Word).toNat % 4096 ≠ 0 ∧ 2 ^ 44 ≤ (0x100000000000 : Word).toNat := by decide

theorem witness_RegistersDoNotOverlap :
    cfgOk tcfg = true ∧ cfgOk legacyCfg = true ∧ (0 : Bank) ≠ 3 ∧ TblReg.cfgWord .w6 ≠ .cfgWord .w7 :=
  by decide

theorem witness_RegisterReadsLastWrite :
    cfgOk vrc2.cfg = true ∧ vrc2.Canonical ∧ (0 : Bank) ≠ 3 ∧ TblReg.cfgWord .w6 ≠ .cfgWord .w7 :=
  ⟨by decide, vrc2_canonical, by decide, by decide⟩

theorem witness_ByteViewOfRegister :
    vrc2.Canonical ∧ (3 : Nat) < 4 ∧
    0x10000017 < regAddr tcfg 0 (.cfgWord .w6) ∧ regAddr tcfg 0 (.cfgWord .w6) + 4 ≤ 0x1000001C ∧
    0x100031E3 < regAddr tcfg 3 (.endFrame .rsv) ∧ regAddr tcfg 3 (.endFrame .rsv) + 4 ≤ 0x100031E8 :=
  ⟨vrc2_canonical, by decide, by decide, by decide, by decide, by decide⟩

/-- The address after CFG(7) of bank 0 is no register. -/
theorem witness_AccessByAddress :
    cfgOk tcfg = true ∧ (3 : Nat) ≠ 4 ∧ 0x10000019 % 4 ≠ 0 ∧ 0x10000020 % 4 = 0 ∧
    ∀ c r, 0x10000020 ≠ regAddr tcfg c r := by
  refine ⟨by decide, by decide, by decide, by decide, fun c r => ?_⟩
  rcases r with x | x | x <;> cases x <;> revert c <;> decide

theorem witness_EnsureProgramsOnMismatch :
    cfgOk ready.cfg = true ∧ ready.Canonical ∧
    ready.tblAt 0 (.startFrame .rsv) ≠ expStart ready.cfg .rsv :=
  ⟨by decide, ready_canonical, by decide⟩

theorem witness_EnsureOnlyReadsOnMatch :
    cfgOk matched.cfg = true ∧ matched.tblAt 0 (.startFrame .rsv) = expStart matched.cfg .rsv :=
  by decide +kernel

theorem witness_EnsureEventsExact :
    cfgOk ready.cfg = true ∧ ready.Canonical := ⟨by decide, ready_canonical⟩

theorem witness_EnsureIsIdempotent :
    cfgOk ready.cfg = true ∧ ready.Canonical := ⟨by decide, ready_canonical⟩

/-- Both regions, with a match and with a mismatch of the start frame. -/
theorem witness_SetAuthorizationPostcondition :
    cfgOk vrc2.cfg = true ∧ vrc2.Canonical ∧ ownWord vrc2.cfg .tcm0 ∧ ownWord vrc2.cfg .tcm1 ∧
    vrc2.tblAt 0 (.startFrame .tcm0) = expStart vrc2.cfg .tcm0 ∧ ready.Canonical ∧
    ready.tblAt 0 (.startFrame .tcm1) ≠ expStart ready.cfg .tcm1 :=
  ⟨by decide, vrc2_canonical, tcfg_ownWord.1, tcfg_ownWord.2, by decide +kernel, ready_canonical,
    by decide⟩

theorem witness_SetAuthorizationEventsExact :
    cfgOk ready.cfg = true ∧ ready.Canonical ∧ ownWord ready.cfg .tcm0 ∧ ownWord ready.cfg .tcm1 :=
  ⟨by decide, ready_canonical, tcfg_ownWord.1, tcfg_ownWord.2⟩

theorem witness_InvalidRegionIsNoOp :
    cfgOk ready.cfg = true ∧ (2 : Word) ≠ Config.fidTcm0 ∧ (2 : Word) ≠ Config.fidTcm1 ∧
    (0x100000000 : Word) ≠ Config.fidTcm0 ∧ (0x100000000 : Word) ≠ Config.fidTcm1 := by decide

theorem witness_ReservedWindowThenFramesThenAuthorization :
    cfgOk ready.cfg = true ∧ ready.Canonical ∧ ownWord ready.cfg .tcm0 ∧ regionSlot 0 = some .tcm0 ∧
    ready.tblAt 0 (.startFrame .rsv) ≠ expStart ready.cfg .rsv ∧
    ready.tblAt 0 (.startFrame .tcm0) ≠ expStart ready.cfg .tcm0 :=
  ⟨by decide, ready_canonical, tcfg_ownWord.1, by decide, by decide, by decide⟩

theorem witness_RepeatedAuthorizationKeepsTable :
    cfgOk ready.cfg = true ∧ ready.Canonical ∧ ownWord ready.cfg .tcm1 ∧ regionSlot 1 = some .tcm1 :=
  ⟨by decide, ready_canonical, tcfg_ownWord.2, by decide⟩

theorem witness_BothAuthorizationsStand :
    cfgOk vrc2.cfg = true ∧ vrc2.Canonical ∧ placementR11 vrc2.cfg :=
  ⟨by decide, vrc2_canonical, tcfg_placement⟩

theorem witness_FramesAndReservedFieldTakeOnlyConstants :
    ready.Canonical ∧ ∃ t, exec (.setRegionAuthorization 1 0x22) ready = .next t :=
  ⟨ready_canonical, _, exec_next (by decide) _⟩

theorem witness_RegionOperationsFrame :
    cfgOk ready.cfg = true ∧ ready.Canonical ∧ isRegionOp .ensureReservedRegion = true ∧
    isRegionOp (.setRegionAuthorization 1 2) = true ∧ isRegionOp (.vcallPmpTcm0 1 2 3) = true ∧
    isRegionOp (.vcallPmpTcm1 1 2 3) = true ∧
    ∀ c, ∀ r ∈ storedRegs ready (.setRegionAuthorization 1 2), inWord (regAddr ready.cfg c r) 0x10000017 = false := by
  refine ⟨by decide, ready_canonical, by decide, by decide, by decide, by decide, ?_⟩
  decide +kernel

theorem witness_BindWritesOneRegister :
    cfgOk ready.cfg = true ∧ (3 : Word).toNat = (0 : Counter).val + 3 ∧
    (31 : Word).toNat = (28 : Counter).val + 3 := by decide

theorem witness_BindOutsideRangeDoesNothing :
    cfgOk ready.cfg = true ∧ (3 ≤ (3 : Word).toNat ∧ (3 : Word).toNat ≤ 31) ∧
    (3 ≤ (31 : Word).toNat ∧ (31 : Word).toNat ≤ 31) ∧ ¬ (3 ≤ (2 : Word).toNat ∧ (2 : Word).toNat ≤ 31) ∧
    ¬ (3 ≤ (32 : Word).toNat ∧ (32 : Word).toNat ≤ 31) := by decide

theorem witness_ResetBaselineValues :
    cfgOk paaaa.cfg = true ∧ (0 : Counter).val + 3 ≤ 28 ∧ (25 : Counter).val + 3 ≤ 28 ∧ (1 : Hart) ≠ paaaa.hart :=
  by decide

theorem witness_ResetBaselineLeavesAlone :
    cfgOk paaaa.cfg = true ∧ 29 ≤ (26 : Counter).val + 3 ∧ 29 ≤ (28 : Counter).val + 3 ∧
    (paaaa.pmuOf paaaa.hart).ideleg.getLsbD 1 = true ∧
    (CounterRegs.mk (Vector.replicate 29 0) 0 0x80000000).wen.getLsbD 31 = true := by decide

theorem witness_ResetBaselineEventsExact :
    cfgOk ready.cfg = true := by decide

theorem witness_ResetBaselineIsIdempotent :
    cfgOk ready.cfg = true ∧ (28 : Word).toNat = (25 : Counter).val + 3 ∧
    (29 : Word).toNat = (26 : Counter).val + 3 := by decide

theorem witness_CounterOperationsFrame :
    cfgOk ready.cfg = true ∧ isCounterOp (.bind 1 2) = true ∧ isCounterOp .resetBaseline = true ∧
    isCounterOp (.dispatch 1 2 3) = true ∧ isCounterOp (.vcallPmuBind 1 2 3) = true ∧
    isCounterOp (.vcallPmuReset 1 2 3 4) = true ∧ isCounterOp (.vcallLegacyBind 1 2 3 4) = true ∧
    isCounterOp (.vcallLegacyReset 1 2 3 4 5) = true ∧ isVendorCall (.bind 1 2) = false ∧
    (1 : Hart) ≠ ready.hart := by decide

theorem witness_PmuCallsRunTheMapper :
    cfgOk ready.cfg = true ∧ ready.cfg.dispatchPath = .pmpAware ∧
    (Call.mk 0x09000001 99 2 5 42).eid = ready.cfg.extPmu := by decide

theorem witness_PmpCallsRunTheController :
    cfgOk ready.cfg = true ∧ ready.cfg.dispatchPath = .pmpAware ∧
    (Call.mk 0x09000002 0 0x111 0 0).eid = ready.cfg.extPmp ∧
    (Call.mk 0x09000002 0 0x111 0 0).fid = Config.fidTcm0 ∧
    (Call.mk 0x09000002 1 0x111 0 0).fid = Config.fidTcm1 := by decide

theorem witness_LegacyCallsRunTheMapper :
    cfgOk (onLegacy ready).cfg = true ∧ (onLegacy ready).cfg.dispatchPath = .legacy := by decide

theorem witness_NoOpSpaceChangesNothing :
    cfgOk ready.cfg = true ∧ ready.cfg.dispatchPath = .pmpAware ∧
    (0x09000003 : Word) ≠ ready.cfg.extPmu ∧ (0x09000003 : Word) ≠ ready.cfg.extPmp ∧
    (0x09000002 : Word) = ready.cfg.extPmp ∧ (2 : Word) ≠ Config.fidTcm0 ∧ (2 : Word) ≠ Config.fidTcm1 ∧
    ¬ (3 ≤ (2 : Word).toNat ∧ (2 : Word).toNat ≤ 31) ∧
    ¬ (3 ≤ (32 : Word).toNat ∧ (32 : Word).toNat ≤ 31) := by decide

theorem witness_VendorCallsReturnSuccess :
    cfgOk ready.cfg = true ∧ isVendorCall (.vcallPmuBind 1 2 3) = true ∧
    isVendorCall (.vcallPmuReset 1 2 3 4) = true ∧ isVendorCall (.vcallPmpTcm0 1 2 3) = true ∧
    isVendorCall (.vcallPmpTcm1 1 2 3) = true ∧ isVendorCall (.vcallPmpNop 1 2 3 4) = true ∧
    isVendorCall (.vcallNop 1 2 3 4 5) = true ∧ isVendorCall (.vcallLegacyBind 1 2 3 4) = true ∧
    isVendorCall (.vcallLegacyReset 1 2 3 4 5) = true ∧ (3 : Hart) ≠ ready.hart := by decide

theorem witness_ColdBootPredicate :
    cfgOk ready.cfg = true ∧ cfgOk { tcfg with coldBootHart := some 9 } = true := by decide

theorem witness_EarlyAndExtensionsHooks :
    cfgOk ready.cfg = true ∧ cfgOk { tcfg with errata := ⟨true, true⟩ } = true := by decide

theorem witness_FinalHook :
    cfgOk ready.cfg = true ∧ ready.hart = ready.coldHart ∧
    ({ ready with hart := 3 } : State).hart ≠ ({ ready with hart := 3 } : State).coldHart :=
  by decide

theorem witness_OnlyFinalInitRegistersDispatcher :
    State.reset.handler = false ∧
    (∃ t, exec .finalInit State.reset = .next t ∧ t.handler = true) ∧
    runs (step registering) = true ∧ registering.handler = false ∧
    (after registering (step registering)).handler = true ∧
    runs (step { State.reset with inputs := [.start 0 (.proc 8 [])] }) = true ∧
    .ext .registerVendorExtensionHandler ∈
      (after State.reset (step { State.reset with inputs := [.start 0 (.proc 8 [])] })).busyOf 0 ∧
    runs (step { queued with inputs := [.land 1] }) = true :=
  ⟨by decide, ⟨_, exec_next (by decide) _, by decide⟩, by decide, by decide, by decide, by decide,
    by decide, by decide⟩

/-- A hook of hart 0 has run and its last one comes, by a whole operation and by a start. -/
theorem witness_StepKeepsHooksInOrder :
    hooked.BootInv ∧
    Input.inBootOrder hooked (.request 0 (.proc 8 [])) = true ∧
    Input.inBootOrder hooked (.start 0 (.proc 7 [])) = true ∧
    Input.inBootOrder hooked (.request 0 (.proc 6 [])) = false ∧
    ∃ t, step (asked 0 (.proc 8 []) hooked) = .next t := by
  refine ⟨⟨fun h => by revert h; decide, by decide, by decide, by decide, by decide⟩, by decide,
    by decide, by decide, next_of_runs (by decide)⟩

theorem witness_OwnershipOfRegisters :
    (perform .ensureReservedRegion ready).tbl ≠ ready.tbl ∧ (perform (.bind 5 42) ready).pmu ≠ ready.pmu ∧
    (micros tcfg true .ensureReservedRegion).any Micro.onTable = true ∧
    (micros tcfg true (.dispatch 2 5 42)).any Micro.onCounters = true ∧
    runs (step { halfDone with inputs := [.issue 1] }) = true ∧
    runs (step { ready with inputs := [.start 0 (.proc 0 [])] }) = true ∧
    runs (step { queued with inputs := [.land 1] }) = true := by decide +kernel

theorem witness_ReplicasStayEqual :
    cfgOk ready.cfg = true ∧ ready.Canonical ∧ ready.ReplicasEqual .tcm0 ∧
    ∃ t, exec (.setRegionAuthorization 0 0x11) ready = .next t :=
  ⟨by decide, ready_canonical, fun c d => ⟨by revert c d; decide, by revert c d; decide,
    by revert c d; decide⟩, _, exec_next (by decide) _⟩

theorem witness_StepKeepsConfiguration :
    ∃ t, step (asked 0 (.proc 8 []) State.reset) = .next t := next_of_runs (by decide)

theorem witness_TraceIsAppendedToAndNeverRead :
    ∃ t, exec .resetBaseline ready = .next t := ⟨_, exec_next (by decide) _⟩

theorem witness_OperationsAreBounded :
    isRegionOp (.vcallPmpTcm0 1 2 3) = true ∧ ∃ t, exec (.vcallPmpTcm0 1 2 3) ready = .next t :=
  ⟨by decide, _, exec_next (by decide) _⟩

theorem witness_StepKeepsInvariant :
    halfDone.Inv ∧ ({ halfDone with inputs := [.issue 1] } : State).Inv ∧
    ∃ t, step { halfDone with inputs := [.issue 1] } = .next t := by
  have f : ∀ h : Hart, Fenced (decide (halfDone.pendOf h ≠ [])) (halfDone.busyOf h) := by
    intro h
    fin_cases h
    · exact .done
    · exact .barrier (.ret .done)
    · exact .done
    · exact .done
  exact ⟨⟨by decide, by decide, by decide, by decide, f⟩,
    ⟨by decide, by decide, by decide, by decide, f⟩, next_of_runs (by decide)⟩

theorem witness_SerialStepKeepsObserversCurrent :
    Input.serial (.request 0 (.proc 0 [])) = true ∧ Input.serial (.land 0) = true ∧
    (asked 0 (.proc 0 []) ready).Quiescent ∧ ∃ t, step (asked 0 (.proc 0 []) ready) = .next t :=
  ⟨by decide, by decide, ready_quiescent, next_of_runs (by decide +kernel)⟩

theorem witness_UninterruptedIssueIsTheOperation :
    ready.busyOf 2 = [] ∧ ready.pendOf 2 = [] ∧ reaches (.proc 0 []) ready = true ∧
    (∀ inp ∈ Input.land 2 :: List.replicate 37 (.issue 2), inp = .issue 2 ∨ inp = .land 2) ∧
    37 ≤ (Input.land 2 :: List.replicate 37 (.issue 2)).count (.issue 2) ∧
    ∃ t, step { ready with inputs := .request 2 (.proc 0 []) :: [] } = .next t :=
  ⟨by decide, by decide, by decide, by decide, by decide, next_of_runs (by decide +kernel)⟩

/-- Bank 0's word has been written and has landed, the other banks' words not yet. -/
theorem witness_ObserversSeeFramesBeforeAuthorization :
    cfgOk vrc2.cfg = true ∧ vrc2.Canonical ∧ vrc2.Quiescent ∧ ownWord vrc2.cfg .tcm0 ∧
    regionSlot 0 = some .tcm0 ∧
    (∀ inp ∈ List.replicate 4 (Input.issue 1) ++ [.land 1], inp = .issue 1 ∨ inp = .land 1) ∧
    (let r : Result := Host.Core.run core 6 { vrc2 with
        inputs := .start 1 (.proc 1 [.word 0, .byte 0x11]) ::
          (List.replicate 4 (.issue 1) ++ [.land 1]) }
     runs r = true ∧ authField tcfg .tcm0 ((after vrc2 r).visAt 0 (authReg tcfg .tcm0)) = 0x11 ∧
     authField tcfg .tcm0 (vrc2.visAt 0 (authReg tcfg .tcm0)) = 0xBB) := by
  refine ⟨by decide, vrc2_canonical, vrc2_quiescent, tcfg_ownWord.1, by decide, by decide, ?_⟩
  decide +kernel

theorem witness_OverlappingUpdatesLoseAField :
    cfgOk twoHarts.cfg = true ∧ twoHarts.Canonical ∧ (0 : Hart) ≠ 1 ∧
    twoHarts.cfg.tcm0.word = twoHarts.cfg.tcm1.word ∧ twoHarts.busyOf 0 = [.rmw 2 .tcm0 0x11] ∧
    twoHarts.busyOf 1 = [.rmw 2 .tcm1 0x22] ∧
    twoHarts.inputs = [.issue 0, .issue 1, .issue 0, .issue 1] :=
  ⟨by decide, ready_canonical, by decide, by decide, by decide, by decide, rfl⟩

theorem witness_WritesLandInOrder :
    2 ≤ (queued.pendOf 1).length ∧
    ({ queued with inputs := [.land 1, .land 1] } : State).inputs = List.replicate 2 (.land 1) ++ [] :=
  by decide

end Sys2Proof.Tests
end

section
/-! PROOFS of the scope rules (00_scope.md): no step writes the configuration record (R19), and the
trace is appended to and never read (R14, decision D1). -/

namespace Sys2Proof.Machine

/-! ### The effects there are -/

/-- The 17 operations share eight effects: what holds of each of these holds of every operation's
effect. A vendor call has the effect of the entry point its row names (30_encoding.md R104, R105), and
`dispatch` that of `bind` or of `reset_baseline` (41_counter_mapper.md R163). -/
theorem effectOf_induction {P : (State → State) → Prop}
    (ensure : P ensureReserved)
    (setAuth : ∀ region a, P (setAuthorization region a))
    (bind : ∀ i e, P (bindCounter i e))
    (reset : P resetCounters)
    (nothing : P id)
    (early : P (effectOf .earlyInit))
    (extensions : P (extCall .registerPmuDevice))
    (final : P finalHooks) (i : Instr) : P (effectOf i) := by
  have dispatch : ∀ t i e, P (dispatchCounter t i e) := by
    intro t i e
    cases ht : selectsBind t with
    | true =>
      have : dispatchCounter t i e = bindCounter i e := by funext s; simp [dispatchCounter, ht]
      exact this ▸ bind i e
    | false =>
      have : dispatchCounter t i e = resetCounters := by funext s; simp [dispatchCounter, ht]
      exact this ▸ reset
  cases i with
  | ensureReservedRegion => exact ensure
  | setRegionAuthorization region a => exact setAuth region a
  | bind i e => exact bind i e
  | resetBaseline => exact reset
  | dispatch t i e => exact dispatch t i e
  | isColdBootAllowed _ => exact nothing
  | earlyInit => exact early
  | extensionsInit => exact extensions
  | finalInit => exact final
  | vcallPmuBind _ a1 a2 => exact dispatch _ a1 a2
  | vcallPmuReset _ a0 a1 a2 => exact dispatch a0 a1 a2
  | vcallPmpTcm0 a0 _ _ => exact setAuth Config.fidTcm0 (authOperand a0)
  | vcallPmpTcm1 a0 _ _ => exact setAuth Config.fidTcm1 (authOperand a0)
  | vcallPmpNop _ _ _ _ => exact nothing
  | vcallNop _ _ _ _ _ => exact nothing
  | vcallLegacyBind _ _ a1 a2 => exact dispatch _ a1 a2
  | vcallLegacyReset _ _ a0 a1 a2 => exact dispatch a0 a1 a2

/-! ### The configuration record (00_scope.md R19) -/

@[simp] theorem extCallIf_cfg (b : Bool) (n : Collaborator) (s : State) :
    (extCallIf b n s).cfg = s.cfg := by
  cases b <;> rfl

@[simp] theorem finalHooks_cfg (s : State) : (finalHooks s).cfg = s.cfg := by
  unfold finalHooks
  split
  · simp
  · rfl

@[simp] theorem effectOf_cfg (i : Instr) (s : State) : (effectOf i s).cfg = s.cfg :=
  effectOf_induction (P := fun f => (f s).cfg = s.cfg)
    (ensure := (sameBut_ensureReserved s).cfg)
    (setAuth := fun region a => (sameBut_setAuthorization region a s).cfg)
    (bind := fun c e => (onlyCounters_bindCounter c e s).cfg)
    (reset := (onlyCounters_resetCounters s).cfg)
    (nothing := rfl)
    (early := extCallIf_cfg _ _ s)
    (extensions := extCall_cfg _ s)
    (final := finalHooks_cfg s) i

@[simp] theorem performMicro_cfg (m : Micro) (rest : List Micro) (s : State) :
    (performMicro m rest s).cfg = s.cfg := by
  cases m with
  | ret r => simp [performMicro]
  | _ => rfl

@[simp] theorem issueNext_cfg (s : State) : (issueNext s).cfg = s.cfg := by
  unfold issueNext
  split
  · rfl
  · exact performMicro_cfg _ _ s

@[simp] theorem landNext_cfg (h : Hart) (s : State) : (landNext h s).cfg = s.cfg := by
  unfold landNext
  split <;> rfl

/-- Every operation run whole leaves the configuration record as it was. -/
theorem exec_cfg {i : Instr} {s t : State} (h : exec i s = .next t) : t.cfg = s.cfg := by
  obtain ⟨_, rfl⟩ := exec_inv h
  simp

/-- Settles O48: none of the cases of a step writes the configuration record. -/
theorem stepKeepsConfiguration : Obligations.StepKeepsConfiguration := by
  intro s t e
  cases step_cases e with
  | idle _ ht => rw [ht]
  | unreached _ _ _ ht => rw [ht]
  | request h r rest i _ _ _ he => rw [exec_cfg he, begun_cfg]
  | start h r rest i _ _ _ _ ht => rw [ht, setBusy_cfg, begun_cfg]
  | issue h rest _ ht => rw [ht, issueNext_cfg]
  | land h rest _ ht => rw [ht, landNext_cfg]

/-! ### The trace (00_scope.md R14) -/

/-- `t` is `s` with another past: both have appended the same events, `s` to `p` and `t` to `q`, and
they differ in nothing else. -/
def OtherPast (p q : List Event) (s t : State) : Prop :=
  ∃ es, s.trace = p ++ es ∧ t = { s with trace := q ++ es }

theorem otherPast_refl (q : List Event) (s : State) :
    OtherPast s.trace q s { s with trace := q } := ⟨[], by simp, by simp⟩

section
variable {p q : List Event} {s t : State}

/-! What a state answers does not depend on its past. -/

theorem OtherPast.cfg (h : OtherPast p q s t) : t.cfg = s.cfg := by
  obtain ⟨es, _, rfl⟩ := h; rfl

theorem OtherPast.hart (h : OtherPast p q s t) : t.hart = s.hart := by
  obtain ⟨es, _, rfl⟩ := h; rfl

theorem OtherPast.coldHart (h : OtherPast p q s t) : t.coldHart = s.coldHart := by
  obtain ⟨es, _, rfl⟩ := h; rfl

theorem OtherPast.tblAt (h : OtherPast p q s t) (c : Bank) (r : TblReg) :
    t.tblAt c r = s.tblAt c r := by
  obtain ⟨es, _, rfl⟩ := h; rfl

theorem OtherPast.startObserved_eq (h : OtherPast p q s t) (x : Slot) :
    startObserved x t = startObserved x s := by
  obtain ⟨es, _, rfl⟩ := h; rfl

/-! The primitives of 00_scope.md R13 and the return. -/

/-- An update that appends one event whatever the past, and sets the other fields as it does with any
other past. -/
theorem OtherPast.append (h : OtherPast p q s t) {f : State → State} {e : Event}
    (hs : (f s).trace = s.trace ++ [e])
    (ht : ∀ past, f { s with trace := past } = { f s with trace := past ++ [e] }) :
    OtherPast p q (f s) (f t) := by
  obtain ⟨es, hp, rfl⟩ := h
  exact ⟨es ++ [e], by rw [hs, hp, List.append_assoc], by rw [ht, List.append_assoc]⟩

theorem otherPast_tblRead (h : OtherPast p q s t) (c : Bank) (r : TblReg) :
    OtherPast p q (tblRead c r s) (tblRead c r t) := h.append rfl fun _ => rfl

theorem otherPast_tblWrite (h : OtherPast p q s t) (c : Bank) (r : TblReg) (v : Word32) :
    OtherPast p q (tblWrite c r v s) (tblWrite c r v t) := h.append rfl fun _ => rfl

theorem otherPast_barrier (h : OtherPast p q s t) : OtherPast p q (barrier s) (barrier t) :=
  h.append rfl fun _ => rfl

theorem otherPast_csrWrite (h : OtherPast p q s t) (k : Csr) (v : Word) :
    OtherPast p q (csrWrite k v s) (csrWrite k v t) := h.append rfl fun _ => rfl

theorem otherPast_csrSetBits (h : OtherPast p q s t) (k : Csr) (m : Word) :
    OtherPast p q (csrSetBits k m s) (csrSetBits k m t) := h.append rfl fun _ => rfl

theorem otherPast_extCall (h : OtherPast p q s t) (n : Collaborator) :
    OtherPast p q (extCall n s) (extCall n t) := h.append rfl fun _ => rfl

theorem otherPast_complete (h : OtherPast p q s t) (r : Return) :
    OtherPast p q (complete r s) (complete r t) := by
  obtain ⟨es, hp, rfl⟩ := h
  exact ⟨es, by rw [complete_trace, hp], by cases r <;> rfl⟩

/-- A loop whose body keeps two states apart by their past only does so too. -/
theorem otherPast_foldl {α : Type} {f : State → α → State}
    (hf : ∀ (c : α) {s t : State}, OtherPast p q s t → OtherPast p q (f s c) (f t c))
    (h : OtherPast p q s t) (l : List α) : OtherPast p q (l.foldl f s) (l.foldl f t) := by
  induction l generalizing s t with
  | nil => exact h
  | cons c l ih => exact ih (hf c h)

/-! The region controller. -/

theorem otherPast_programFrames (h : OtherPast p q s t) (x : Slot) :
    OtherPast p q (programFrames x s) (programFrames x t) :=
  otherPast_foldl (fun c s t h => by
    simp only [programBank, h.cfg]
    exact otherPast_tblWrite (otherPast_tblWrite h _ _ _) _ _ _) h banks

theorem otherPast_rmwAuth (h : OtherPast p q s t) (x : Slot) (a : Byte) :
    OtherPast p q (rmwAuth x a s) (rmwAuth x a t) :=
  otherPast_foldl (fun c s t h => by
    simp only [rmwBank, h.cfg, h.tblAt]
    exact otherPast_tblWrite (otherPast_tblRead h _ _) _ _ _) h banks

theorem otherPast_ensureReserved (h : OtherPast p q s t) :
    OtherPast p q (ensureReserved s) (ensureReserved t) := by
  have read := otherPast_tblRead h Config.readReplica (.startFrame .rsv)
  simp only [ensureReserved, h.startObserved_eq, h.cfg]
  split
  · exact read
  · exact otherPast_barrier (otherPast_rmwAuth (otherPast_programFrames read _) _ _)

theorem otherPast_fixUpFrames (h : OtherPast p q s t) (x : Slot) :
    OtherPast p q (fixUpFrames x s) (fixUpFrames x t) := by
  have read := otherPast_tblRead h Config.readReplica (.startFrame x)
  simp only [fixUpFrames, h.startObserved_eq]
  split
  · exact read
  · exact otherPast_programFrames read x

theorem otherPast_setAuthorization (h : OtherPast p q s t) (region : Word) (a : Byte) :
    OtherPast p q (setAuthorization region a s) (setAuthorization region a t) := by
  unfold setAuthorization
  split
  · exact h
  · exact otherPast_barrier
      (otherPast_rmwAuth (otherPast_fixUpFrames (otherPast_ensureReserved h) _) _ _)

/-! The counter mapper. -/

theorem otherPast_bindCounter (h : OtherPast p q s t) (i e : Word) :
    OtherPast p q (bindCounter i e s) (bindCounter i e t) := by
  unfold bindCounter
  split
  · exact otherPast_csrWrite h _ _
  · exact h

theorem otherPast_resetCounters (h : OtherPast p q s t) :
    OtherPast p q (resetCounters s) (resetCounters t) := by
  simp only [resetCounters, h.cfg]
  exact otherPast_foldl (fun c _ _ h => otherPast_csrWrite h (.evt c) (baseline c))
    (otherPast_csrWrite (otherPast_csrSetBits h _ _) _ _) baselineCounters

/-! The lifecycle hooks. -/

theorem otherPast_extCallIf (h : OtherPast p q s t) (b : Bool) (n : Collaborator) :
    OtherPast p q (extCallIf b n s) (extCallIf b n t) := by
  cases b with
  | true => exact otherPast_extCall h n
  | false => exact h

theorem otherPast_finalHooks (h : OtherPast p q s t) :
    OtherPast p q (finalHooks s) (finalHooks t) := by
  simp only [finalHooks, h.hart, h.coldHart, h.cfg]
  split
  · exact otherPast_extCallIf (otherPast_extCallIf h _ _) _ _
  · exact h

/-- Every operation's effect keeps two states apart by their past only. -/
theorem otherPast_effectOf (h : OtherPast p q s t) (i : Instr) :
    OtherPast p q (effectOf i s) (effectOf i t) :=
  effectOf_induction (P := fun f => OtherPast p q (f s) (f t))
    (ensure := otherPast_ensureReserved h)
    (setAuth := otherPast_setAuthorization h)
    (bind := otherPast_bindCounter h)
    (reset := otherPast_resetCounters h)
    (nothing := h)
    (early := by
      simp only [effectOf, h.cfg]
      exact otherPast_extCallIf h _ _)
    (extensions := otherPast_extCall h _)
    (final := otherPast_finalHooks h) i

end

/-- Settles O49: a state and the same state with another past are still that after the effect and the
return of any operation. -/
theorem traceIsAppendedToAndNeverRead : Obligations.TraceIsAppendedToAndNeverRead := by
  intro i s t past e
  obtain ⟨ok, rfl⟩ := exec_inv e
  obtain ⟨es, grown, same⟩ :=
    otherPast_complete (otherPast_effectOf (otherPast_refl past s) i) (returnOf s.cfg i)
  exact ⟨es, grown, by rw [exec_next (s := { s with trace := past }) ok, same]⟩

end Sys2Proof.Machine
end

section
/-! PROOFS of the state (10_state.md): what every step keeps, what holds at reset, that no call
reads what an earlier one left, which operations own which registers, and what the banks hold of a
slot. -/

namespace Sys2Proof.Machine

/-! ### The invariant (10_state.md R27, 20_memory.md R72) -/

/-- A hart with nothing in progress and nothing queued owes no barrier. -/
theorem fenced_of_idle {s : State} {h : Hart} (hp : s.pendOf h = []) (hb : s.busyOf h = []) :
    Fenced (decide (s.pendOf h ≠ [])) (s.busyOf h) := by
  rw [hb, hp]; exact .done

/-- An event keeps both views in canonical form and inside the 32 registers. -/
theorem memInv_performMicro {s : State} (h : MemInv s) (m : Micro) (rest : List Micro) :
    MemInv (performMicro m rest s) := by
  have setBusy {u : State} (hu : MemInv u) (q : List Micro) : MemInv (setBusy u.hart q u) :=
    ⟨hu.tblWf, hu.visWf, hu.tblInMap, hu.visInMap⟩
  cases m with
  | test x n => exact setBusy (memInv_tblRead h _ _) _
  | write c r v => exact setBusy (memInv_tblWrite h c r v) _
  | rmw c x a => exact setBusy (memInv_tblRead h _ _) _
  | barrier => exact setBusy (memInv_barrier h) _
  | csrWrite k v => exact setBusy (memInv_onlyCounters (onlyCounters_csrWrite k v s) h) _
  | csrSet k m => exact setBusy (memInv_onlyCounters (onlyCounters_csrSetBits k m s) h) _
  | ext n => exact setBusy (memInv_extCallIf h true n) _
  | ret r =>
    have := memInv_complete h r
    exact ⟨this.tblWf, this.visWf, this.tblInMap, this.visInMap⟩

/-- An event of the acting hart touches no other hart's queue and no other hart's operation. -/
theorem performMicro_other {s : State} {k : Hart} (hk : s.hart ≠ k) (m : Micro)
    (rest : List Micro) :
    (performMicro m rest s).pendOf k = s.pendOf k ∧
    (performMicro m rest s).busyOf k = s.busyOf k := by
  cases m <;> simp [performMicro, hk]

/-- The rest of an operation publishes what is queued after its next event. -/
theorem fenced_performMicro {s : State} {m : Micro} {rest : List Micro} {p : Bool}
    (hp : decide (s.pendOf s.hart ≠ []) = p) (h : Fenced p (m :: rest)) :
    Fenced (decide ((performMicro m rest s).pendOf s.hart ≠ []))
      ((performMicro m rest s).busyOf s.hart) := by
  have same {q : List Micro} (h : Fenced p q) : Fenced (decide (s.pendOf s.hart ≠ [])) q := hp ▸ h
  cases h with
  | test all dropped =>
    simp only [performMicro, busyOf_setBusy, if_true]
    split
    · exact same dropped
    · exact same all
  | write h => simpa [performMicro] using h
  | rmw h => simpa [performMicro] using Fenced.write h
  | barrier h => simpa [performMicro] using h
  | csrWrite h => simp only [performMicro, busyOf_setBusy, if_true]; exact same h
  | csrSet h => simp only [performMicro, busyOf_setBusy, if_true]; exact same h
  | ext h => simp only [performMicro, busyOf_setBusy, if_true]; exact same h
  | ret h =>
    rw [performMicro, pendOf_setBusy, pendOf_complete, busyOf_setBusy, if_pos rfl]
    exact same h

/-- The next event of an operation in progress keeps the invariant: the memory by its kind, the
acting hart's queue because the rest of its operation publishes it, the other harts untouched. -/
theorem inv_issueNext {s : State} (h : s.Inv) : (issueNext s).Inv := by
  unfold issueNext
  split
  · exact h
  · rename_i m rest hb
    obtain ⟨tblWf, visWf, tblIn, visIn⟩ := memInv_performMicro h.memInv m rest
    refine ⟨tblWf, visWf, tblIn, visIn, fun k => ?_⟩
    by_cases hk : s.hart = k
    · subst hk; exact fenced_performMicro rfl (hb ▸ h.fenced _)
    · obtain ⟨hpend, hbusy⟩ := performMicro_other hk m rest
      rw [hpend, hbusy]; exact h.fenced k

/-- A landing keeps the invariant: a rest that publishes a queue publishes a shorter one. -/
theorem inv_landNext {s : State} (h : s.Inv) (k : Hart) : (landNext k s).Inv := by
  unfold landNext
  split
  · exact h
  · rename_i p rest hp
    refine ⟨h.tblWf, Memory.writeWord_wf h.visWf _ _, h.tblInMap,
      inTable_writeWord h.visInMap _ _ _, fun j => ?_⟩
    rw [pendOf_setPend, busyOf_setPend]
    split
    · subst k
      have waiting := h.fenced j
      rw [hp] at waiting
      exact Fenced.ofTrue waiting _
    · exact h.fenced j

@[simp] theorem pendOf_begun (k j : Hart) (r : Request) (i : Instr) (s : State) :
    (begun k r i s).pendOf j = s.pendOf j := by simp [State.pendOf]

@[simp] theorem busyOf_begun (k j : Hart) (r : Request) (i : Instr) (s : State) :
    (begun k r i s).busyOf j = s.busyOf j := by simp [State.busyOf]

theorem inv_begun {s : State} (h : s.Inv) (k : Hart) (r : Request) (i : Instr) :
    (begun k r i s).Inv := by
  obtain ⟨tblWf, visWf, tblIn, visIn, fenced⟩ := h
  exact ⟨by simpa using tblWf, by simpa using visWf, by simpa using tblIn, by simpa using visIn,
    fun j => by rw [pendOf_begun, busyOf_begun]; exact fenced j⟩

/-- An operation run whole on an idle hart keeps the invariant. -/
theorem inv_exec {i : Instr} {s t : State} (h : s.Inv) (hb : s.busyOf s.hart = [])
    (e : exec i s = .next t) : t.Inv := by
  obtain ⟨_, rfl⟩ := exec_inv e
  obtain ⟨tblWf, visWf, tblIn, visIn⟩ :=
    memInv_complete (memInv_effectOf h.memInv i) (returnOf s.cfg i)
  refine ⟨tblWf, visWf, tblIn, visIn, fun k => ?_⟩
  rw [pendOf_complete, busyOf_complete, effectOf_pend i s (h.idle_pend hb), State.busyOf,
    effectOf_busy]
  exact h.fenced k

/-- An operation that publishes all its hart has queued may begin. -/
theorem inv_setBusy {s : State} (h : s.Inv) {k : Hart} {q : List Micro}
    (hq : Fenced (decide (s.pendOf k ≠ [])) q) : (setBusy k q s).Inv := by
  refine ⟨h.tblWf, h.visWf, h.tblInMap, h.visInMap, fun j => ?_⟩
  rw [busyOf_setBusy, pendOf_setBusy]
  split
  · subst k; exact hq
  · exact h.fenced j

/-- The invariant speaks neither of the inputs nor of which hart acts. -/
theorem inv_acting {s : State} (h : s.Inv) (l : List Input) (k : Hart) :
    ({ s with inputs := l, hart := k } : State).Inv :=
  ⟨h.tblWf, h.visWf, h.tblInMap, h.visInMap, h.fenced⟩

/-- Settles O53: each kind of step keeps the memory part, and leaves every hart's operation one that
publishes what the hart has queued. -/
theorem stepKeepsInvariant : Obligations.StepKeepsInvariant := by
  intro s t h e
  cases step_cases e with
  | idle _ ht => exact ht ▸ h
  | unreached _ rest _ ht => exact ht ▸ inv_acting h rest s.hart
  | request k r rest i _ hb _ he =>
    refine inv_exec (inv_begun (inv_acting h rest s.hart) k r i) ?_ he
    rw [begun_hart, busyOf_begun]; exact hb
  | start k r rest i _ hb _ _ ht =>
    subst ht
    refine inv_setBusy (inv_begun (inv_acting h rest s.hart) k r i) ?_
    have unqueued : (begun k r i { s with inputs := rest }).pendOf k = [] := by
      rw [pendOf_begun]; exact h.idle_pend hb
    rw [unqueued]; exact fenced_micros _ _ i
  | issue k rest _ ht => exact ht ▸ inv_issueNext (inv_acting h rest k)
  | land k rest _ ht => exact ht ▸ inv_landNext (inv_acting h rest s.hart) k

/-! ### The state after reset (10_state.md R50, R51) -/

/-- At reset nothing is in progress and nothing is pending (premises L1 and L2). -/
theorem reset_quiescent : State.reset.Quiescent :=
  ⟨by unfold State.L1; decide, rfl, by decide⟩

/-- Settles O51: the table is empty, no hart owes a barrier, no hook has begun and no collaborator
has been called. -/
theorem resetMeetsInvariant : Obligations.ResetMeetsInvariant := by
  obtain ⟨idle, _, unqueued⟩ := reset_quiescent
  exact ⟨⟨rfl, rfl, rfl, rfl, fun h => fenced_of_idle (unqueued h) (idle h)⟩,
    ⟨by decide, by decide, by decide, by decide, by decide⟩⟩

/-- Every register of a table that lists no byte is zero (log 4). -/
theorem tblAt_of_nil {s : State} (h : s.tbl = []) (c : Bank) (r : TblReg) : s.tblAt c r = 0 := by
  rw [State.tblAt, h]
  change unlistedByte ++ unlistedByte ++ unlistedByte ++ unlistedByte = (0 : Word32)
  decide

/-- Settles O52: reset is quiescent, its table is empty, and what it holds of the four harts is read
off. -/
theorem resetIsALaunchState : Obligations.ResetIsALaunchState := by
  obtain ⟨idle, published⟩ := reset_quiescent
  exact ⟨idle, published, rfl, tblAt_of_nil rfl, rfl, rfl, by decide, by decide⟩

/-! ### One register (10_state.md R33, R45) -/

/-- Settles O14: the 32 registers share no byte. -/
theorem registerReadsLastWrite : Obligations.RegisterReadsLastWrite := by
  intro s c c' r r' v ok ⟨tblWf, _⟩
  refine ⟨?_, fun other => ?_, rfl, rfl⟩
  · rw [tblAt_tblWrite ok tblWf, if_pos ⟨rfl, rfl⟩]
  · rw [tblAt_tblWrite ok tblWf, if_neg (not_and_or.2 other)]

/-- An index from 3 to 31 is the index of a counter slot (10_state.md R45). -/
theorem exists_counterIndex {i : Word} (h : 3 ≤ i.toNat ∧ i.toNat ≤ 31) :
    ∃ c, counterIndex c = i.toNat :=
  ⟨⟨i.toNat - 3, by omega⟩, by simp only [counterIndex]; omega⟩

/-- `bind` with an index that names no register does nothing (decision D17; log 24). -/
theorem bindCounter_of_none {i : Word} (h : counterOf i = none) (e : Word) (s : State) :
    bindCounter i e s = s := by
  rw [bindCounter, h]

/-- Settles O30: outside 3 to 31 `bind` has no effect and only its return is left. -/
theorem bindOutsideRangeDoesNothing : Obligations.BindOutsideRangeDoesNothing := by
  intro i
  refine ⟨fun inside => ?_, fun outside => ?_⟩
  · obtain ⟨c, hc⟩ := exists_counterIndex inside
    exact ⟨c, counterOf_eq_some hc.symm, hc⟩
  · have unnamed := counterOf_eq_none outside
    refine ⟨unnamed, fun s e ok => ?_⟩
    rw [exec_next ok, effectOf, bindCounter_of_none unnamed]
    rfl

/-! ### The call registers (10_state.md R22, R23) -/

/-- `s` with other call registers. -/
def withCall (q : Vector CallRegs 4) (s : State) : State := { s with call := q }

theorem startObserved_withCall (x : Slot) (q : Vector CallRegs 4) (s : State) :
    startObserved x (withCall q s) = startObserved x s := rfl
theorem withCall_cfg (q : Vector CallRegs 4) (s : State) : (withCall q s).cfg = s.cfg := rfl
theorem withCall_hart (q : Vector CallRegs 4) (s : State) : (withCall q s).hart = s.hart := rfl
theorem withCall_coldHart (q : Vector CallRegs 4) (s : State) :
    (withCall q s).coldHart = s.coldHart := rfl

/-- `f` neither reads nor writes the call registers. -/
def CallBlind (f : State → State) : Prop := ∀ q s, f (withCall q s) = withCall q (f s)

/-- A loop whose body neither reads nor writes the call registers does not either. -/
theorem callBlind_foldl {α : Type} {f : State → α → State} (hf : ∀ c, CallBlind (f · c))
    (l : List α) : CallBlind (l.foldl f) := by
  induction l with
  | nil => exact fun _ _ => rfl
  | cons c l ih =>
    intro q s
    exact (congrArg (l.foldl f) (hf c q s)).trans (ih q (f s c))

theorem callBlind_tblRead (c : Bank) (r : TblReg) : CallBlind (tblRead c r) := fun _ _ => rfl

theorem callBlind_barrier : CallBlind barrier := fun _ _ => rfl

theorem callBlind_programFrames (x : Slot) : CallBlind (programFrames x) :=
  callBlind_foldl (fun _ _ _ => rfl) banks

theorem callBlind_rmwAuth (x : Slot) (a : Byte) : CallBlind (rmwAuth x a) :=
  callBlind_foldl (fun _ _ _ => rfl) banks

theorem callBlind_ensureReserved : CallBlind ensureReserved := by
  intro q s
  simp only [ensureReserved, startObserved_withCall, withCall_cfg, callBlind_tblRead _ _ q,
    callBlind_programFrames _ q, callBlind_rmwAuth _ _ q, callBlind_barrier q]
  split <;> rfl

theorem callBlind_fixUpFrames (x : Slot) : CallBlind (fixUpFrames x) := by
  intro q s
  simp only [fixUpFrames, startObserved_withCall, callBlind_tblRead _ _ q,
    callBlind_programFrames _ q]
  split <;> rfl

theorem callBlind_setAuthorization (region : Word) (a : Byte) :
    CallBlind (setAuthorization region a) := by
  intro q s
  unfold setAuthorization
  split
  · rfl
  · rw [callBlind_ensureReserved, callBlind_fixUpFrames, callBlind_rmwAuth, callBlind_barrier]

theorem callBlind_bindCounter (i e : Word) : CallBlind (bindCounter i e) := by
  intro q s
  unfold bindCounter
  split <;> rfl

theorem callBlind_resetCounters : CallBlind resetCounters := fun q s =>
  callBlind_foldl (f := bindBaseline) (fun _ _ _ => rfl) baselineCounters q
    (csrWrite .wen wenAllOnes (csrSetBits .ideleg (overflowMask s.cfg) s))

theorem callBlind_extCallIf (b : Bool) (n : Collaborator) : CallBlind (extCallIf b n) := by
  intro q s
  cases b <;> rfl

theorem callBlind_finalHooks : CallBlind finalHooks := by
  intro q s
  simp only [finalHooks, withCall_cfg, withCall_hart, withCall_coldHart, callBlind_extCallIf _ _ q]
  split <;> rfl

/-- No operation reads what an earlier call left, and only its return writes a call register
(log 5). -/
theorem callBlind_effectOf (i : Instr) : CallBlind (effectOf i) :=
  effectOf_induction (P := CallBlind)
    (ensure := callBlind_ensureReserved)
    (setAuth := callBlind_setAuthorization)
    (bind := callBlind_bindCounter)
    (reset := callBlind_resetCounters)
    (nothing := fun _ _ => rfl)
    (early := fun q s => callBlind_extCallIf s.cfg.errata.tlbFlush _ q s)
    (extensions := fun _ _ => rfl)
    (final := callBlind_finalHooks) i

theorem callBlind_noteHook (i : Instr) : CallBlind (noteHook i) := by
  intro q s
  unfold noteHook
  split <;> rfl

/-- Every row of the dispatcher returns success (42_call_dispatcher.md R189). -/
theorem returnOf_of_decode_vcall {cfg : Cfg} {c : Call} {i : Instr}
    (h : decode cfg (.vcall c) = .ok i) : returnOf cfg i = callReturn := by
  change decodeCall cfg c = .ok i at h
  unfold decodeCall at h
  split at h
  · rename_i r _
    cases h
    cases r <;> rfl
  · cases h

/-- The call registers after a vendor call has answered on hart `h`. -/
def answered (e v : Word) (h : Hart) (q : Vector CallRegs 4) : Vector CallRegs 4 :=
  q.set h.val { q[h.val] with err := e, val := v }

theorem complete_status_withCall (e v : Word) (q : Vector CallRegs 4) (s : State) :
    complete (.status e v) (withCall q s) =
      setRet s.hart (.status e v) (withCall (answered e v s.hart q) s) := rfl

/-- A call's five values and its answer are the whole of a hart's call registers. -/
theorem answered_present (e v : Word) (h : Hart) (q : Vector CallRegs 4) (k : CallRegs) (c : Call) :
    answered e v h (q.set h.val (k.present c)) =
      q.set h.val ⟨c.eid, c.fid, c.a0, c.a1, c.a2, e, v⟩ := by
  simp [answered, CallRegs.present]

/-- A vendor call ends the same from any call registers that its answer makes the same. -/
theorem exec_withCall {i : Instr} {s : State} {e v : Word} {q q' : Vector CallRegs 4}
    (hr : returnOf s.cfg i = .status e v) (hq : answered e v s.hart q = answered e v s.hart q') :
    exec i (withCall q s) = exec i (withCall q' s) := by
  simp only [exec_eq_operate, operate, withCall_cfg, hr, callBlind_effectOf i _,
    complete_status_withCall, effectOf_hart, hq]

/-- A call begins with its five values in the hart's call registers, beside whatever stood in `err`
and `val`. -/
theorem begun_vcall_setCall (h : Hart) (c : Call) (i : Instr) (k : CallRegs) (s : State) :
    begun h (.vcall c) i (setCall h k s) =
      withCall (s.call.set h.val (k.present c)) (noteHook i { s with hart := h }) := by
  have tuple : presented h (.vcall c) (setCall h k s) =
      withCall (s.call.set h.val (k.present c)) { s with hart := h } := by
    simp [presented, withCall, setCall, State.callOf]
  rw [begun, tuple, callBlind_noteHook]

/-- A vendor call ends the same whatever stood in its hart's call registers. -/
theorem exec_begun_vcall_setCall {s : State} {c : Call} {i : Instr}
    (hd : decode s.cfg (.vcall c) = .ok i) (h : Hart) (k k' : CallRegs) :
    exec i (begun h (.vcall c) i (setCall h k s)) =
      exec i (begun h (.vcall c) i (setCall h k' s)) := by
  rw [begun_vcall_setCall, begun_vcall_setCall]
  refine exec_withCall (e := Config.success) (v := Config.callValue) ?_ ?_
  · rw [noteHook_cfg]; exact returnOf_of_decode_vcall hd
  · rw [noteHook_hart, answered_present, answered_present]

/-- Neither whether a vendor call is admitted nor how it ends depends on the call registers. -/
theorem takeInput_vcall_setCall {s : State} (handler : s.handler = true) (h : Hart) (c : Call)
    (k k' : CallRegs) :
    takeInput (.request h (.vcall c)) (setCall h k s) =
      takeInput (.request h (.vcall c)) (setCall h k' s) := by
  by_cases idle : s.busyOf h = []
  · cases hd : decode s.cfg (.vcall c) with
    | ok i =>
      simpa [takeInput, receive, reaches, handler, idle, hd]
        using exec_begun_vcall_setCall hd h k k'
    | error e => simp [takeInput, receive, reaches, handler, idle, hd]
  · simp [takeInput, receive, reaches, handler, idle]

theorem setCall_callOf (h : Hart) (s : State) : setCall h (s.callOf h) s = s := by
  simp [setCall, State.callOf]

/-- Settles O11: the registers the hart holds already are among those it may hold. -/
theorem callRegistersDoNotSurvive : Obligations.CallRegistersDoNotSurvive := by
  intro s h c rest k handler inputs
  have inputs' : (setCall h k s).inputs = .request h (.vcall c) :: rest := inputs
  have same := takeInput_vcall_setCall (s := { s with inputs := rest }) handler h c k (s.callOf h)
  rw [step, step, inputs, inputs']
  exact same.trans (congrArg _ (setCall_callOf h { s with inputs := rest }))

/-! ### The owners of the registers (10_state.md R35) -/

/-- Whose registers an operation can touch, with what it does whole and what it does one thing at a
time. -/
inductive OwnerCase (i : Instr) : Prop
  | ensure : isRegionOp i = true → effectOf i = ensureReserved →
      (∀ cfg cold, bodyMicros cfg cold i = ensureMicros cfg) → OwnerCase i
  | setAuth (region : Word) (a : Byte) : isRegionOp i = true →
      effectOf i = setAuthorization region a →
      (∀ cfg cold, bodyMicros cfg cold i = setAuthMicros cfg region a) → OwnerCase i
  | mapper (t c e : Word) : isCounterOp i = true → effectOf i = dispatchCounter t c e →
      (∀ cfg cold, bodyMicros cfg cold i = dispatchMicros cfg t c e) → OwnerCase i
  | neither : (∀ s, (effectOf i s).tbl = s.tbl ∧ (effectOf i s).pmu = s.pmu) →
      (∀ cfg cold, ∀ m ∈ bodyMicros cfg cold i, ∃ n, m = .ext n) → OwnerCase i

/-- A hook changes no register. -/
theorem extCallIf_registers (b : Bool) (n : Collaborator) (s : State) :
    (extCallIf b n s).tbl = s.tbl ∧ (extCallIf b n s).pmu = s.pmu := by
  cases b <;> exact ⟨rfl, rfl⟩

theorem finalHooks_registers (s : State) :
    (finalHooks s).tbl = s.tbl ∧ (finalHooks s).pmu = s.pmu := by
  unfold finalHooks
  split
  · simp [extCallIf_registers]
  · exact ⟨rfl, rfl⟩

theorem mem_extMicros {b : Bool} {n : Collaborator} {m : Micro} (h : m ∈ extMicros b n) :
    ∃ n, m = .ext n := by
  cases b with
  | true => exact ⟨n, List.mem_singleton.1 h⟩
  | false => cases h

theorem mem_finalMicros {cfg : Cfg} {cold : Bool} {m : Micro} (h : m ∈ finalMicros cfg cold) :
    ∃ n, m = .ext n := by
  cases cold with
  | true => exact (List.mem_append.1 h).elim mem_extMicros mem_extMicros
  | false => cases h

/-- Every operation is the controller's, the mapper's, or touches no register. -/
theorem ownerCase (i : Instr) : OwnerCase i := by
  have nothing {j : Instr} (he : effectOf j = id) (hb : ∀ cfg cold, bodyMicros cfg cold j = []) :
      OwnerCase j :=
    .neither (fun _ => by rw [he]; exact ⟨rfl, rfl⟩) fun cfg cold => by simp [hb]
  cases i with
  | ensureReservedRegion => exact .ensure rfl rfl fun _ _ => rfl
  | setRegionAuthorization region a => exact .setAuth region a rfl rfl fun _ _ => rfl
  | bind i e => exact .mapper Config.opBind i e rfl rfl fun _ _ => rfl
  | resetBaseline => exact .mapper 0 0 0 rfl rfl fun _ _ => rfl
  | dispatch t i e => exact .mapper t i e rfl rfl fun _ _ => rfl
  | isColdBootAllowed _ => exact nothing rfl fun _ _ => rfl
  | earlyInit => exact .neither (fun s => extCallIf_registers _ _ s) fun _ _ _ => mem_extMicros
  | extensionsInit =>
    exact .neither (fun _ => ⟨rfl, rfl⟩) fun _ _ _ h => ⟨_, List.mem_singleton.1 h⟩
  | finalInit => exact .neither finalHooks_registers fun _ _ _ => mem_finalMicros
  | vcallPmuBind _ a1 a2 => exact .mapper Config.opBind a1 a2 rfl rfl fun _ _ => rfl
  | vcallPmuReset _ a0 a1 a2 => exact .mapper a0 a1 a2 rfl rfl fun _ _ => rfl
  | vcallPmpTcm0 a0 _ _ => exact .setAuth Config.fidTcm0 (authOperand a0) rfl rfl fun _ _ => rfl
  | vcallPmpTcm1 a0 _ _ => exact .setAuth Config.fidTcm1 (authOperand a0) rfl rfl fun _ _ => rfl
  | vcallPmpNop _ _ _ _ => exact nothing rfl fun _ _ => rfl
  | vcallNop _ _ _ _ _ => exact nothing rfl fun _ _ => rfl
  | vcallLegacyBind _ _ a1 a2 => exact .mapper Config.opBind a1 a2 rfl rfl fun _ _ => rfl
  | vcallLegacyReset _ _ a0 a1 a2 => exact .mapper a0 a1 a2 rfl rfl fun _ _ => rfl

/-- Run whole, an operation changes only its owner's registers. -/
theorem effectOf_owner (i : Instr) (s : State) :
    ((effectOf i s).tbl = s.tbl ∨ isRegionOp i = true) ∧
    ((effectOf i s).pmu = s.pmu ∨ isCounterOp i = true) := by
  cases ownerCase i with
  | ensure hr he _ => exact ⟨.inr hr, .inl (by rw [he]; exact (sameBut_ensureReserved s).pmu)⟩
  | setAuth region a hr he _ =>
    exact ⟨.inr hr, .inl (by rw [he]; exact (sameBut_setAuthorization region a s).pmu)⟩
  | mapper t c e hc he _ =>
    exact ⟨.inl (by rw [he]; exact (onlyCounters_dispatchCounter t c e s).tbl), .inr hc⟩
  | neither he _ => exact ⟨.inl (he s).1, .inl (he s).2⟩

/-! The pieces of the operations. -/

theorem ensureMicros_onCounters (cfg : Cfg) : (ensureMicros cfg).any Micro.onCounters = false := rfl

theorem setAuthMicros_onCounters (cfg : Cfg) (region : Word) (a : Byte) :
    (setAuthMicros cfg region a).any Micro.onCounters = false := by
  unfold setAuthMicros
  split <;> rfl

theorem dispatchMicros_onTable (cfg : Cfg) (t c e : Word) :
    (dispatchMicros cfg t c e).any Micro.onTable = false := by
  unfold dispatchMicros bindMicros
  split
  · split <;> rfl
  · simp [resetMicros, Micro.onTable]

theorem any_micros {f : Micro → Bool} (hf : ∀ r, f (.ret r) = false) (cfg : Cfg) (cold : Bool)
    (i : Instr) : (micros cfg cold i).any f = (bodyMicros cfg cold i).any f := by
  simp [micros, hf]

/-- An operation begins with accesses to its owner's registers only. -/
theorem micros_owner (cfg : Cfg) (cold : Bool) (i : Instr) :
    ((micros cfg cold i).any Micro.onTable = false ∨ isRegionOp i = true) ∧
    ((micros cfg cold i).any Micro.onCounters = false ∨ isCounterOp i = true) := by
  rw [any_micros (fun _ => rfl), any_micros (fun _ => rfl)]
  cases ownerCase i with
  | ensure hr _ hb => exact ⟨.inr hr, .inl (by rw [hb, ensureMicros_onCounters])⟩
  | setAuth region a hr _ hb => exact ⟨.inr hr, .inl (by rw [hb, setAuthMicros_onCounters])⟩
  | mapper t c e hc _ hb => exact ⟨.inl (by rw [hb, dispatchMicros_onTable]), .inr hc⟩
  | neither _ hb =>
    have noAccess {f : Micro → Bool} (hf : ∀ n, f (.ext n) = false) :
        (bodyMicros cfg cold i).any f = false :=
      List.any_eq_false.2 fun m hm => by obtain ⟨n, rfl⟩ := hb cfg cold m hm; simp [hf]
    exact ⟨.inl (noAccess fun _ => rfl), .inl (noAccess fun _ => rfl)⟩

theorem performMicro_tbl {m : Micro} (h : m.onTable = false) (rest : List Micro) (s : State) :
    (performMicro m rest s).tbl = s.tbl := by
  cases m with
  | write c r v => cases h
  | ret r => exact complete_tbl r s
  | _ => rfl

theorem performMicro_pmu {m : Micro} (h : m.onCounters = false) (rest : List Micro) (s : State) :
    (performMicro m rest s).pmu = s.pmu := by
  cases m with
  | csrWrite k v => cases h
  | csrSet k v => cases h
  | ret r => exact complete_pmu r s
  | _ => rfl

/-- What an operation has still to do after its next event it had to do before, or it is the write
of the word just read (20_memory.md R67). -/
theorem mem_busyOf_performMicro {m m' : Micro} {rest : List Micro} {s : State}
    (h : m' ∈ (performMicro m rest s).busyOf s.hart) :
    m' ∈ rest ∨ ∃ c x a r v, m = .rmw c x a ∧ m' = .write c r v := by
  cases m with
  | test x n =>
    simp only [performMicro, busyOf_setBusy, if_true] at h
    split at h
    · exact .inl (List.mem_of_mem_drop h)
    · exact .inl h
  | rmw c x a =>
    simp only [performMicro, busyOf_setBusy, if_true, List.mem_cons] at h
    exact h.symm.imp_right fun e => ⟨c, x, a, _, _, rfl, e⟩
  | _ => exact .inl (by simpa [performMicro] using h)

/-- No event adds an access to the registers of an owner that the operation has no access to. -/
theorem any_busyOf_performMicro {f : Micro → Bool} {m : Micro} {rest : List Micro} {s : State}
    (hf : ∀ c x a r v, f (.write c r v) = true → f (.rmw c x a) = true)
    (h : ((performMicro m rest s).busyOf s.hart).any f = true) : (m :: rest).any f = true := by
  obtain ⟨m', hm', ht⟩ := List.any_eq_true.1 h
  rcases mem_busyOf_performMicro hm' with old | ⟨c, x, a, r, v, rfl, rfl⟩
  · exact List.any_eq_true.2 ⟨m', List.mem_cons_of_mem _ old, ht⟩
  · exact List.any_eq_true.2 ⟨_, List.mem_cons_self, hf c x a r v ht⟩

/-- An element whose failing a test would mean `x = y` passes it if they differ. -/
theorem any_cons_of_ne {α β : Type} {f : α → Bool} {a : α} {l : List α} {x y : β}
    (h : f a = false → x = y) (ne : x ≠ y) : (a :: l).any f = true := by
  cases hf : f a with
  | true => rw [List.any_cons, hf, Bool.true_or]
  | false => exact absurd (h hf) ne

/-- An event changes registers only if its operation has an access to them to make, and leaves no
access to make that was not there. -/
theorem issueNext_owner (s : State) :
    ((issueNext s).tbl ≠ s.tbl → (s.busyOf s.hart).any Micro.onTable = true) ∧
    ((issueNext s).pmu ≠ s.pmu → (s.busyOf s.hart).any Micro.onCounters = true) ∧
    (((issueNext s).busyOf s.hart).any Micro.onTable = true →
      (s.busyOf s.hart).any Micro.onTable = true) ∧
    (((issueNext s).busyOf s.hart).any Micro.onCounters = true →
      (s.busyOf s.hart).any Micro.onCounters = true) := by
  unfold issueNext
  split
  · exact ⟨fun ne => absurd rfl ne, fun ne => absurd rfl ne, id, id⟩
  · rename_i m rest hb
    rw [hb]
    exact ⟨any_cons_of_ne (performMicro_tbl · rest s), any_cons_of_ne (performMicro_pmu · rest s),
      any_busyOf_performMicro fun _ _ _ _ _ => id,
      any_busyOf_performMicro fun _ _ _ _ _ => id⟩

theorem landNext_registers (h : Hart) (s : State) :
    (landNext h s).tbl = s.tbl ∧ (landNext h s).pmu = s.pmu := by
  unfold landNext
  split <;> exact ⟨rfl, rfl⟩

theorem step_issue {s : State} {h : Hart} {rest : List Input} (hin : s.inputs = .issue h :: rest) :
    step s = .next (issueNext { s with inputs := rest, hart := h }) := by
  rw [step, hin]; rfl

/-- Settles O46: by the owner of the operation run whole or begun, and by the kind of the event
issued. -/
theorem ownershipOfRegisters : Obligations.OwnershipOfRegisters := by
  refine ⟨?whole, ?begins, ?issue, ?startOrLand⟩
  case whole =>
    intro i s t e
    obtain ⟨_, rfl⟩ := exec_inv e
    rw [complete_tbl, complete_pmu]
    obtain ⟨table, counters⟩ := effectOf_owner i s
    exact ⟨table.resolve_left, counters.resolve_left⟩
  case begins =>
    intro cfg cold i
    obtain ⟨table, counters⟩ := micros_owner cfg cold i
    rw [← Bool.not_eq_true] at table counters
    exact ⟨fun any => table.resolve_left (not_not_intro any),
      fun any => counters.resolve_left (not_not_intro any)⟩
  case issue =>
    intro s t h rest hin e
    rw [step_issue hin] at e
    cases e
    exact issueNext_owner { s with inputs := rest, hart := h }
  case startOrLand =>
    intro s t h r rest hin e
    cases step_cases e with
    | idle _ ht => rw [ht]; exact ⟨rfl, rfl⟩
    | unreached _ _ _ ht => rw [ht]; exact ⟨rfl, rfl⟩
    | request _ _ _ _ hin' => simp [hin'] at hin
    | start k r rest i _ _ _ _ ht => subst ht; simp
    | issue _ _ hin' => simp [hin'] at hin
    | land k rest _ ht => rw [ht]; exact landNext_registers k _

/-! ### Frames and authorizations, slot by slot (10_state.md R28, R30, R34) -/

/-- The frames and the authorization of a slot in one bank. -/
structure BankSlot where
  startFrame : Word32
  endFrame   : Word32
  auth       : Byte

/-- What bank `c` holds of slot `x`. -/
def State.bankSlot (s : State) (c : Bank) (x : Slot) : BankSlot where
  startFrame := s.tblAt c (.startFrame x)
  endFrame   := s.tblAt c (.endFrame x)
  auth       := authField s.cfg x (s.tblAt c (authReg s.cfg x))

/-- Replicas are equal if the banks hold the same of the slot. -/
theorem replicasEqual_iff (s : State) (x : Slot) :
    s.ReplicasEqual x ↔ ∀ c d, s.bankSlot c x = s.bankSlot d x := by
  simp [State.ReplicasEqual, State.bankSlot]

/-- What is stored of one slot in a bank: its expected frames or not, an authorization or none. -/
structure SlotUpdate where
  frames : Bool
  auth   : Option Byte

/-- What a bank holds of slot `x` after an update. -/
def SlotUpdate.apply (u : SlotUpdate) (cfg : Cfg) (x : Slot) (b : BankSlot) : BankSlot where
  startFrame := if u.frames then expStart cfg x else b.startFrame
  endFrame   := if u.frames then expEnd cfg x else b.endFrame
  auth       := u.auth.getD b.auth

/-- Update `u`, then update `v`. -/
def SlotUpdate.andThen (u v : SlotUpdate) : SlotUpdate where
  frames := v.frames || u.frames
  auth   := v.auth.or u.auth

theorem SlotUpdate.apply_andThen (u v : SlotUpdate) (cfg : Cfg) (x : Slot) (b : BankSlot) :
    (u.andThen v).apply cfg x b = v.apply cfg x (u.apply cfg x b) := by
  obtain ⟨uf, ua⟩ := u
  obtain ⟨vf, va⟩ := v
  cases vf <;> cases va <;> simp [andThen, apply]

/-- Every bank's slot `x` has been updated alike, the reserved window's field with NO_ACCESS only
(10_state.md R34, 40_region_controller.md R133). -/
structure UpdatedAlike (x : Slot) (s t : State) : Prop where
  cfg    : t.cfg = s.cfg
  tblWf  : Memory.wf s.tbl = true → Memory.wf t.tbl = true
  update : cfgOk s.cfg = true → Memory.wf s.tbl = true → ∃ u : SlotUpdate,
    (x = .rsv → ∀ a ∈ u.auth, a = s.cfg.noAccess) ∧
    ∀ c, t.bankSlot c x = u.apply s.cfg x (s.bankSlot c x)

theorem updatedAlike_of_tbl_eq {s t : State} (x : Slot) (hc : t.cfg = s.cfg) (ht : t.tbl = s.tbl) :
    UpdatedAlike x s t where
  cfg := hc
  tblWf := fun hm => ht ▸ hm
  update := fun _ _ => ⟨⟨false, none⟩, by simp, fun c => by
    simp [State.bankSlot, SlotUpdate.apply, tblAt_congr hc ht, hc]⟩

theorem UpdatedAlike.trans {x : Slot} {s t u : State} (a : UpdatedAlike x s t)
    (b : UpdatedAlike x t u) : UpdatedAlike x s u where
  cfg := b.cfg.trans a.cfg
  tblWf := fun hm => b.tblWf (a.tblWf hm)
  update := by
    intro ok hm
    obtain ⟨v, va, hv⟩ := a.update ok hm
    obtain ⟨w, wa, hw⟩ := b.update (a.cfg ▸ ok) (a.tblWf hm)
    rw [a.cfg] at wa hw
    refine ⟨v.andThen w, fun hx a ha => ?_, fun c => ?_⟩
    · rcases Option.or_eq_some_iff.1 ha with ha | ⟨_, ha⟩
      · exact wa hx a ha
      · exact va hx a ha
    · rw [hw, hv, SlotUpdate.apply_andThen]

theorem fieldsApart_iff (x y : SlotCfg) :
    fieldsApart x y = true ↔ (x.word = y.word → x.lane ≠ y.lane) := by
  simp [fieldsApart, imp_iff_not_or]

/-- Two slots whose fields stand in one word have them in different lanes (10_state.md R30). -/
theorem lane_ne_of_authReg_eq {cfg : Cfg} (h : cfgOk cfg = true) {x y : Slot} (ne : x ≠ y)
    (e : authReg cfg x = authReg cfg y) : (slotCfg cfg x).lane ≠ (slotCfg cfg y).lane := by
  have word : (slotCfg cfg x).word = (slotCfg cfg y).word := TblReg.cfgWord.inj e
  simp only [cfgOk, Bool.and_eq_true, fieldsApart_iff] at h
  obtain ⟨⟨⟨⟨_, tcm0_tcm1⟩, tcm0_rsv⟩, tcm1_rsv⟩, _⟩ := h
  cases x <;> cases y
  case tcm0.tcm1 => exact tcm0_tcm1 word
  case tcm0.rsv => exact tcm0_rsv word
  case tcm1.rsv => exact tcm1_rsv word
  case tcm1.tcm0 => exact (tcm0_tcm1 word.symm).symm
  case rsv.tcm0 => exact (tcm0_rsv word.symm).symm
  case rsv.tcm1 => exact (tcm1_rsv word.symm).symm
  all_goals exact absurd rfl ne

/-- A slot's field after the merge of slot `y`'s field into the word that holds it. -/
theorem authField_merged {cfg : Cfg} (ok : cfgOk cfg = true) (x y : Slot) (a : Byte) (w : Word32) :
    authField cfg x (if authReg cfg x = authReg cfg y then mergeAuth cfg y a w else w) =
      if x = y then a else authField cfg x w := by
  by_cases same : x = y
  · subst same; simp only [if_true, authField_mergeAuth]
  · rw [if_neg same]
    split
    · rename_i e
      exact authField_mergeAuth_other cfg (lane_ne_of_authReg_eq ok (Ne.symm same) e.symm) a w
    · rfl

theorem updatedAlike_programFrames (x y : Slot) (s : State) :
    UpdatedAlike x s (programFrames y s) where
  cfg := programFrames_cfg y s
  tblWf := fun hm => programFrames_tblWf hm y
  update := by
    intro ok hm
    refine ⟨⟨decide (x = y), none⟩, by simp, fun c => ?_⟩
    simp only [State.bankSlot, SlotUpdate.apply, programFrames_cfg, programFrames_tblAt ok hm]
    by_cases hx : x = y
    · subst hx; simp [authReg]
    · simp [hx, authReg]

theorem updatedAlike_rmwAuth (x y : Slot) {a : Byte} {s : State}
    (ha : y = .rsv → a = s.cfg.noAccess) : UpdatedAlike x s (rmwAuth y a s) where
  cfg := rmwAuth_cfg y a s
  tblWf := fun hm => rmwAuth_tblWf hm y a
  update := by
    intro ok hm
    refine ⟨⟨false, if x = y then some a else none⟩, fun hx b hb => ?_, fun c => ?_⟩
    · split at hb
      · rename_i same
        cases hb
        exact ha (same ▸ hx)
      · cases hb
    · simp only [State.bankSlot, SlotUpdate.apply, rmwAuth_cfg, rmwAuth_tblAt ok hm,
        authField_merged ok]
      by_cases hx : x = y <;> simp [hx, authReg]

theorem updatedAlike_tblRead (x : Slot) (c : Bank) (r : TblReg) (s : State) :
    UpdatedAlike x s (tblRead c r s) :=
  updatedAlike_of_tbl_eq x (tblRead_cfg c r s) (tblRead_tbl c r s)

theorem updatedAlike_barrier (x : Slot) (s : State) : UpdatedAlike x s (barrier s) :=
  updatedAlike_of_tbl_eq x (barrier_cfg s) (barrier_tbl s)

theorem updatedAlike_ensureReserved (x : Slot) (s : State) :
    UpdatedAlike x s (ensureReserved s) := by
  have read := updatedAlike_tblRead x Config.readReplica (.startFrame .rsv) s
  unfold ensureReserved
  simp only
  split
  · exact read
  · refine read.trans <| (updatedAlike_programFrames x .rsv _).trans <|
      (updatedAlike_rmwAuth x .rsv fun _ => ?_).trans (updatedAlike_barrier x _)
    rw [programFrames_cfg, tblRead_cfg]

theorem updatedAlike_fixUpFrames (x y : Slot) (s : State) : UpdatedAlike x s (fixUpFrames y s) := by
  have read := updatedAlike_tblRead x Config.readReplica (.startFrame y) s
  unfold fixUpFrames
  simp only
  split
  · exact read
  · exact read.trans (updatedAlike_programFrames x y _)

theorem updatedAlike_setAuthorization (x : Slot) (region : Word) (a : Byte) (s : State) :
    UpdatedAlike x s (setAuthorization region a s) := by
  unfold setAuthorization
  split
  · exact updatedAlike_of_tbl_eq x rfl rfl
  · rename_i y hy
    exact (updatedAlike_ensureReserved x s).trans <| (updatedAlike_fixUpFrames x y _).trans <|
      (updatedAlike_rmwAuth x y fun hr => absurd hr (regionSlot_ne_rsv hy)).trans
        (updatedAlike_barrier x _)

theorem updatedAlike_effectOf (x : Slot) (i : Instr) (s : State) :
    UpdatedAlike x s (effectOf i s) := by
  cases ownerCase i with
  | ensure _ he _ => rw [he]; exact updatedAlike_ensureReserved x s
  | setAuth region a _ he _ => rw [he]; exact updatedAlike_setAuthorization x region a s
  | mapper t c e _ he _ =>
    have o := onlyCounters_dispatchCounter t c e s
    rw [he]; exact updatedAlike_of_tbl_eq x o.cfg o.tbl
  | neither he _ => exact updatedAlike_of_tbl_eq x (effectOf_cfg i s) (he s).1

/-- An operation run whole updates every bank's slot alike (10_state.md R34). -/
theorem updatedAlike_exec {i : Instr} {s t : State} (e : exec i s = .next t)
    (hm : Memory.wf s.tbl = true) (x : Slot) :
    ∃ u : SlotUpdate, (x = .rsv → ∀ a ∈ u.auth, a = s.cfg.noAccess) ∧
      ∀ c, t.bankSlot c x = u.apply s.cfg x (s.bankSlot c x) := by
  obtain ⟨ok, rfl⟩ := exec_inv e
  exact ((updatedAlike_effectOf x i s).trans
    (updatedAlike_of_tbl_eq x (complete_cfg _ _) (complete_tbl _ _))).update ok hm

theorem SlotUpdate.startFrame_apply (u : SlotUpdate) (cfg : Cfg) (x : Slot) (b : BankSlot) :
    (u.apply cfg x b).startFrame = b.startFrame ∨
      (u.apply cfg x b).startFrame = expStart cfg x := by
  cases h : u.frames <;> simp [apply, h]

theorem SlotUpdate.endFrame_apply (u : SlotUpdate) (cfg : Cfg) (x : Slot) (b : BankSlot) :
    (u.apply cfg x b).endFrame = b.endFrame ∨ (u.apply cfg x b).endFrame = expEnd cfg x := by
  cases h : u.frames <;> simp [apply, h]

theorem SlotUpdate.auth_apply (u : SlotUpdate) (cfg : Cfg) (x : Slot) (b : BankSlot) :
    (u.apply cfg x b).auth = b.auth ∨ (u.apply cfg x b).auth ∈ u.auth := by
  cases h : u.auth <;> simp [apply, h]

/-- Settles O27: a slot's update stores the expected frames or none, and the reserved window's
authorization is NO_ACCESS or none. -/
theorem framesAndReservedFieldTakeOnlyConstants :
    Obligations.FramesAndReservedFieldTakeOnlyConstants := by
  intro i s t ⟨tblWf, _⟩ e c x
  obtain ⟨u, _, hu⟩ := updatedAlike_exec e tblWf x
  obtain ⟨v, reserved, hv⟩ := updatedAlike_exec e tblWf .rsv
  have frames := u.startFrame_apply s.cfg x (s.bankSlot c x)
  have ends := u.endFrame_apply s.cfg x (s.bankSlot c x)
  have field := v.auth_apply s.cfg .rsv (s.bankSlot c .rsv)
  rw [← hu] at frames ends
  rw [← hv] at field
  have auth : (t.bankSlot c .rsv).auth = authField s.cfg .rsv (t.tblAt c (authReg s.cfg .rsv)) := by
    rw [State.bankSlot, exec_cfg e]
  rw [auth] at field
  exact ⟨frames, ends, field.imp_right (reserved rfl _)⟩

/-- Settles O47: banks updated alike stay alike, and the field just programmed is the authorization
in every bank. -/
theorem replicasStayEqual : Obligations.ReplicasStayEqual := by
  intro i s t ok ⟨tblWf, _⟩ e
  refine ⟨fun x equal => ?_, ?_⟩
  · obtain ⟨u, _, hu⟩ := updatedAlike_exec e tblWf x
    rw [replicasEqual_iff] at equal ⊢
    exact fun c d => by rw [hu, hu, equal c d]
  · rintro region a x rfl hx c d
    have field (b : Bank) : authField t.cfg x (t.tblAt b (authReg t.cfg x)) = a := by
      obtain ⟨_, rfl⟩ := exec_inv e
      simp only [complete_cfg, tblAt_complete, effectOf_cfg]
      rw [effectOf, setAuthorization_tblAt ok tblWf hx, if_pos rfl, authField_mergeAuth]
    rw [field, field]

end Sys2Proof.Machine
end

section
/-! PROOFS of the memory (20_memory.md): the check of the configuration and the address map (R61, R62,
R69), the registers as bytes and by address (R64 to R66), and what the external observers see
(R71 to R73, decision D21). -/

namespace Sys2Proof.Machine

/-! ### What observers see between whole operations (20_memory.md R73 (c)) -/

/-- With nothing queued on the acting hart, to be one drain apart is to be equal. -/
theorem caughtUp_iff_of_unqueued {s : State} (h : s.pendOf s.hart = []) :
    CaughtUp s ↔ s.vis = s.tbl := by
  rw [CaughtUp, h, List.foldl_nil]

/-- A request that is taken from the inputs and begins leaves the machine quiescent. -/
theorem quiescent_begun {s : State} (q : s.Quiescent) (h : Hart) (r : Request) (i : Instr)
    (l : List Input) : (begun h r i { s with inputs := l }).Quiescent := by
  obtain ⟨idle, current, unqueued⟩ := q
  exact ⟨fun k => by rw [busyOf_begun]; exact idle k, by simpa using current,
    fun k => by rw [pendOf_begun]; exact unqueued k⟩

/-- A whole operation leaves the machine quiescent: it publishes what it writes before it returns
(20_memory.md R76). -/
theorem quiescent_exec {i : Instr} {s t : State} (q : s.Quiescent) (e : exec i s = .next t) :
    t.Quiescent := by
  obtain ⟨idle, current, unqueued⟩ := q
  obtain ⟨_, rfl⟩ := exec_inv e
  have still (k : Hart) : (effectOf i s).pendOf k = [] := by
    rw [effectOf_pend i s (unqueued _), unqueued]
  have caught : CaughtUp (effectOf i s) :=
    effectOf_caughtUp i ((caughtUp_iff_of_unqueued (unqueued _)).2 current)
  refine ⟨fun k => ?_, ?_, fun k => ?_⟩
  · rw [busyOf_complete, State.busyOf, effectOf_busy]; exact idle k
  · rw [complete_vis, complete_tbl]; exact (caughtUp_iff_of_unqueued (still _)).1 caught
  · rw [pendOf_complete, still]

/-- With nothing queued there is nothing to land. -/
theorem landNext_of_unqueued {s : State} {h : Hart} (unqueued : s.pendOf h = []) :
    landNext h s = s := by
  rw [landNext, unqueued]

/-- Settles O54: a whole operation publishes what it writes, and a landing finds nothing queued. -/
theorem serialStepKeepsObserversCurrent : Obligations.SerialStepKeepsObserversCurrent := by
  intro s t inp rest hin serial q e
  cases step_cases e with
  | idle hin' => simp [hin'] at hin
  | unreached _ _ _ ht => exact ht ▸ q
  | request h r l i _ _ _ he => exact quiescent_exec (quiescent_begun q h r i l) he
  | start h r l i hin' => obtain ⟨rfl, _⟩ := List.cons.inj (hin.symm.trans hin'); cases serial
  | issue h l hin' => obtain ⟨rfl, _⟩ := List.cons.inj (hin.symm.trans hin'); cases serial
  | land h l _ ht =>
    obtain ⟨idle, current, unqueued⟩ := q
    obtain rfl : t = { s with inputs := l } := ht.trans (landNext_of_unqueued (unqueued h))
    exact ⟨idle, current, unqueued⟩

/-! ### The check of the configuration (20_memory.md R62, R69) -/

/-- The base of the table and the stride of its banks are multiples of 4 (20_memory.md R62 (a)). -/
theorem base_stride_aligned {cfg : Cfg} (ok : cfgOk cfg = true) :
    cfg.tableBase % 4 = 0 ∧ cfg.coreStride % 4 = 0 := by
  have map := mapOk_of_cfgOk ok
  simp only [mapOk, Bool.and_eq_true, beq_iff_eq] at map
  obtain ⟨⟨⟨base, stride⟩, _⟩, _⟩ := map
  exact ⟨base, stride⟩

theorem addrOk_iff (a : Word) : addrOk a = true ↔ a.toNat % 4096 = 0 ∧ a.toNat < 2 ^ 44 := by
  simp [addrOk]

/-- Both addresses of every slot pass the check (20_memory.md R69). -/
theorem slotAddrs_ok {cfg : Cfg} (ok : cfgOk cfg = true) (x : Slot) :
    addrOk (slotCfg cfg x).startAddr = true ∧ addrOk (slotCfg cfg x).endAddr = true := by
  simp only [cfgOk, slotOk, Bool.and_eq_true] at ok
  obtain ⟨⟨⟨⟨⟨⟨⟨_, tcm0⟩, tcm1⟩, rsv⟩, _⟩, _⟩, _⟩, _⟩ := ok
  cases x with
  | tcm0 => exact tcm0
  | tcm1 => exact tcm1
  | rsv => exact rsv

theorem extIds_ne {cfg : Cfg} (ok : cfgOk cfg = true) : cfg.extPmu ≠ cfg.extPmp := by
  simp only [cfgOk, Bool.and_eq_true, bne_iff_ne] at ok
  obtain ⟨_, ne⟩ := ok
  exact ne

theorem exec_refused {s : State} (h : cfgOk s.cfg = false) (i : Instr) :
    exec i s = .refused .badConfig := by
  rw [exec_eq_operate, operate_refused h]

/-- Settles O12: the check asks for each of the constraints. -/
theorem badConfigurationIsRefused : Obligations.BadConfigurationIsRefused := by
  intro i s broken
  refine exec_refused (Bool.eq_false_iff.2 fun ok => ?_) i
  rcases broken with ⟨r, h⟩ | h | h | ⟨r, r', ne, e⟩ | ⟨r, h⟩ | ⟨r, h⟩ | ⟨x, h⟩ | h
  · exact h (offsetOk ok r).aligned
  · exact h (base_stride_aligned ok).1
  · exact h (base_stride_aligned ok).2
  · exact ne (regOff_injective ok e)
  · exact absurd (offsetOk ok r).inBank (Nat.not_le.2 h)
  · exact absurd (offsetOk ok r).below (Nat.not_lt.2 h)
  · obtain ⟨first, last⟩ := slotAddrs_ok ok x
    rw [addrOk_iff] at first last
    omega
  · exact extIds_ne ok h

/-! ### The registers as addresses and bytes (20_memory.md R61 to R66) -/

/-- Every register ends inside the address space (20_memory.md R62 (d)). -/
theorem regAddr_below {cfg : Cfg} (ok : cfgOk cfg = true) (c : Bank) (r : TblReg) :
    regAddr cfg c r + 3 < Config.addressTop := by
  have below := (offsetOk ok r).below
  have bank : c.val * cfg.coreStride ≤ 3 * cfg.coreStride := Nat.mul_le_mul_right _ (by omega)
  unfold regAddr
  omega

/-- Settles O13: alignment, the top of the address space, and no shared byte, from the check. -/
theorem registersDoNotOverlap : Obligations.RegistersDoNotOverlap := by
  intro cfg ok
  exact ⟨fun c r => ⟨regAddr_aligned ok c r, regAddr_below ok c r⟩,
    fun _ _ _ _ other => regAddr_apart ok (not_and_or.2 other)⟩

theorem inWord_iff (a k : Nat) : inWord a k = true ↔ a ≤ k ∧ k < a + 4 := by
  simp [inWord]

/-- Settles O15: a register is written as its four bytes, the lowest at its address. -/
theorem byteViewOfRegister : Obligations.ByteViewOfRegister := by
  intro s c r v ⟨tblWf, _⟩
  refine ⟨fun j hj => ?_, fun k outside => ?_⟩
  · rw [tblWrite_tbl, Memory.read_writeWord tblWf, if_pos ((inWord_iff _ _).2 (by omega)),
      Nat.add_sub_cancel_left]
  · rw [tblWrite_tbl, Memory.read_writeWord tblWf, if_neg (by rw [inWord_iff]; omega)]

theorem mem_tableAddrs {cfg : Cfg} {a : Nat} (h : a ∈ tableAddrs cfg) :
    ∃ c r, a = regAddr cfg c r := by
  obtain ⟨c, _, h⟩ := List.mem_flatMap.1 h
  obtain ⟨r, _, h⟩ := List.mem_map.1 h
  exact ⟨c, r, h.symm⟩

/-- A refused access reads nothing and writes nothing. -/
theorem access_refused {cfg : Cfg} {addr n : Nat} {e : Refusal}
    (h : accessRefusal cfg addr n = some e) (m : Memory) :
    memRead cfg m addr n = .error e ∧ ∀ v, memWrite cfg m addr n v = .error e := by
  simp [memRead, memWrite, h]

/-- An access that is not refused is of the word at its address. -/
theorem access_granted {cfg : Cfg} {addr n : Nat} (h : accessRefusal cfg addr n = none)
    (m : Memory) :
    memRead cfg m addr n = .ok (Memory.readWord m addr) ∧
      ∀ v, memWrite cfg m addr n v = .ok (Memory.writeWord m addr v) := by
  simp [memRead, memWrite, h]

/-- Settles O16: the four answers of the check of an access. -/
theorem accessByAddress : Obligations.AccessByAddress := by
  intro cfg m ok
  refine ⟨fun c r => access_granted ?_ m, fun addr n width => access_refused ?_ m,
    fun addr misaligned => access_refused ?_ m, fun addr aligned unmapped => access_refused ?_ m⟩
  · simp [accessRefusal, regAddr_aligned ok, regAddr_mem]
  · simp [accessRefusal, width]
  · simp [accessRefusal, misaligned]
  · have absent : addr ∉ tableAddrs cfg := fun h =>
      let ⟨c, r, e⟩ := mem_tableAddrs h
      unmapped c r e
    simp [accessRefusal, aligned, absent]

/-! ### Landings (20_memory.md R71, R72) -/

/-- A run of one step more. -/
theorem run_succ {s u : State} (e : step s = .next u) (n : Nat) :
    Host.Core.run core (n + 1) s = Host.Core.run core n u := by
  have first : core.step s = .next u := e
  simp only [Host.Core.run, first]

theorem step_land {s : State} {h : Hart} {rest : List Input} (hin : s.inputs = .land h :: rest) :
    step s = .next (landNext h { s with inputs := rest }) := by
  rw [step, hin]; rfl

/-- `s` once the oldest `n` queued writes of hart `h` have landed, with the inputs `rest` still to
come. -/
def landed (h : Hart) (n : Nat) (rest : List Input) (s : State) : State :=
  setPend h ((s.pendOf h).drop n)
    { s with inputs := rest, vis := ((s.pendOf h).take n).foldl (applyPending s.cfg) s.vis }

theorem landed_zero (h : Hart) (s : State) : landed h 0 s.inputs s = s := by
  simp [landed, setPend, State.pendOf]

/-- The next landing is of the oldest queued write. -/
theorem landNext_eq_landed {s : State} {h : Hart} (queued : s.pendOf h ≠ []) (l : List Input) :
    landNext h { s with inputs := l } = landed h 1 l s := by
  obtain ⟨p, q, hq⟩ := List.exists_cons_of_ne_nil queued
  have hq' : s.pend[h.val] = p :: q := hq
  simp [landed, landNext, State.pendOf, hq']

/-- One landing and then `n` more are `n + 1` landings. -/
theorem landed_landed (h : Hart) (m n : Nat) (l rest : List Input) (s : State) :
    landed h n rest (landed h m l s) = landed h (m + n) rest s := by
  simp [landed, setPend, State.pendOf, List.take_add, List.foldl_append]

/-- Landings of one hart take its queue in order. -/
theorem run_landings {n : Nat} {s : State} {h : Hart} {rest : List Input}
    (hn : n ≤ (s.pendOf h).length) (hin : s.inputs = List.replicate n (.land h) ++ rest) :
    Host.Core.run core n s = .next (landed h n rest s) := by
  induction n generalizing s with
  | zero => rw [← show s.inputs = rest from hin, landed_zero]; rfl
  | succ n ih =>
    have queued : s.pendOf h ≠ [] := List.ne_nil_of_length_pos (by omega)
    rw [run_succ (step_land hin), landNext_eq_landed queued, Nat.add_comm n 1,
      ← landed_landed h 1 n (List.replicate n (.land h) ++ rest)]
    exact ih (by simp [landed]; omega) rfl

/-- A barrier finds in the rest of the queue what has not landed yet. -/
theorem barrier_landed_vis (h : Hart) (n : Nat) (rest : List Input) (s : State) :
    (barrier { landed h n rest s with hart := h }).vis =
      (s.pendOf h).foldl (applyPending s.cfg) s.vis := by
  rw [barrier_vis]
  simp only [landed, State.pendOf, setPend, Vector.getElem_set_self]
  rw [← List.foldl_append, List.take_append_drop]

/-- Settles O58: `n` landings leave the barrier the rest of the queue. -/
theorem writesLandInOrder : Obligations.WritesLandInOrder := by
  intro s h n rest hn hin
  exact ⟨landed h n rest s, run_landings hn hin, rfl, rfl, by simp [landed], rfl, rfl, by simp,
    barrier_landed_vis h n rest s, by simp⟩

/-! ### Frames before authorization (20_memory.md R73 (c), decision D3) -/

/-- The register a piece of an operation will store to, if it stores. -/
def Micro.stores (cfg : Cfg) : Micro → Option TblReg
  | .write _ r _ => some r
  | .rmw _ x _ => some (authReg cfg x)
  | _ => none

/-- The stores hart `h` has still to publish, oldest first: those queued, then those its operation in
progress has still to make. -/
def State.unpublished (s : State) (h : Hart) : List TblReg :=
  (s.pendOf h).map Pending.reg ++ (s.busyOf h).filterMap (Micro.stores s.cfg)

/-- From `s` to `t` hart `h` has issued part of its operation and the writes `landing` have reached
the observers: its oldest stores. It has skipped others but made no new ones, and the observers still
lack only what is queued. -/
structure Publishes (h : Hart) (s t : State) (landing : List Pending) : Prop where
  cfg     : t.cfg = s.cfg
  vis     : t.vis = landing.foldl (applyPending s.cfg) s.vis
  order   : List.Sublist (landing.map Pending.reg ++ t.unpublished h) (s.unpublished h)
  current : (s.pendOf h).foldl (applyPending s.cfg) s.vis = s.tbl →
    (t.pendOf h).foldl (applyPending t.cfg) t.vis = t.tbl

theorem Publishes.refl (h : Hart) (s : State) : Publishes h s s [] :=
  ⟨rfl, rfl, List.Sublist.refl _, id⟩

theorem Publishes.trans {h : Hart} {s t u : State} {l m : List Pending} (a : Publishes h s t l)
    (b : Publishes h t u m) : Publishes h s u (l ++ m) where
  cfg := b.cfg.trans a.cfg
  vis := by rw [b.vis, a.vis, a.cfg, List.foldl_append]
  order := by
    rw [List.map_append, List.append_assoc]
    exact (b.order.append_left _).trans a.order
  current := b.current ∘ a.current

/-- An event that stores nothing may pass over stores. -/
theorem publishes_setBusy (s t : State) {h : Hart} (cfg : t.cfg = s.cfg) (vis : t.vis = s.vis)
    (tbl : t.tbl = s.tbl) (pend : t.pendOf h = s.pendOf h) {q : List Micro}
    (skip : List.Sublist (q.filterMap (Micro.stores s.cfg))
      ((s.busyOf h).filterMap (Micro.stores s.cfg))) : Publishes h s (setBusy h q t) [] where
  cfg := cfg
  vis := vis
  order := by
    simp only [State.unpublished, pendOf_setBusy, busyOf_setBusy, if_true, setBusy_cfg, cfg, pend]
    exact skip.append_left _
  current := by
    rw [pendOf_setBusy, setBusy_cfg, setBusy_vis, setBusy_tbl, cfg, vis, tbl, pend]
    exact id

/-- An event publishes the acting hart's queue if it is a barrier, and nothing otherwise. -/
theorem publishes_performMicro {s : State} {m : Micro} {rest : List Micro}
    (hb : s.busyOf s.hart = m :: rest) :
    ∃ landing, Publishes s.hart s (performMicro m rest s) landing := by
  have keep : List.Sublist (rest.filterMap (Micro.stores s.cfg))
      ((s.busyOf s.hart).filterMap (Micro.stores s.cfg)) := by
    rw [hb]; exact (List.sublist_cons_self m rest).filterMap _
  cases m with
  | test x n =>
    refine ⟨[], publishes_setBusy s (tblRead Config.readReplica (.startFrame x) s)
      rfl rfl rfl rfl ?_⟩
    split
    · exact ((List.drop_sublist n rest).filterMap _).trans keep
    · exact keep
  | write c r v =>
    refine ⟨[], rfl, rfl, ?_, fun current => ?_⟩
    · simp [State.unpublished, performMicro, hb, Micro.stores]
    · simp [performMicro, current, applyPending]
  | rmw c x a =>
    exact ⟨[], publishes_setBusy s (tblRead c (authReg s.cfg x) s) rfl rfl rfl rfl
      (by simp [hb, Micro.stores])⟩
  | barrier =>
    refine ⟨s.pendOf s.hart, rfl, rfl, ?_, fun current => ?_⟩
    · simp [State.unpublished, performMicro, hb, List.filterMap_cons, Micro.stores]
    · simpa [performMicro] using current
  | csrWrite k v => exact ⟨[], publishes_setBusy s (csrWrite k v s) rfl rfl rfl rfl keep⟩
  | csrSet k v => exact ⟨[], publishes_setBusy s (csrSetBits k v s) rfl rfl rfl rfl keep⟩
  | ext n => exact ⟨[], publishes_setBusy s (extCall n s) rfl rfl rfl rfl keep⟩
  | ret r =>
    exact ⟨[], publishes_setBusy s (complete r s) (complete_cfg r s) (complete_vis r s)
      (complete_tbl r s) (pendOf_complete r s s.hart) keep⟩

/-- The next event of an operation publishes what that event publishes; without one nothing happens. -/
theorem publishes_issueNext (s : State) : ∃ landing, Publishes s.hart s (issueNext s) landing := by
  unfold issueNext
  split
  · exact ⟨[], .refl s.hart s⟩
  · exact publishes_performMicro ‹_›

/-- A landing publishes the oldest queued write. -/
theorem publishes_landNext (h : Hart) (s : State) :
    ∃ landing, Publishes h s (landNext h s) landing := by
  unfold landNext
  split
  · exact ⟨[], .refl h s⟩
  · rename_i p rest hp
    refine ⟨[p], rfl, rfl, ?_, fun current => ?_⟩
    · simp [State.unpublished, hp, State.busyOf]
    · simpa [hp] using current

/-- Which hart acts and what is to come say nothing of what is published. -/
theorem Publishes.of_acting {h k : Hart} {s t : State} {l : List Input} {landing : List Pending}
    (a : Publishes h { s with inputs := l, hart := k } t landing) : Publishes h s t landing :=
  ⟨a.cfg, a.vis, a.order, a.current⟩

theorem performMicro_inputs (m : Micro) (rest : List Micro) (s : State) :
    (performMicro m rest s).inputs = s.inputs := by
  cases m with
  | ret r => exact complete_inputs r s
  | _ => rfl

theorem issueNext_inputs (s : State) : (issueNext s).inputs = s.inputs := by
  unfold issueNext
  split
  · rfl
  · exact performMicro_inputs _ _ s

theorem landNext_inputs (h : Hart) (s : State) : (landNext h s).inputs = s.inputs := by
  unfold landNext
  split <;> rfl

/-- Issues and landings of one hart, in any order. -/
theorem publishes_run {h : Hart} {sched : List Input} {s t : State}
    (hs : ∀ inp ∈ sched, inp = .issue h ∨ inp = .land h) (hin : s.inputs = sched)
    (e : Host.Core.run core sched.length s = .next t) : ∃ landing, Publishes h s t landing := by
  induction sched generalizing s with
  | nil => cases e; exact ⟨[], .refl h _⟩
  | cons inp sched ih =>
    obtain ⟨u, first, inputs, l, hu⟩ : ∃ u, step s = .next u ∧ u.inputs = sched ∧
        ∃ l, Publishes h s u l := by
      rcases hs inp List.mem_cons_self with rfl | rfl
      · obtain ⟨l, hl⟩ := publishes_issueNext { s with inputs := sched, hart := h }
        exact ⟨_, step_issue hin, issueNext_inputs _, l, hl.of_acting⟩
      · obtain ⟨l, hl⟩ := publishes_landNext h { s with inputs := sched }
        exact ⟨_, step_land hin, landNext_inputs h _, l, hl.of_acting⟩
    rw [List.length_cons, run_succ first] at e
    obtain ⟨m, hm⟩ := ih (fun i hi => hs i (List.mem_cons_of_mem _ hi)) inputs e
    exact ⟨l ++ m, hu.trans hm⟩

/-- The landing of any number of writes keeps the canonical form. -/
theorem wf_applyAll (cfg : Cfg) (l : List Pending) {m : Memory} (hm : Memory.wf m = true) :
    Memory.wf (l.foldl (applyPending cfg) m) = true := by
  induction l generalizing m with
  | nil => exact hm
  | cons p l ih => exact ih (Memory.writeWord_wf hm _ _)

/-- Writes of other registers leave a register as it was. -/
theorem readWord_applyAll {cfg : Cfg} (ok : cfgOk cfg = true) {r : TblReg} {l : List Pending}
    (hl : ∀ p ∈ l, p.reg ≠ r) (c : Bank) {m : Memory} (hm : Memory.wf m = true) :
    Memory.readWord (l.foldl (applyPending cfg) m) (regAddr cfg c r) =
      Memory.readWord m (regAddr cfg c r) := by
  induction l generalizing m with
  | nil => rfl
  | cons p l ih =>
    have other : ¬ (p.bank = c ∧ p.reg = r) := fun e => hl p List.mem_cons_self e.2
    rw [List.foldl_cons, ih (fun q hq => hl q (List.mem_cons_of_mem _ hq))
      (m := applyPending cfg m p) (Memory.writeWord_wf hm _ _), applyPending,
      readWord_writeWord ok hm, if_neg other]

/-- A register that no queued write is of reads the same to the observers as to the harts. -/
theorem visAt_eq_tblAt {s : State} (ok : cfgOk s.cfg = true) (visWf : Memory.wf s.vis = true)
    {h : Hart} (current : (s.pendOf h).foldl (applyPending s.cfg) s.vis = s.tbl) {r : TblReg}
    (hr : ∀ p ∈ s.pendOf h, p.reg ≠ r) (c : Bank) : s.visAt c r = s.tblAt c r := by
  rw [State.tblAt, ← current, readWord_applyAll ok hr c visWf, State.visAt]

/-- An operation that begins with nothing queued has all its stores to publish. -/
theorem unpublished_setBusy {s : State} {h : Hart} (unqueued : s.pendOf h = []) (q : List Micro) :
    (setBusy h q s).unpublished h = q.filterMap (Micro.stores s.cfg) := by
  simp [State.unpublished, unqueued]

/-- A frame register of slot `x`. -/
def isFrameOf (x : Slot) (r : TblReg) : Prop := r = .startFrame x ∨ r = .endFrame x

/-- No store of the slot's configuration word comes before a store of one of its frames. -/
def FramesFirst (cfg : Cfg) (x : Slot) (l : List TblReg) : Prop :=
  l.Pairwise fun r r' => r = authReg cfg x → ¬ isFrameOf x r'

/-- Stores none of which is of the field, then stores none of which is of a frame. -/
theorem framesFirst_append {cfg : Cfg} {x : Slot} {l m : List TblReg}
    (hl : ∀ r ∈ l, r ≠ authReg cfg x) (hm : ∀ r ∈ m, ¬ isFrameOf x r) :
    FramesFirst cfg x (l ++ m) :=
  List.pairwise_append.2
    ⟨List.pairwise_of_forall_mem_list fun r hr _ _ e => absurd e (hl r hr),
     List.pairwise_of_forall_mem_list fun _ _ r hr _ => hm r hr,
     fun r hr _ _ e => absurd e (hl r hr)⟩

/-- `set_region_authorization` stores the frames of its slot before the field: what precedes its
`rmw_auth` stores the reserved window and the frames, the rest the field
(40_region_controller.md R139 to R141). -/
theorem framesFirst_setAuthorization {cfg : Cfg} {x : Slot} {region : Word}
    (hx : regionSlot region = some x) (own : ownWord cfg x) (a : Byte) (cold : Bool) :
    FramesFirst cfg x ((micros cfg cold (.setRegionAuthorization region a)).filterMap
      (Micro.stores cfg)) := by
  have parts : micros cfg cold (.setRegionAuthorization region a) =
      (ensureMicros cfg ++ .test x 8 :: programMicros cfg x) ++
        (rmwMicros x a ++ [.barrier, .ret .nothing]) := by
    simp [micros, bodyMicros, setAuthMicros, hx, returnOf]
  have own' : authReg cfg .rsv ≠ authReg cfg x := own.symm
  have start (y : Slot) : TblReg.startFrame y ≠ authReg cfg x := by simp [authReg]
  have last (y : Slot) : TblReg.endFrame y ≠ authReg cfg x := by simp [authReg]
  have field : ¬ isFrameOf x (authReg cfg x) := fun e => e.elim (start x).symm (last x).symm
  rw [parts, List.filterMap_append]
  refine framesFirst_append ?_ ?_
  · simp [ensureMicros, programMicros, frameMicros, rmwMicros, banks, List.filterMap_cons,
      Micro.stores, own', start, last]
  · simp [rmwMicros, banks, List.filterMap_cons, Micro.stores, field]

/-- The first step starts the operation. -/
theorem step_start_setAuthorization {s : State} (ok : cfgOk s.cfg = true) {h : Hart}
    (idle : s.busyOf h = []) (region : Word) (a : Byte) (rest : List Input) :
    step { s with inputs := .start h (.proc 1 [.word region, .byte a]) :: rest } =
      .next (setBusy h (micros s.cfg (decide (h = s.coldHart)) (.setRegionAuthorization region a))
        { s with inputs := rest, hart := h }) := by
  have idle' : ({ s with inputs := rest } : State).busyOf h = [] := idle
  have named : decode s.cfg (.proc 1 [.word region, .byte a]) =
      .ok (.setRegionAuthorization region a) := rfl
  have begins : begun h (.proc 1 [.word region, .byte a]) (.setRegionAuthorization region a)
      { s with inputs := rest } = { s with inputs := rest, hart := h } := rfl
  simp only [step, takeInput, receive, reaches, idle', named, begins, beginOperation]
  simp [ok]

/-- At any point of `set_region_authorization` begun in a quiescent state: the writes that have reached
the observers, and that these are the oldest of its stores. -/
theorem setAuthorization_publishes {s t : State} (ok : cfgOk s.cfg = true) (q : s.Quiescent)
    {h : Hart} {region : Word} {a : Byte} {sched : List Input}
    (hs : ∀ inp ∈ sched, inp = .issue h ∨ inp = .land h)
    (e : Host.Core.run core (sched.length + 1)
      { s with inputs := .start h (.proc 1 [.word region, .byte a]) :: sched } = .next t) :
    ∃ landing : List Pending, t.cfg = s.cfg ∧ t.vis = landing.foldl (applyPending s.cfg) s.vis ∧
      List.Sublist (landing.map Pending.reg ++ t.unpublished h)
        ((micros s.cfg (decide (h = s.coldHart)) (.setRegionAuthorization region a)).filterMap
          (Micro.stores s.cfg)) ∧
      (t.pendOf h).foldl (applyPending t.cfg) t.vis = t.tbl := by
  obtain ⟨idle, published, unqueued⟩ := q
  have unqueued' : ({ s with inputs := sched, hart := h } : State).pendOf h = [] := unqueued h
  rw [run_succ (step_start_setAuthorization ok (idle h) region a sched)] at e
  obtain ⟨landing, cfg, vis, order, current⟩ := publishes_run hs rfl e
  rw [unpublished_setBusy unqueued'] at order
  rw [pendOf_setBusy, unqueued'] at current
  exact ⟨landing, cfg, vis, order, current published⟩

/-- Settles O56: the stores are published in the order issued, frames first, so that an observer who
sees the field changed lacks no write of a frame. -/
theorem observersSeeFramesBeforeAuthorization :
    Obligations.ObserversSeeFramesBeforeAuthorization := by
  intro s t h region a x sched ok ⟨_, visWf⟩ q own hx hs e c changed
  obtain ⟨landing, cfg, vis, order, current⟩ := setAuthorization_publishes ok q hs e
  obtain ⟨_, _, before⟩ := List.pairwise_append.1
    ((framesFirst_setAuthorization hx own a _).sublist order)
  obtain ⟨w, hw, field⟩ : ∃ w ∈ landing, w.reg = authReg s.cfg x := by
    by_contra! other
    refine changed (congrArg _ ?_)
    rw [State.visAt, cfg, vis]
    exact readWord_applyAll ok other c visWf
  have queued : ∀ p ∈ t.pendOf h, ¬ isFrameOf x p.reg := fun p hp =>
    before _ (List.mem_map_of_mem hw) _ (List.mem_append_left _ (List.mem_map_of_mem hp)) field
  have same {r : TblReg} (hr : isFrameOf x r) : t.visAt c r = t.tblAt c r :=
    visAt_eq_tblAt (cfg ▸ ok) (vis ▸ wf_applyAll s.cfg landing visWf) current
      (fun p hp e => queued p hp (e ▸ hr)) c
  exact ⟨same (.inl rfl), same (.inr rfl)⟩

end Sys2Proof.Machine
end

section
/-! PROOFS of the encoding (30_encoding.md): the decision tables and their selector (R103 to R105), the
entry points (R110), the round trips between requests and operations, that every call has one row and
succeeds (R111), and the no-op space (R112). -/

namespace Sys2Proof

open Sys2Proof.Machine

/-! ### The parts of a selector (30_encoding.md R103) -/

theorem pathBit_eq_zero (p : DispatchPath) : pathBit p = 0 ↔ p = .pmpAware := by
  cases p <;> decide

theorem pathBit_eq_one (p : DispatchPath) : pathBit p = 1 ↔ p = .legacy := by
  cases p <;> decide

section
variable (cfg : Cfg) (eid fid a0 : Word)

theorem extClass_eq_one : extClass cfg eid = 1 ↔ eid = cfg.extPmu := by
  unfold extClass
  split_ifs with pmu pmp <;> simp [pmu]

theorem extClass_eq_two : extClass cfg eid = 2 ↔ eid ≠ cfg.extPmu ∧ eid = cfg.extPmp := by
  unfold extClass
  split_ifs with pmu pmp
  · simp [pmu]
  · simp [← pmp, pmu]
  · simp [pmp]

theorem extClass_eq_zero : extClass cfg eid = 0 ↔ eid ≠ cfg.extPmu ∧ eid ≠ cfg.extPmp := by
  unfold extClass
  split_ifs with pmu pmp <;> simp [*]

theorem extClass_ne_three : extClass cfg eid ≠ 3 := by
  unfold extClass
  split_ifs <;> decide

theorem fidClass_eq_zero : fidClass fid = 0 ↔ fid = Config.fidTcm0 := by
  unfold fidClass
  split_ifs with tcm0 tcm1 <;> simp [tcm0]

theorem fidClass_eq_one : fidClass fid = 1 ↔ fid = Config.fidTcm1 := by
  unfold fidClass
  split_ifs with tcm0 tcm1
  · simp [tcm0, Config.fidTcm0, Config.fidTcm1]
  · simp [tcm1]
  · simp [tcm1]

theorem fidClass_eq_two : fidClass fid = 2 ↔ fid ≠ Config.fidTcm0 ∧ fid ≠ Config.fidTcm1 := by
  unfold fidClass
  split_ifs with tcm0 tcm1 <;> simp [*]

theorem fidClass_ne_three : fidClass fid ≠ 3 := by
  unfold fidClass
  split_ifs <;> decide

theorem typeClass_eq_one : typeClass a0 = 1 ↔ a0 = Config.opBind := by
  simp [typeClass]

theorem typeClass_eq_zero : typeClass a0 = 0 ↔ a0 ≠ Config.opBind := by
  simp [typeClass]

end

/-! ### The rows in words (30_encoding.md R104, R105) -/

/-- What a row asks of the four parts of a selector. -/
def RowName.wants (lp : BitVec 1) (xc fc : BitVec 2) (tc : BitVec 1) : RowName → Bool
  | .pmuBind => lp == 0 && xc == 1 && tc == 1
  | .pmuReset => lp == 0 && xc == 1 && tc == 0
  | .pmpTcm0 => lp == 0 && xc == 2 && fc == 0
  | .pmpTcm1 => lp == 0 && xc == 2 && fc == 1
  | .pmpNop => lp == 0 && xc == 2 && fc == 2
  | .nop => lp == 0 && xc == 0
  | .legacyBind => lp == 1 && tc == 1
  | .legacyReset => lp == 1 && tc == 0

/-- What a row asks of the configuration and of the call. -/
def RowName.condition (cfg : Cfg) (c : Call) : RowName → Prop
  | .pmuBind => cfg.dispatchPath = .pmpAware ∧ c.eid = cfg.extPmu ∧ c.a0 = Config.opBind
  | .pmuReset => cfg.dispatchPath = .pmpAware ∧ c.eid = cfg.extPmu ∧ c.a0 ≠ Config.opBind
  | .pmpTcm0 => cfg.dispatchPath = .pmpAware ∧ (c.eid ≠ cfg.extPmu ∧ c.eid = cfg.extPmp) ∧
      c.fid = Config.fidTcm0
  | .pmpTcm1 => cfg.dispatchPath = .pmpAware ∧ (c.eid ≠ cfg.extPmu ∧ c.eid = cfg.extPmp) ∧
      c.fid = Config.fidTcm1
  | .pmpNop => cfg.dispatchPath = .pmpAware ∧ (c.eid ≠ cfg.extPmu ∧ c.eid = cfg.extPmp) ∧
      c.fid ≠ Config.fidTcm0 ∧ c.fid ≠ Config.fidTcm1
  | .nop => cfg.dispatchPath = .pmpAware ∧ c.eid ≠ cfg.extPmu ∧ c.eid ≠ cfg.extPmp
  | .legacyBind => cfg.dispatchPath = .legacy ∧ c.a0 = Config.opBind
  | .legacyReset => cfg.dispatchPath = .legacy ∧ c.a0 ≠ Config.opBind

/-- Mask and pattern of a row examine the parts that the row's line of the table names. -/
theorem hits_eq_wants : ∀ row ∈ decisionTable, ∀ (lp : BitVec 1) (xc fc : BitVec 2) (tc : BitVec 1),
    row.hits (lp ++ xc ++ fc ++ tc) = row.name.wants lp xc fc tc := by
  decide

/-- A row's pattern matches the selector of a call when the row's condition holds. -/
theorem hits_iff_condition {row : Row} (hm : row ∈ decisionTable) (cfg : Cfg) (c : Call) :
    row.hits (selector cfg c) = true ↔ row.name.condition cfg c := by
  rw [selector, hits_eq_wants row hm]
  cases row.name <;>
    simp only [RowName.wants, RowName.condition, Bool.and_eq_true, beq_iff_eq, and_assoc,
      pathBit_eq_zero, pathBit_eq_one, extClass_eq_one, extClass_eq_two, extClass_eq_zero,
      fidClass_eq_zero, fidClass_eq_one, fidClass_eq_two, typeClass_eq_one, typeClass_eq_zero]

/-- The table has a row of every name. -/
theorem exists_row (r : RowName) : ∃ row ∈ decisionTable, row.name = r := by
  cases r <;> decide

/-- The rows share no selector, and every selector that R103 can produce has a row. -/
theorem one_row_hits : ∀ (lp : BitVec 1) (xc fc : BitVec 2) (tc : BitVec 1), xc ≠ 3 → fc ≠ 3 →
    (decisionTable.filter fun r => r.hits (lp ++ xc ++ fc ++ tc)).length = 1 := by
  decide

/-- Exactly one row matches a call (30_encoding.md R104, R111). -/
theorem one_row_hits_selector (cfg : Cfg) (c : Call) :
    (decisionTable.filter fun r => r.hits (selector cfg c)).length = 1 :=
  one_row_hits _ _ _ _ (extClass_ne_three cfg c.eid) (fidClass_ne_three c.fid)

/-- A row that matches a selector is the one found, if no second row matches. -/
theorem rowOf_eq_some {sel : BitVec 6} {row : Row} (hm : row ∈ decisionTable)
    (hit : row.hits sel = true) (one : (decisionTable.filter fun r => r.hits sel).length = 1) :
    rowOf sel = some row.name := by
  obtain ⟨only, h⟩ := List.length_eq_one_iff.1 one
  have mem : row ∈ decisionTable.filter fun r => r.hits sel := List.mem_filter.2 ⟨hm, hit⟩
  rw [h, List.mem_singleton] at mem
  rw [rowOf, ← List.head?_filter, h, mem]
  rfl

/-- The row found matches. -/
theorem exists_row_of_rowOf {sel : BitVec 6} {r : RowName} (h : rowOf sel = some r) :
    ∃ row ∈ decisionTable, row.hits sel = true ∧ row.name = r := by
  obtain ⟨row, found, name⟩ := Option.map_eq_some_iff.1 h
  have hit : row.hits sel = true := List.find?_some (p := fun r : Row => r.hits sel) found
  exact ⟨row, List.mem_of_find?_eq_some found, hit, name⟩

theorem rowOf_selector_iff (cfg : Cfg) (c : Call) (r : RowName) :
    rowOf (selector cfg c) = some r ↔ r.condition cfg c := by
  constructor
  · intro h
    obtain ⟨row, hm, hit, rfl⟩ := exists_row_of_rowOf h
    exact (hits_iff_condition hm cfg c).1 hit
  · intro h
    obtain ⟨row, hm, rfl⟩ := exists_row r
    exact rowOf_eq_some hm ((hits_iff_condition hm cfg c).2 h) (one_row_hits_selector cfg c)

/-! ### The decoding of a call -/

/-- A call decodes to the operation of the row whose condition it meets. -/
theorem decode_vcall_iff (cfg : Cfg) (c : Call) (i : Instr) :
    decode cfg (.vcall c) = .ok i ↔ ∃ r : RowName, r.condition cfg c ∧ r.operation c = i := by
  simp only [← rowOf_selector_iff]
  change decodeCall cfg c = .ok i ↔ _
  unfold decodeCall
  cases rowOf (selector cfg c) <;> simp

theorem decode_vcall_of_condition {cfg : Cfg} {c : Call} (r : RowName) (h : r.condition cfg c) :
    decode cfg (.vcall c) = .ok (r.operation c) :=
  (decode_vcall_iff cfg c _).2 ⟨r, h, rfl⟩

/-- Every call meets the condition of a row. -/
theorem exists_condition (cfg : Cfg) (c : Call) : ∃ r : RowName, r.condition cfg c := by
  obtain ⟨row, h⟩ := List.length_eq_one_iff.1 (one_row_hits_selector cfg c)
  have mem : row ∈ decisionTable.filter fun r => r.hits (selector cfg c) := by simp [h]
  obtain ⟨hm, hit⟩ := List.mem_filter.1 mem
  exact ⟨row.name, (hits_iff_condition hm cfg c).1 hit⟩

/-- A line of the decision table: under its condition a call decodes to its operation, and its pattern
matches. -/
theorem decision {cfg : Cfg} {c : Call} {row : Row} (hm : row ∈ decisionTable)
    (h : row.name.condition cfg c) :
    decode cfg (.vcall c) = .ok (row.name.operation c) ∧
      selector cfg c &&& row.mask = row.wanted :=
  ⟨decode_vcall_of_condition row.name h, by simpa [Row.hits] using (hits_iff_condition hm cfg c).2 h⟩

/-- Settles O4: each line asks for one row's condition, and one row matches a call. -/
theorem pmpAwareDecisionTable : Obligations.PmpAwareDecisionTable := by
  intro cfg c aware ids
  have pmp (h : c.eid = cfg.extPmp) : c.eid ≠ cfg.extPmu ∧ c.eid = cfg.extPmp := ⟨h ▸ ids.symm, h⟩
  exact ⟨one_row_hits_selector cfg c,
    fun eid a0 => decision (row := ⟨0x39, 0x09, .pmuBind⟩) (by decide) ⟨aware, eid, a0⟩,
    fun eid a0 => decision (row := ⟨0x39, 0x08, .pmuReset⟩) (by decide) ⟨aware, eid, a0⟩,
    fun eid fid => decision (row := ⟨0x3E, 0x10, .pmpTcm0⟩) (by decide) ⟨aware, pmp eid, fid⟩,
    fun eid fid => decision (row := ⟨0x3E, 0x12, .pmpTcm1⟩) (by decide) ⟨aware, pmp eid, fid⟩,
    fun eid f0 f1 => decision (row := ⟨0x3E, 0x14, .pmpNop⟩) (by decide) ⟨aware, pmp eid, f0, f1⟩,
    fun pmu pmp => decision (row := ⟨0x38, 0x00, .nop⟩) (by decide) ⟨aware, pmu, pmp⟩⟩

/-- Settles O5: the rows of the legacy path ask for the operation type alone. -/
theorem legacyDecisionTable : Obligations.LegacyDecisionTable :=
  ⟨rfl, fun _ _ legacy =>
    ⟨fun a0 => decision (row := ⟨0x21, 0x21, .legacyBind⟩) (by decide) ⟨legacy, a0⟩,
     fun a0 => decision (row := ⟨0x21, 0x20, .legacyReset⟩) (by decide) ⟨legacy, a0⟩⟩⟩

/-! ### The entry points (30_encoding.md R110) -/

/-- Settles O7: above 8 the table of entry points has no number. -/
theorem unknownEntryPointsRejected : Obligations.UnknownEntryPointsRejected := by
  rintro cfg ⟨n, lt⟩ args unknown
  change 9 ≤ n at unknown
  interval_cases n <;> rfl

/-- A number and operands that name an entry point are the request of the operation, which has no
condition to meet. -/
theorem encode_of_decodeProc {ep : BitVec 4} {args : List Operand} {i : Instr} (cfg : Cfg)
    (h : decodeProc ep args = .ok i) : i.wellFormed cfg = true ∧ encode cfg i = .proc ep args := by
  have known : ep.toNat < 9 := by
    by_contra unknown
    have rejected : decodeProc ep args = .error (.unknownEntryPoint ep) :=
      unknownEntryPointsRejected cfg ep args (Nat.not_lt.1 unknown)
    rw [rejected] at h
    cases h
  obtain ⟨n, lt⟩ := ep
  change n < 9 at known
  interval_cases n
  · match args, h with | [], rfl => exact ⟨rfl, rfl⟩
  · match args, h with | [.word _, .byte _], rfl => exact ⟨rfl, rfl⟩
  · match args, h with | [.word _, .word _], rfl => exact ⟨rfl, rfl⟩
  · match args, h with | [], rfl => exact ⟨rfl, rfl⟩
  · match args, h with | [.word _, .word _, .word _], rfl => exact ⟨rfl, rfl⟩
  · match args, h with | [.word _], rfl => exact ⟨rfl, rfl⟩
  · match args, h with | [], rfl => exact ⟨rfl, rfl⟩
  · match args, h with | [], rfl => exact ⟨rfl, rfl⟩
  · match args, h with | [], rfl => exact ⟨rfl, rfl⟩

/-! ### The round trips -/

theorem operation_wellFormed {cfg : Cfg} {c : Call} {r : RowName} (h : r.condition cfg c) :
    (r.operation c).wellFormed cfg = true := by
  cases r <;> simp_all [RowName.condition, RowName.operation, Instr.wellFormed]

/-- The registers that a row's operation leaves out are those that the row's condition fixes. -/
theorem encode_operation {cfg : Cfg} {c : Call} {r : RowName} (h : r.condition cfg c) :
    encode cfg (r.operation c) = .vcall c := by
  obtain ⟨eid, fid, a0, a1, a2⟩ := c
  cases r with
  | pmuBind => obtain ⟨_, rfl, rfl⟩ := h; rfl
  | pmuReset => obtain ⟨_, rfl, _⟩ := h; rfl
  | pmpTcm0 => obtain ⟨_, ⟨_, rfl⟩, rfl⟩ := h; rfl
  | pmpTcm1 => obtain ⟨_, ⟨_, rfl⟩, rfl⟩ := h; rfl
  | pmpNop => obtain ⟨_, ⟨_, rfl⟩, _⟩ := h; rfl
  | nop => rfl
  | legacyBind => obtain ⟨_, rfl⟩ := h; rfl
  | legacyReset => rfl

/-- With distinct extension ids, well-formedness and the registers that the encoder fills in are
together the row's condition. -/
theorem condition_of_wellFormed {cfg : Cfg} (ids : cfg.extPmu ≠ cfg.extPmp) {c : Call} {r : RowName}
    (wf : (r.operation c).wellFormed cfg = true) (enc : encode cfg (r.operation c) = .vcall c) :
    r.condition cfg c := by
  obtain ⟨eid, fid, a0, a1, a2⟩ := c
  cases r <;> cases enc <;>
    simp_all [RowName.condition, RowName.operation, Instr.wellFormed, and_assoc, ids.symm]

/-- Settles O2: a call's registers are kept as operands or fixed by its row, an entry point's operands
are kept. -/
theorem encodeOfDecode : Obligations.EncodeOfDecode := by
  intro cfg r i h
  cases r with
  | vcall c =>
    obtain ⟨r, cond, rfl⟩ := (decode_vcall_iff cfg c i).1 h
    exact ⟨operation_wellFormed cond, encode_operation cond⟩
  | proc ep args => exact encode_of_decodeProc cfg h

/-- An operation is an entry point's, or that of a row and of the call it is encoded as. -/
theorem entryPoint_or_row (cfg : Cfg) (i : Instr) :
    decode cfg (encode cfg i) = .ok i ∨
      ∃ (r : RowName) (c : Call), encode cfg i = .vcall c ∧ r.operation c = i := by
  cases i with
  | vcallPmuBind _ _ _ => exact .inr ⟨.pmuBind, _, rfl, rfl⟩
  | vcallPmuReset _ _ _ _ => exact .inr ⟨.pmuReset, _, rfl, rfl⟩
  | vcallPmpTcm0 _ _ _ => exact .inr ⟨.pmpTcm0, _, rfl, rfl⟩
  | vcallPmpTcm1 _ _ _ => exact .inr ⟨.pmpTcm1, _, rfl, rfl⟩
  | vcallPmpNop _ _ _ _ => exact .inr ⟨.pmpNop, _, rfl, rfl⟩
  | vcallNop _ _ _ _ _ => exact .inr ⟨.nop, _, rfl, rfl⟩
  | vcallLegacyBind _ _ _ _ => exact .inr ⟨.legacyBind, _, rfl, rfl⟩
  | vcallLegacyReset _ _ _ _ _ => exact .inr ⟨.legacyReset, _, rfl, rfl⟩
  | _ => exact .inl rfl

/-- Settles O1: an entry point decodes by its number; a row's operation is encoded as a call that meets
the row's condition. -/
theorem decodeOfEncode : Obligations.DecodeOfEncode := by
  intro cfg i ids wf
  rcases entryPoint_or_row cfg i with done | ⟨r, c, enc, rfl⟩
  · exact done
  · rw [enc]
    exact decode_vcall_of_condition r (condition_of_wellFormed ids wf enc)

/-! ### Every call succeeds (30_encoding.md R111) -/

/-- Settles O3: some row's condition holds, and every row's operation completes with success. -/
theorem everyCallHasOneRowAndSucceeds : Obligations.EveryCallHasOneRowAndSucceeds := by
  intro cfg c
  obtain ⟨r, cond⟩ := exists_condition cfg c
  have dec := decode_vcall_of_condition r cond
  refine ⟨one_row_hits_selector cfg c, r.operation c, dec, ?_⟩
  rintro s rfl ok
  refine ⟨_, exec_next ok _, ?_⟩
  rw [retOf_complete, effectOf_hart, if_pos rfl, returnOf_of_decode_vcall dec, callReturn]

/-! ### The no-op space (30_encoding.md R112) -/

/-- A region operand other than 0 and 1 names no slot (30_encoding.md R108). -/
theorem regionSlot_eq_none {region : Word} (h0 : region ≠ Config.fidTcm0)
    (h1 : region ≠ Config.fidTcm1) : regionSlot region = none := by
  rw [regionSlot, if_neg h0, if_neg h1]

/-- An invalid region is left alone (40_region_controller.md R142). -/
theorem setAuthorization_of_none {region : Word} (h : regionSlot region = none) (a : Byte)
    (s : State) : setAuthorization region a s = s := by
  rw [setAuthorization, h]

/-- Settles O40: each of these operations has no effect, and only its return is left. -/
theorem noOpSpaceChangesNothing : Obligations.NoOpSpaceChangesNothing := by
  intro s ok
  refine ⟨fun c aware unserved => ?_, fun region a h0 h1 => ?_, fun i e outside => ?_⟩
  · rcases unserved with ⟨pmu, pmp⟩ | ⟨pmp, f0, f1⟩
    · exact ⟨_, decode_vcall_of_condition .nop ⟨aware, pmu, pmp⟩, exec_next ok _⟩
    · have ids := extIds_ne ok
      exact ⟨_, decode_vcall_of_condition .pmpNop ⟨aware, ⟨pmp ▸ ids.symm, pmp⟩, f0, f1⟩,
        exec_next ok _⟩
  · rw [exec_next ok, effectOf, setAuthorization_of_none (regionSlot_eq_none h0 h1)]
    rfl
  · obtain ⟨_, unchanged⟩ := (bindOutsideRangeDoesNothing i).2 outside
    exact unchanged s e ok

/-- Settles O6: the decoder evaluates each request to the operation written beside it. -/
theorem sampleRequestsDecode : Obligations.SampleRequestsDecode := by
  unfold Obligations.SampleRequestsDecode
  decide

end Sys2Proof
end

section
/-! PROOFS of the region controller (40_region_controller.md): what its two operations leave in the
registers (R136, R144, R146), the events they issue (R138, R141, R145), and what they leave alone
(R136, R142, R144, 10_state.md R22). -/

namespace Sys2Proof.Machine

/-! ### The configuration word of a slot (00_scope.md R15) -/

/-- The merge of a field leaves the bits below it as they were. -/
theorem mergeAuth_below {cfg : Cfg} {x : Slot} {n : Nat} (hn : n ≤ authShift cfg x) (a : Byte)
    (old : Word32) : (mergeAuth cfg x a old).extractLsb' 0 n = old.extractLsb' 0 n := by
  apply BitVec.eq_of_getLsbD_eq
  intro i hi
  simp only [BitVec.getLsbD_extractLsb', getLsbD_mergeAuth]
  rw [if_neg (by omega)]

/-- A byte of a word that is read is the byte of the memory. -/
theorem Memory.extract_readWord (m : Memory) {a k : Nat} (h : inWord a k = true) :
    (Memory.readWord m a).extractLsb' (8 * (k - a)) 8 = Memory.read m k := by
  obtain ⟨low, high⟩ := (inWord_iff a k).1 h
  obtain ⟨j, rfl⟩ := Nat.exists_eq_add_of_le low
  apply BitVec.eq_of_getLsbD_eq
  intro i hi
  rw [Nat.add_sub_cancel_left, BitVec.getLsbD_extractLsb', Memory.readWord]
  simp only [BitVec.getLsbD_append]
  obtain rfl | rfl | rfl | rfl : j = 0 ∨ j = 1 ∨ j = 2 ∨ j = 3 := by omega
  · simp [hi]
  · simp [hi, show ¬ 8 + i < 8 by omega, show 8 + i - 8 = i by omega]
  · simp [hi, show ¬ 16 + i < 8 by omega, show ¬ 16 + i - 8 < 8 by omega,
      show 16 + i - 8 - 8 = i by omega]
  · simp [hi, show ¬ 24 + i < 8 by omega, show ¬ 24 + i - 8 < 8 by omega,
      show ¬ 24 + i - 8 - 8 < 8 by omega, show 24 + i - 8 - 8 - 8 = i by omega]

/-- To write back the word that stands there changes nothing. -/
theorem Memory.writeWord_readWord {m : Memory} (hm : Memory.wf m = true) (a : Nat) :
    Memory.writeWord m a (Memory.readWord m a) = m := by
  refine Memory.ext_of_read (Memory.writeWord_wf hm _ _) hm fun k => ?_
  rw [Memory.read_writeWord hm]
  split
  · exact Memory.extract_readWord m ‹_›
  · rfl

/-! ### The registers of a slot (10_state.md R27) -/

theorem isFrameOf_ne_authReg {x : Slot} {r : TblReg} (h : isFrameOf x r) (cfg : Cfg) (y : Slot) :
    r ≠ authReg cfg y := by
  rcases h with rfl | rfl <;> simp [authReg]

theorem authReg_not_isFrameOf (cfg : Cfg) (x y : Slot) : ¬ isFrameOf x (authReg cfg y) :=
  fun h => isFrameOf_ne_authReg h cfg y rfl

theorem isFrameOf_inj {x y : Slot} {r : TblReg} (hx : isFrameOf x r) (hy : isFrameOf y r) :
    x = y := by
  rcases hx with rfl | rfl <;> simpa [isFrameOf] using hy

/-! ### ensure_reserved_region (40_region_controller.md R133 to R138) -/

theorem ensureReserved_of_match {s : State}
    (same : s.tblAt 0 (.startFrame .rsv) = expStart s.cfg .rsv) :
    ensureReserved s = tblRead 0 (.startFrame .rsv) s := by
  rw [ensureReserved, (startObserved_iff .rsv s).2 same]
  rfl

theorem ensureReserved_of_mismatch {s : State}
    (other : s.tblAt 0 (.startFrame .rsv) ≠ expStart s.cfg .rsv) :
    ensureReserved s = barrier (rmwAuth .rsv s.cfg.noAccess
      (programFrames .rsv (tblRead 0 (.startFrame .rsv) s))) := by
  rw [ensureReserved, if_neg (mt (startObserved_iff .rsv s).1 other)]
  rfl

/-- Programming the reserved window ends in a barrier (40_region_controller.md R133). -/
theorem ensureReserved_pendOf_of_mismatch {s : State}
    (other : s.tblAt 0 (.startFrame .rsv) ≠ expStart s.cfg .rsv) :
    (ensureReserved s).pendOf s.hart = [] := by
  rw [ensureReserved_of_mismatch other, pendOf_barrier, if_pos]
  rw [(sameBut_rmwAuth _ _ _).hart, (sameBut_programFrames _ _).hart, tblRead_hart]

/-- Whether it programs or not, the window's start frame is the expected one in the observed bank
afterwards. -/
theorem ensureReserved_startFrame_rsv {s : State} (ok : cfgOk s.cfg = true)
    (hm : Memory.wf s.tbl = true) :
    (ensureReserved s).tblAt 0 (.startFrame .rsv) = expStart s.cfg .rsv := by
  rw [ensureReserved_tblAt ok hm]
  split
  · assumption
  · rw [if_pos rfl]

/-- A register that is not one of the reserved window's stays as it was. -/
theorem ensureReserved_tblAt_other {s : State} (ok : cfgOk s.cfg = true)
    (hm : Memory.wf s.tbl = true) (c : Bank) {r : TblReg} (frames : ¬ isFrameOf .rsv r)
    (word : r ≠ authReg s.cfg .rsv) : (ensureReserved s).tblAt c r = s.tblAt c r := by
  obtain ⟨start, last⟩ := not_or.1 frames
  rw [ensureReserved_tblAt ok hm, if_neg start, if_neg last, if_neg word, ite_self]

/-- The frames of another slot stay as they were. -/
theorem ensureReserved_frame {s : State} (ok : cfgOk s.cfg = true) (hm : Memory.wf s.tbl = true)
    (c : Bank) {x : Slot} (ne : x ≠ .rsv) {r : TblReg} (hr : isFrameOf x r) :
    (ensureReserved s).tblAt c r = s.tblAt c r :=
  ensureReserved_tblAt_other ok hm c (fun h => ne (isFrameOf_inj hr h))
    (isFrameOf_ne_authReg hr s.cfg .rsv)

/-- A word that does not hold the reserved window's field stays as it was. -/
theorem ensureReserved_authReg {s : State} (ok : cfgOk s.cfg = true) (hm : Memory.wf s.tbl = true)
    (c : Bank) {x : Slot} (own : ownWord s.cfg x) :
    (ensureReserved s).tblAt c (authReg s.cfg x) = s.tblAt c (authReg s.cfg x) :=
  ensureReserved_tblAt_other ok hm c (authReg_not_isFrameOf s.cfg .rsv x) own

theorem ensureEvents_length (s : State) : (ensureEvents s).length =
    if s.tblAt 0 (.startFrame .rsv) = expStart s.cfg .rsv then 1 else 18 := by
  unfold ensureEvents
  split <;> rfl

/-- Settles O17: the registers after the programming, and the barrier at its end. -/
theorem ensureProgramsOnMismatch : Obligations.EnsureProgramsOnMismatch := by
  intro s ok ⟨hm, _⟩ other
  refine ⟨_, exec_next ok _, ?_, fun c => ?_⟩
  · rw [pendOf_complete]
    exact ensureReserved_pendOf_of_mismatch other
  · have regs (r : TblReg) := ensureReserved_tblAt ok hm c r
    simp only [if_neg other] at regs
    have start : (ensureReserved s).tblAt c (.startFrame .rsv) = expStart s.cfg .rsv := by
      rw [regs, if_pos rfl]
    have last : (ensureReserved s).tblAt c (.endFrame .rsv) = expEnd s.cfg .rsv := by
      rw [regs, if_neg (by decide), if_pos rfl]
    have word : (ensureReserved s).tblAt c (authReg s.cfg .rsv) =
        mergeAuth s.cfg .rsv s.cfg.noAccess (s.tblAt c (authReg s.cfg .rsv)) := by
      simp [regs, authReg]
    simp only [tblAt_complete, effectOf, start, last, word]
    exact ⟨rfl, rfl, authField_mergeAuth s.cfg .rsv _ _, mergeAuth_outside s.cfg .rsv _ _,
      fun r h1 h2 h3 => ensureReserved_tblAt_other ok hm c (not_or.2 ⟨h1, h2⟩) h3⟩

/-- Settles O18: the effect is the read. -/
theorem ensureOnlyReadsOnMatch : Obligations.EnsureOnlyReadsOnMatch := by
  intro s ok same
  rw [exec_next ok, effectOf, ensureReserved_of_match same, ← same]
  rfl

/-- Settles O19: the trace of the effect, and its length on a match and on a mismatch. -/
theorem ensureEventsExact : Obligations.EnsureEventsExact := by
  intro s ok ⟨hm, _⟩
  refine ⟨_, exec_next ok _, ?_, ensureEvents_length s⟩
  rw [complete_trace]
  exact ensureReserved_trace ok hm

/-- Settles O20: after one call the observed start frame is the expected one, so that the second call
only reads (R135). -/
theorem ensureIsIdempotent : Obligations.EnsureIsIdempotent := by
  intro s ok ⟨hm, _⟩
  have first := exec_next ok .ensureReservedRegion
  have cfg := exec_cfg first
  refine ⟨_, _, first, ensureOnlyReadsOnMatch _ (by rwa [cfg]) ?_, rfl, rfl, rfl, rfl, _, _, _, rfl⟩
  rw [cfg, tblAt_complete]
  exact ensureReserved_startFrame_rsv ok hm

/-! ### What set_region_authorization leaves in the registers (40_region_controller.md R144) -/

/-- The operation run whole: its effect, and a return that touches neither table, queue nor trace. -/
theorem exec_setRegionAuthorization {s t : State} {region : Word} {a : Byte}
    (e : exec (.setRegionAuthorization region a) s = .next t) :
    t.tbl = (setAuthorization region a s).tbl ∧ t.trace = (setAuthorization region a s).trace ∧
      (∀ k, t.pendOf k = (setAuthorization region a s).pendOf k) ∧
      ∀ c r, t.tblAt c r = (setAuthorization region a s).tblAt c r := by
  obtain ⟨_, rfl⟩ := exec_inv e
  exact ⟨complete_tbl _ _, complete_trace _ _, pendOf_complete _ _, tblAt_complete _ _⟩

/-- A valid region: the three steps and the barrier (40_region_controller.md R139). -/
theorem setAuthorization_of_some {region : Word} {x : Slot} (h : regionSlot region = some x)
    (a : Byte) (s : State) : setAuthorization region a s =
      barrier (rmwAuth x a (fixUpFrames x (ensureReserved s))) := by rw [setAuthorization, h]

theorem regionSlot_of_valid {region : Word} {x : Slot}
    (h : region = 0 ∧ x = .tcm0 ∨ region = 1 ∧ x = .tcm1) : regionSlot region = some x := by
  rcases h with ⟨rfl, rfl⟩ | ⟨rfl, rfl⟩ <;> rfl

section
variable {s : State} (ok : cfgOk s.cfg = true) (hm : Memory.wf s.tbl = true)
  {region : Word} {x : Slot} (hx : regionSlot region = some x) (a : Byte) (c : Bank)

include hx in
/-- The operation ends in a barrier (R141). -/
theorem setAuthorization_pendOf : (setAuthorization region a s).pendOf s.hart = [] := by
  rw [setAuthorization_of_some hx, pendOf_barrier, if_pos ((sameBut_rmwAuth _ _ _).hart.trans <|
    (sameBut_fixUpFrames _ _).hart.trans (sameBut_ensureReserved s).hart)]

include ok hm hx

/-- The slot's configuration word: the old one with the field replaced. -/
theorem setAuthorization_authReg (own : ownWord s.cfg x) :
    (setAuthorization region a s).tblAt c (authReg s.cfg x) =
      mergeAuth s.cfg x a (s.tblAt c (authReg s.cfg x)) := by
  rw [setAuthorization_tblAt ok hm hx, if_pos rfl, ensureReserved_authReg ok hm c own]

theorem setAuthorization_startFrame :
    (setAuthorization region a s).tblAt c (.startFrame x) =
      if s.tblAt 0 (.startFrame x) = expStart s.cfg x then s.tblAt c (.startFrame x)
      else expStart s.cfg x := by
  rw [setAuthorization_tblAt ok hm hx,
    ensureReserved_frame ok hm c (regionSlot_ne_rsv hx) (.inl rfl : isFrameOf x (.startFrame x))]
  by_cases same : s.tblAt 0 (.startFrame x) = expStart s.cfg x <;> simp [same, authReg]

theorem setAuthorization_endFrame :
    (setAuthorization region a s).tblAt c (.endFrame x) =
      if s.tblAt 0 (.startFrame x) = expStart s.cfg x then s.tblAt c (.endFrame x)
      else expEnd s.cfg x := by
  rw [setAuthorization_tblAt ok hm hx,
    ensureReserved_frame ok hm c (regionSlot_ne_rsv hx) (.inr rfl : isFrameOf x (.endFrame x))]
  by_cases same : s.tblAt 0 (.startFrame x) = expStart s.cfg x <;> simp [same, authReg]

/-- A register that is not one of the slot's is as `ensure_reserved_region` leaves it. -/
theorem setAuthorization_tblAt_other {r : TblReg} (frames : ¬ isFrameOf x r)
    (word : r ≠ authReg s.cfg x) :
    (setAuthorization region a s).tblAt c r = (ensureReserved s).tblAt c r := by
  obtain ⟨start, last⟩ := not_or.1 frames
  rw [setAuthorization_tblAt ok hm hx, if_neg word, if_neg (fun h => start h.2),
    if_neg (fun h => last h.2)]

/-- The slot's start frame is the expected one in the observed bank afterwards. -/
theorem setAuthorization_observed :
    (setAuthorization region a s).tblAt 0 (.startFrame x) = expStart s.cfg x := by
  rw [setAuthorization_startFrame ok hm hx]
  split
  · assumption
  · rfl

/-- The reserved window's start frame is the expected one too. -/
theorem setAuthorization_observed_rsv :
    (setAuthorization region a s).tblAt 0 (.startFrame .rsv) = expStart s.cfg .rsv := by
  have frame : isFrameOf .rsv (.startFrame .rsv) := .inl rfl
  rw [setAuthorization_tblAt_other ok hm hx a 0
    (fun h => regionSlot_ne_rsv hx (isFrameOf_inj h frame)) (isFrameOf_ne_authReg frame s.cfg x)]
  exact ensureReserved_startFrame_rsv ok hm

end

/-- Settles O21: the postcondition, register by register. -/
theorem setAuthorizationPostcondition : Obligations.SetAuthorizationPostcondition := by
  intro s region a x ok ⟨hm, _⟩ own valid
  have hx := regionSlot_of_valid valid
  have run := exec_next ok (.setRegionAuthorization region a)
  obtain ⟨-, -, pend, regs⟩ := exec_setRegionAuthorization run
  refine ⟨_, _, run, exec_next ok _, ?_, ?_, ?_, fun c => ?_⟩
  · rw [pend]; exact setAuthorization_pendOf hx a
  · rw [regs]; exact setAuthorization_observed_rsv ok hm hx a
  · rw [regs]; exact setAuthorization_observed ok hm hx a
  · simp only [regs, tblAt_complete, setAuthorization_authReg ok hm hx a c own,
      setAuthorization_startFrame ok hm hx a c, setAuthorization_endFrame ok hm hx a c]
    refine ⟨authField_mergeAuth s.cfg x a _, mergeAuth_outside s.cfg x a _, fun other => ?_,
      fun same => ?_, fun r h1 h2 h3 => ?_⟩
    · rw [if_neg other, if_neg other]; exact ⟨rfl, rfl⟩
    · rw [if_pos same, if_pos same]; exact ⟨rfl, rfl⟩
    · exact setAuthorization_tblAt_other ok hm hx a c (not_or.2 ⟨h1, h2⟩) h3

/-- On the placement of 00_scope.md R11 neither scratch bank's field shares the reserved window's word. -/
theorem placementR11_ownWord {cfg : Cfg} (p : placementR11 cfg) :
    ownWord cfg .tcm0 ∧ ownWord cfg .tcm1 := by
  obtain ⟨word0, word1, wordR, -⟩ := p
  simp [ownWord, authReg, slotCfg, word0, word1, wordR]

/-- TCM0 and then TCM1 on the placement of 00_scope.md R11: both fields are merged into one word. -/
theorem both_merged {s t u : State} {a b : Byte} (ok : cfgOk s.cfg = true)
    (hm : Memory.wf s.tbl = true) (p : placementR11 s.cfg)
    (first : exec (.setRegionAuthorization 0 a) s = .next t)
    (second : exec (.setRegionAuthorization 1 b) t = .next u) (c : Bank) :
    u.tblAt c (.cfgWord .w6) =
      mergeAuth s.cfg .tcm1 b (mergeAuth s.cfg .tcm0 a (s.tblAt c (.cfgWord .w6))) := by
  have cfg := exec_cfg first
  obtain ⟨tbl, -, -, regs⟩ := exec_setRegionAuthorization first
  obtain ⟨-, -, -, regs'⟩ := exec_setRegionAuthorization second
  obtain ⟨own0, own1⟩ := placementR11_ownWord p
  obtain ⟨word0, word1, -⟩ := p
  have reg0 : authReg s.cfg .tcm0 = .cfgWord .w6 := congrArg TblReg.cfgWord word0
  have reg1 : authReg s.cfg .tcm1 = .cfgWord .w6 := congrArg TblReg.cfgWord word1
  have merge0 := setAuthorization_authReg ok hm (region := 0) (x := .tcm0) rfl a c own0
  have merge1 := setAuthorization_authReg (s := t) (by rwa [cfg])
    (by rw [tbl]; exact setAuthorization_tblWf hm 0 a) (region := 1) (x := .tcm1) rfl b c
    (by rwa [cfg])
  rw [← regs, reg0] at merge0
  rw [← regs', cfg, reg1, merge0] at merge1
  exact merge1

/-- Settles O26: the two fields stand in one word and in two lanes, above its low 16 bits. -/
theorem bothAuthorizationsStand : Obligations.BothAuthorizationsStand := by
  intro s a b ok ⟨hm, _⟩ p
  have first := exec_next ok (.setRegionAuthorization 0 a)
  have second := exec_next (by rw [exec_cfg first]; exact ok) (.setRegionAuthorization 1 b)
  refine ⟨_, _, first, second, fun c => ?_⟩
  rw [both_merged ok hm p first second]
  obtain ⟨-, -, -, lane0, lane1, -⟩ := p
  have shift0 : authShift s.cfg .tcm0 = 16 := by rw [authShift, slotCfg, lane0]; rfl
  have shift1 : authShift s.cfg .tcm1 = 24 := by rw [authShift, slotCfg, lane1]; rfl
  have field0 (w : Word32) : authField s.cfg .tcm0 w = w.extractLsb' 16 8 := by
    rw [authField, shift0]
  have field1 (w : Word32) : authField s.cfg .tcm1 w = w.extractLsb' 24 8 := by
    rw [authField, shift1]
  have lanes : (slotCfg s.cfg .tcm1).lane ≠ (slotCfg s.cfg .tcm0).lane := by
    rw [slotCfg, slotCfg, lane0, lane1]; decide
  refine ⟨?_, ?_, ?_⟩
  · rw [← field0, authField_mergeAuth_other s.cfg lanes, authField_mergeAuth]
  · rw [← field1, authField_mergeAuth]
  · rw [mergeAuth_below (by omega), mergeAuth_below (by omega)]

/-! ### The events of set_region_authorization (40_region_controller.md R141, R145) -/

theorem setAuthEvents_length (x : Slot) (a : Byte) (s : State) : (setAuthEvents x a s).length =
    (if s.tblAt 0 (.startFrame .rsv) = expStart s.cfg .rsv then 1 else 18) +
    (if s.tblAt 0 (.startFrame x) = expStart s.cfg x then 10 else 18) := by
  rw [setAuthEvents, List.length_append, ensureEvents_length]
  congr 1
  split <;> rfl

/-- Settles O22: the trace of the effect, and its length in the four cases. -/
theorem setAuthorizationEventsExact : Obligations.SetAuthorizationEventsExact := by
  intro s region a x ok ⟨hm, _⟩ own valid
  refine ⟨_, exec_next ok _, ?_, setAuthEvents_length x a s⟩
  rw [complete_trace]
  exact setAuthorization_trace ok hm (regionSlot_of_valid valid) own a

/-- An event of `program_frames` writes a frame of the slot. -/
theorem mem_frameEvents {cfg : Cfg} {x : Slot} {v : Event} (h : v ∈ frameEvents cfg x) :
    ∃ c r w, isFrameOf x r ∧ v = .regWr c r w := by
  simp only [frameEvents, List.mem_cons, List.not_mem_nil, or_false] at h
  rcases h with rfl | rfl | rfl | rfl | rfl | rfl | rfl | rfl
  all_goals exact ⟨_, _, _, by simp [isFrameOf], rfl⟩

/-- An event of `rmw_auth` reads or writes the slot's configuration word. -/
theorem mem_rmwEvents {x : Slot} {a : Byte} {s : State} {v : Event} (h : v ∈ rmwEvents x a s) :
    ∃ c w, v = .regRd c (authReg s.cfg x) w ∨ v = .regWr c (authReg s.cfg x) w := by
  simp only [rmwEvents, List.mem_cons, List.not_mem_nil, or_false] at h
  rcases h with rfl | rfl | rfl | rfl | rfl | rfl | rfl | rfl
  all_goals simp

/-- An event of `ensure_reserved_region` is the barrier or accesses one of the reserved window's
registers. -/
theorem mem_ensureEvents {s : State} {v : Event} (h : v ∈ ensureEvents s) :
    v = .barrier ∨ ∃ c r w, (isFrameOf .rsv r ∨ r = authReg s.cfg .rsv) ∧
      (v = .regRd c r w ∨ v = .regWr c r w) := by
  have observe : observeEvent .rsv s = .regRd 0 (.startFrame .rsv) (s.tblAt 0 (.startFrame .rsv)) :=
    rfl
  unfold ensureEvents at h
  split at h
  · rw [List.mem_singleton, observe] at h
    exact .inr ⟨_, _, _, .inl (.inl rfl), .inl h⟩
  · simp only [List.mem_cons, List.mem_append, List.not_mem_nil, or_false] at h
    rcases h with h | (h | h) | h
    · exact .inr ⟨_, _, _, .inl (.inl rfl), .inl h⟩
    · obtain ⟨c, r, w, hr, h⟩ := mem_frameEvents h
      exact .inr ⟨c, r, w, .inl hr, .inr h⟩
    · obtain ⟨c, w, h⟩ := mem_rmwEvents h
      exact .inr ⟨c, _, w, .inr rfl, h⟩
    · exact .inl h

/-- `ensure_reserved_region` touches no register of another slot (R141). -/
theorem ensureEvents_avoid {s : State} {x : Slot} (ne : x ≠ .rsv) (own : ownWord s.cfg x)
    {v : Event} (h : v ∈ ensureEvents s) :
    v.accessesAuth s.cfg x = false ∧ v.writesFrame x = false := by
  rcases mem_ensureEvents h with rfl | ⟨c, r, w, hr, hv⟩
  · exact ⟨rfl, rfl⟩
  have word : r ≠ authReg s.cfg x := hr.elim (isFrameOf_ne_authReg · s.cfg x) fun e => e ▸ own.symm
  have frame : ¬ isFrameOf x r := fun hf => hr.elim (fun h => ne (isFrameOf_inj hf h))
    (isFrameOf_ne_authReg hf s.cfg .rsv)
  rcases hv with rfl | rfl
  · simp [Event.accessesAuth, Event.writesFrame, word]
  · simpa [Event.accessesAuth, Event.writesFrame, word, isFrameOf] using frame

/-- On a match the reserved window is only read; on a mismatch it is programmed, and a barrier ends it
(R133). -/
theorem ensureEvents_programs (s : State) :
    (s.tblAt 0 (.startFrame .rsv) = expStart s.cfg .rsv ∧
      (ensureEvents s).any (·.programsReserved s.cfg) = false) ∨
    (s.tblAt 0 (.startFrame .rsv) ≠ expStart s.cfg .rsv ∧
      (ensureEvents s).any (·.programsReserved s.cfg) = true ∧
      (ensureEvents s).getLast? = some .barrier) := by
  unfold ensureEvents
  split
  · exact .inl ⟨‹_›, rfl⟩
  · exact .inr ⟨‹_›, rfl, rfl⟩

/-- The events of step 2: the read of the observed start frame, and the frame writes if it is another. -/
def fixUpEvents (x : Slot) (s : State) : List Event :=
  observeEvent x s ::
    if s.tblAt 0 (.startFrame x) = expStart s.cfg x then [] else frameEvents s.cfg x

theorem setAuthEvents_eq (x : Slot) (a : Byte) (s : State) :
    setAuthEvents x a s = ensureEvents s ++ fixUpEvents x s ++ rmwEvents x a s ++ [.barrier] := by
  simp [setAuthEvents, fixUpEvents]

/-- Step 2 accesses frames of its own slot and nothing else (R140, R141). -/
theorem fixUpEvents_avoid {s : State} {x : Slot} (ne : x ≠ .rsv) {v : Event}
    (h : v ∈ fixUpEvents x s) :
    v ≠ .barrier ∧ v.accessesAuth s.cfg x = false ∧ v.programsReserved s.cfg = false := by
  rcases List.mem_cons.1 h with rfl | h
  · simp [observeEvent, Event.accessesAuth, Event.programsReserved, authReg]
  split at h
  · cases h
  obtain ⟨c, r, w, hr, rfl⟩ := mem_frameEvents h
  have frame : ¬ isFrameOf .rsv r := fun h => ne (isFrameOf_inj hr h)
  obtain ⟨start, last⟩ := not_or.1 frame
  simp [Event.accessesAuth, Event.programsReserved, start, last, isFrameOf_ne_authReg hr]

/-- Step 3 accesses the slot's configuration word and nothing else (R139, R141). -/
theorem rmwEvents_access {s : State} {x : Slot} (own : ownWord s.cfg x) {a : Byte} {v : Event}
    (h : v ∈ rmwEvents x a s) :
    v ≠ .barrier ∧ v.accessesAuth s.cfg x = true ∧ v.programsReserved s.cfg = false ∧
      v.writesFrame x = false := by
  have word : authReg s.cfg x ≠ authReg s.cfg .rsv := own
  have start (y : Slot) : authReg s.cfg x ≠ .startFrame y := by simp [authReg]
  have last (y : Slot) : authReg s.cfg x ≠ .endFrame y := by simp [authReg]
  obtain ⟨c, w, rfl | rfl⟩ := mem_rmwEvents h
  · simp [Event.accessesAuth, Event.programsReserved, Event.writesFrame]
  · simp [Event.accessesAuth, Event.programsReserved, Event.writesFrame, word, start, last]

theorem fixUpEvents_frames {s : State} {x : Slot}
    (other : s.tblAt 0 (.startFrame x) ≠ expStart s.cfg x) :
    ((fixUpEvents x s).filter (·.writesFrame x)).length = 8 := by
  rw [fixUpEvents, if_neg other]
  simp [observeEvent, frameEvents, Event.writesFrame]

/-- Settles O24: the trace is the events of the three steps and the barrier. -/
theorem reservedWindowThenFramesThenAuthorization :
    Obligations.ReservedWindowThenFramesThenAuthorization := by
  intro s region a x ok ⟨hm, _⟩ own hx
  have ne := regionSlot_ne_rsv hx
  refine ⟨_, ensureEvents s, fixUpEvents x s, rmwEvents x a s, exec_next ok _, ?_,
    fun v hv => ensureEvents_avoid ne own hv, ?_, fun v hv => fixUpEvents_avoid ne hv,
    fun v hv => rmwEvents_access own hv, List.cons_ne_nil _ _, ?_, fixUpEvents_frames⟩
  · rw [complete_trace, ← setAuthEvents_eq]
    exact setAuthorization_trace ok hm hx own a
  · rcases ensureEvents_programs s with ⟨_, reads⟩ | ⟨_, _, ends⟩
    · rw [reads]; exact fun h => absurd h (by decide)
    · exact fun _ => ends
  · rcases ensureEvents_programs s with ⟨same, _⟩ | ⟨_, writes, _⟩
    · exact absurd same
    · exact fun _ => writes

/-! ### The same call twice (40_region_controller.md R146 (a)) -/

/-- `rmw_auth` of an authorization that stands in every bank writes back what stands there. -/
theorem rmwAuth_tbl_of_standing {x : Slot} {a : Byte} {s : State} (hm : Memory.wf s.tbl = true)
    (standing : ∀ c, mergeAuth s.cfg x a (s.tblAt c (authReg s.cfg x)) =
      s.tblAt c (authReg s.cfg x)) : (rmwAuth x a s).tbl = s.tbl := by
  have bank {u : State} (hc : u.cfg = s.cfg) (ht : u.tbl = s.tbl) (c : Bank) :
      (rmwBank x a u c).tbl = s.tbl := by
    have regs := tblAt_congr hc ht c (authReg s.cfg x)
    rw [rmwBank, tblWrite_tbl, tblRead_tbl, tblRead_cfg, hc, ht, regs, standing, State.tblAt]
    exact Memory.writeWord_readWord hm _
  have banks : ∀ (l : List Bank) (u : State), u.cfg = s.cfg → u.tbl = s.tbl →
      (l.foldl (rmwBank x a) u).tbl = s.tbl := by
    intro l
    induction l with
    | nil => exact fun _ _ ht => ht
    | cons c l ih => exact fun u hc ht => ih _ hc (bank hc ht c)
  exact banks _ s rfl rfl

/-- Nothing changes where the observed frames match and the authorization stands. -/
theorem setAuthorization_tbl_of_standing {s : State} (hm : Memory.wf s.tbl = true) {region : Word}
    {x : Slot} (hx : regionSlot region = some x) {a : Byte}
    (rsv : s.tblAt 0 (.startFrame .rsv) = expStart s.cfg .rsv)
    (own : s.tblAt 0 (.startFrame x) = expStart s.cfg x)
    (standing : ∀ c, mergeAuth s.cfg x a (s.tblAt c (authReg s.cfg x)) =
      s.tblAt c (authReg s.cfg x)) : (setAuthorization region a s).tbl = s.tbl := by
  have observed : startObserved x (tblRead 0 (.startFrame .rsv) s) = true :=
    (startObserved_iff x _).2 own
  rw [setAuthorization_of_some hx, barrier_tbl, ensureReserved_of_match rsv, fixUpFrames, observed]
  exact rmwAuth_tbl_of_standing (s := tblRead _ _ (tblRead _ _ s)) hm standing

/-- Settles O25: after one call the observed frames match and the authorization stands in every bank, so
that the second call takes the shortest path and writes back what it reads. -/
theorem repeatedAuthorizationKeepsTable : Obligations.RepeatedAuthorizationKeepsTable := by
  intro s region a x ok ⟨hm, _⟩ own hx
  have first := exec_next ok (.setRegionAuthorization region a)
  have cfg := exec_cfg first
  obtain ⟨tbl, -, -, regs⟩ := exec_setRegionAuthorization first
  generalize complete _ _ = t at first cfg tbl regs
  have ok' : cfgOk t.cfg = true := by rwa [cfg]
  have hm' : Memory.wf t.tbl = true := by rw [tbl]; exact setAuthorization_tblWf hm region a
  have own' : ownWord t.cfg x := by rwa [cfg]
  have rsv : t.tblAt 0 (.startFrame .rsv) = expStart t.cfg .rsv := by
    rw [regs, cfg]; exact setAuthorization_observed_rsv ok hm hx a
  have frame : t.tblAt 0 (.startFrame x) = expStart t.cfg x := by
    rw [regs, cfg]; exact setAuthorization_observed ok hm hx a
  have standing (c : Bank) : mergeAuth t.cfg x a (t.tblAt c (authReg t.cfg x)) =
      t.tblAt c (authReg t.cfg x) := by
    rw [regs, cfg, setAuthorization_authReg ok hm hx a c own, mergeAuth_idem]
  have second := exec_next ok' (.setRegionAuthorization region a)
  obtain ⟨tbl', trace', -, -⟩ := exec_setRegionAuthorization second
  refine ⟨t, _, setAuthEvents x a t, first, second, ?_, ?_, ?_, ?_⟩
  · rw [tbl']; exact setAuthorization_tbl_of_standing hm' hx rsv frame standing
  · rw [trace']; exact setAuthorization_trace ok' hm' hx own' a
  · rw [setAuthEvents_length, if_pos rsv, if_pos frame]
  · rw [setAuthEvents_eq, ensureEvents, fixUpEvents, if_pos rsv, if_pos frame]
    simp only [rmwEvents, standing, ← cfg]
    rfl

/-! ### An invalid region (40_region_controller.md R142) -/

/-- Settles O23: the operand names no slot, and only the return is left. -/
theorem invalidRegionIsNoOp : Obligations.InvalidRegionIsNoOp := by
  intro s region a ok h0 h1
  rw [exec_next ok, effectOf, setAuthorization_of_none (regionSlot_eq_none h0 h1)]
  rfl

/-! ### Stores to named registers (40_region_controller.md R136, R144) -/

/-- From `s` to `t` the acting hart has stored to the registers `l`, in any banks, and to nothing else:
every other byte of the table and every other hart's queue is as before. -/
structure StoresOnly (l : List TblReg) (s t : State) : Prop where
  same  : SameBut s t
  pend  : ∀ k, k ≠ s.hart → t.pendOf k = s.pendOf k
  tblWf : Memory.wf s.tbl = true → Memory.wf t.tbl = true
  bytes : Memory.wf s.tbl = true → ∀ k, (∀ c, ∀ r ∈ l, inWord (regAddr s.cfg c r) k = false) →
    Memory.read t.tbl k = Memory.read s.tbl k

theorem storesOnly_refl (s : State) : StoresOnly [] s s :=
  ⟨.refl s, fun _ _ => rfl, id, fun _ _ _ => rfl⟩

theorem StoresOnly.trans {l m : List TblReg} {s t u : State} (a : StoresOnly l s t)
    (b : StoresOnly m t u) : StoresOnly (l ++ m) s u where
  same := a.same.trans b.same
  pend := fun k hk => (b.pend k (a.same.hart ▸ hk)).trans (a.pend k hk)
  tblWf := b.tblWf ∘ a.tblWf
  bytes := by
    intro hm k outside
    rw [b.bytes (a.tblWf hm) k, a.bytes hm k]
    · exact fun c r hr => outside c r (List.mem_append_left m hr)
    · rw [a.same.cfg]
      exact fun c r hr => outside c r (List.mem_append_right l hr)

/-- A longer list of registers says less. -/
theorem StoresOnly.mono {l m : List TblReg} {s t : State} (a : StoresOnly l s t) (h : l ⊆ m) :
    StoresOnly m s t :=
  ⟨a.same, a.pend, a.tblWf, fun hm k outside => a.bytes hm k fun c r hr => outside c r (h hr)⟩

theorem storesOnly_tblRead (c : Bank) (r : TblReg) (s : State) : StoresOnly [] s (tblRead c r s) :=
  ⟨sameBut_tblRead c r s, fun _ _ => rfl, id, fun _ _ _ => rfl⟩

theorem storesOnly_tblWrite (c : Bank) (r : TblReg) (v : Word32) (s : State) :
    StoresOnly [r] s (tblWrite c r v s) where
  same := sameBut_tblWrite c r v s
  pend := fun k hk => by rw [pendOf_tblWrite, if_neg hk.symm]
  tblWf := fun hm => tblWrite_tblWf hm c r v
  bytes := fun hm k outside => by
    rw [tblWrite_tbl, Memory.read_writeWord hm, if_neg]
    simp [outside c r (List.mem_singleton_self r)]

theorem storesOnly_barrier (s : State) : StoresOnly [] s (barrier s) :=
  ⟨sameBut_barrier s, fun k hk => by rw [pendOf_barrier, if_neg hk.symm], id, fun _ _ _ => rfl⟩

/-- A loop over the banks stores to what its body stores to. -/
theorem storesOnly_foldl {cfg : Cfg} {l : List TblReg} {f : State → Bank → State}
    (hf : ∀ s c, s.cfg = cfg → StoresOnly l s (f s c)) (bs : List Bank) {s : State}
    (hc : s.cfg = cfg) : StoresOnly l s (bs.foldl f s) := by
  induction bs generalizing s with
  | nil => exact (storesOnly_refl s).mono (List.nil_subset l)
  | cons c bs ih =>
    have body := hf s c hc
    exact (body.trans (ih (body.same.cfg.trans hc))).mono (by simp)

theorem storesOnly_programFrames (x : Slot) (s : State) :
    StoresOnly [.startFrame x, .endFrame x] s (programFrames x s) :=
  storesOnly_foldl (fun s c _ => (storesOnly_tblWrite c (.startFrame x) (expStart s.cfg x) s).trans
    (storesOnly_tblWrite c (.endFrame x) _ _)) banks rfl

theorem storesOnly_rmwAuth (x : Slot) (a : Byte) (s : State) :
    StoresOnly [authReg s.cfg x] s (rmwAuth x a s) :=
  storesOnly_foldl (fun u c hc => hc ▸
    (storesOnly_tblRead c (authReg u.cfg x) u).trans (storesOnly_tblWrite c _ _ _)) banks rfl

theorem storesOnly_ensureReserved (s : State) :
    StoresOnly (ensureStores s) s (ensureReserved s) := by
  have read := storesOnly_tblRead 0 (.startFrame .rsv) s
  unfold ensureStores
  split
  · rw [ensureReserved_of_match ‹_›]
    exact read
  · rw [ensureReserved_of_mismatch ‹_›]
    have programmed := (read.trans (storesOnly_programFrames .rsv _)).trans <|
      (storesOnly_rmwAuth .rsv s.cfg.noAccess _).trans (storesOnly_barrier _)
    rw [programFrames_cfg, tblRead_cfg] at programmed
    exact programmed

theorem storesOnly_fixUpFrames (x : Slot) (s : State) :
    StoresOnly (if s.tblAt 0 (.startFrame x) = expStart s.cfg x then []
      else [.startFrame x, .endFrame x]) s (fixUpFrames x s) := by
  have read := storesOnly_tblRead Config.readReplica (.startFrame x) s
  unfold fixUpFrames
  simp only [startObserved_iff]
  split
  · exact read
  · exact read.trans (storesOnly_programFrames x _)

theorem setAuthStores_of_none {region : Word} (h : regionSlot region = none) (s : State) :
    setAuthStores region s = [] := by rw [setAuthStores, h]

theorem setAuthStores_of_some {region : Word} {x : Slot} (h : regionSlot region = some x)
    (s : State) : setAuthStores region s = ensureStores s ++
      (if s.tblAt 0 (.startFrame x) = expStart s.cfg x then [] else [.startFrame x, .endFrame x]) ++
      [authReg s.cfg x] := by rw [setAuthStores, h]

theorem storesOnly_setAuthorization {s : State} (ok : cfgOk s.cfg = true)
    (hm : Memory.wf s.tbl = true) (region : Word) (a : Byte) :
    StoresOnly (setAuthStores region s) s (setAuthorization region a s) := by
  cases hx : regionSlot region with
  | none =>
    rw [setAuthStores_of_none hx, setAuthorization_of_none hx]
    exact storesOnly_refl s
  | some x =>
    have observed := ensureReserved_frame ok hm 0 (regionSlot_ne_rsv hx)
      (.inl rfl : isFrameOf x (.startFrame x))
    have ensured := storesOnly_ensureReserved s
    have fixed := storesOnly_fixUpFrames x (ensureReserved s)
    have merged := storesOnly_rmwAuth x a (fixUpFrames x (ensureReserved s))
    rw [observed, ensured.same.cfg] at fixed
    rw [fixed.same.cfg, ensured.same.cfg] at merged
    rw [setAuthStores_of_some hx, setAuthorization_of_some hx]
    exact (ensured.trans fixed).trans (merged.trans (storesOnly_barrier _))

/-- An operation of the region controller stores to the registers its rules name. -/
theorem storesOnly_effectOf {i : Instr} (hr : isRegionOp i = true) {s : State}
    (ok : cfgOk s.cfg = true) (hm : Memory.wf s.tbl = true) :
    StoresOnly (storedRegs s i) s (effectOf i s) := by
  cases i with
  | ensureReservedRegion => exact storesOnly_ensureReserved s
  | setRegionAuthorization region a => exact storesOnly_setAuthorization ok hm region a
  | vcallPmpTcm0 a0 _ _ => exact storesOnly_setAuthorization ok hm Config.fidTcm0 (authOperand a0)
  | vcallPmpTcm1 a0 _ _ => exact storesOnly_setAuthorization ok hm Config.fidTcm1 (authOperand a0)
  | _ => cases hr

/-! ### The return of an operation (10_state.md R22) -/

/-- A return touches the acting hart only. -/
theorem complete_other {s : State} {k : Hart} (hk : k ≠ s.hart) (r : Return) :
    (complete r s).callOf k = s.callOf k ∧ (complete r s).retOf k = s.retOf k := by
  cases r <;> simp [complete, hk.symm]

/-- Of the acting hart's call registers a return writes `err` and `val` at most. -/
theorem complete_callOf (r : Return) (s : State) :
    ∃ e v, (complete r s).callOf s.hart = { s.callOf s.hart with err := e, val := v } := by
  cases r with
  | nothing => exact ⟨_, _, rfl⟩
  | boolean b => exact ⟨_, _, rfl⟩
  | status e v => exact ⟨e, v, by simp [complete]⟩

/-- Only a vendor call writes them. -/
theorem complete_call_of_entryPoint {i : Instr} (h : isVendorCall i = false) (cfg : Cfg) (s : State) :
    (complete (returnOf cfg i) s).call = s.call := by
  cases i with
  | ensureReservedRegion | setRegionAuthorization _ _ | bind _ _ | resetBaseline | dispatch _ _ _
  | isColdBootAllowed _ | earlyInit | extensionsInit | finalInit => rfl
  | _ => cases h

/-- Settles O28: the effect stores to the named registers only, and the return touches `err` and `val`
at most. -/
theorem regionOperationsFrame : Obligations.RegionOperationsFrame := by
  intro i s hr ok ⟨hm, _⟩
  obtain ⟨same, pend, _, bytes⟩ := storesOnly_effectOf hr ok hm
  have call (k : Hart) : (effectOf i s).callOf k = s.callOf k := by
    rw [State.callOf, same.call, State.callOf]
  have ret (k : Hart) : (effectOf i s).retOf k = s.retOf k := by
    rw [State.retOf, same.ret, State.retOf]
  obtain ⟨e, v, acting⟩ := complete_callOf (returnOf s.cfg i) (effectOf i s)
  rw [same.hart, call] at acting
  refine ⟨_, exec_next ok i, ?_⟩
  simp only [complete_cfg, complete_pmu, complete_busy, complete_handler, complete_coldHart,
    complete_hooks, complete_hart, complete_inputs, complete_tbl, pendOf_complete, acting, same.cfg,
    same.pmu, same.busy, same.handler, same.coldHart, same.hooks, same.hart, same.inputs, true_and]
  refine ⟨fun k hk => ?_, fun entry => ?_, bytes hm⟩
  · obtain ⟨callOther, retOther⟩ := complete_other (s := effectOf i s) (same.hart ▸ hk) (returnOf s.cfg i)
    exact ⟨pend k hk, callOther.trans (call k), retOther.trans (ret k)⟩
  · rw [complete_call_of_entryPoint entry, same.call]

end Sys2Proof.Machine
end

section
/-! PROOFS of the counter mapper (41_counter_mapper.md): what `bind` and `reset_baseline` leave in the
control registers and the events they issue (R161, R162, R164 to R167), how `dispatch` selects between
them (R163), and what the mapper's operations leave alone (R160, decision D13). -/

namespace Sys2Proof.Machine

/-! ### The effects (41_counter_mapper.md R161 to R163) -/

/-- `bind` with the index of a counter slot writes its event register (R161). -/
theorem bindCounter_of_index {i : Word} {c : Counter} (h : i.toNat = c.val + 3) (e : Word)
    (s : State) : bindCounter i e s = csrWrite (.evt c) e s := by
  rw [bindCounter, counterOf_eq_some h]

/-- `dispatch` compares all bits of the operation type (R163, decision D32). -/
theorem dispatchCounter_eq (t i e : Word) :
    dispatchCounter t i e = if t = 2 then bindCounter i e else resetCounters := by
  funext s
  have selects : selectsBind t = true ↔ t = 2 := beq_iff_eq
  rw [dispatchCounter, ite_apply]
  exact if_congr selects rfl rfl

/-- Every operation of the mapper has the effect of a `dispatch`. -/
theorem exists_dispatchCounter {i : Instr} (h : isCounterOp i = true) :
    ∃ t c e, effectOf i = dispatchCounter t c e := by
  cases i with
  | bind c e => exact ⟨Config.opBind, c, e, rfl⟩
  | resetBaseline => exact ⟨0, 0, 0, rfl⟩
  | dispatch t c e => exact ⟨t, c, e, rfl⟩
  | vcallPmuBind _ a1 a2 => exact ⟨Config.opBind, a1, a2, rfl⟩
  | vcallPmuReset _ a0 a1 a2 => exact ⟨a0, a1, a2, rfl⟩
  | vcallLegacyBind _ _ a1 a2 => exact ⟨Config.opBind, a1, a2, rfl⟩
  | vcallLegacyReset _ _ a0 a1 a2 => exact ⟨a0, a1, a2, rfl⟩
  | _ => cases h

/-- Settles O35: the two sides have the effect `dispatch` selects and the same return. -/
theorem dispatchSelectsByType : Obligations.DispatchSelectsByType := by
  intro s t i e
  have effect : exec (.dispatch t i e) s = operate (dispatchCounter t i e) .nothing s := rfl
  rw [effect, dispatchCounter_eq]
  split <;> rfl

theorem exec_bind {s : State} (ok : cfgOk s.cfg = true) (i e : Word) :
    exec (.bind i e) s = .next (complete .nothing (bindCounter i e s)) := exec_next ok _

theorem exec_resetBaseline {s : State} (ok : cfgOk s.cfg = true) :
    exec .resetBaseline s = .next (complete .nothing (resetCounters s)) := exec_next ok _

/-- Settles O29: the effect is one write of the calling hart's event register. -/
theorem bindWritesOneRegister : Obligations.BindWritesOneRegister := by
  intro s i e c ok index
  have acting : (csrWrite (.evt c) e s).pmuOf s.hart = (s.pmuOf s.hart).put (.evt c) e := by simp
  refine ⟨_, exec_bind ok i e, ?_⟩
  simp only [bindCounter_of_index index, pmuOf_complete, complete_trace, acting]
  refine ⟨?_, fun d other => ?_, ideleg_put _ _ _, wen_put _ _ _,
    (onlyCounters_csrWrite _ _ s).others, csrWrite_trace _ _ s⟩
  · rw [evtAt_put, if_pos rfl]
  · rw [evtAt_put, if_neg fun same => other (Csr.evt.inj same).symm]

/-! ### The registers a reset leaves (41_counter_mapper.md R162, R165 to R167) -/

/-- Settles O31: the baseline of each register, read off the effect. -/
theorem resetBaselineValues : Obligations.ResetBaselineValues := by
  intro s ok
  refine ⟨_, exec_resetBaseline ok, ?_⟩
  simp only [pmuOf_complete]
  refine ⟨fun c based => ?_, resetCounters_ideleg s, resetCounters_wen s,
    (onlyCounters_resetCounters s).others⟩
  rw [resetCounters_evt, if_pos based, BitVec.toNat_ofNat]
  omega

/-- Settles O32: counters 29 to 31 have no baseline, IDELEG is only or-ed into, and WEN has no bit
above the 32 that are set. -/
theorem resetBaselineLeavesAlone : Obligations.ResetBaselineLeavesAlone := by
  intro s ok
  refine ⟨_, exec_resetBaseline ok, ?_⟩
  simp only [pmuOf_complete]
  refine ⟨fun c unbased => ?_, fun j isSet => ?_, fun j isSet => ?_⟩
  · rw [resetCounters_evt, if_neg (by omega)]
  · rw [resetCounters_ideleg, BitVec.getLsbD_or, isSet, Bool.true_or]
  · have allOnes : (0xFFFFFFFF : Word32) = BitVec.allOnes 32 := rfl
    rw [resetCounters_wen, allOnes, BitVec.getLsbD_allOnes]
    exact decide_eq_true (BitVec.lt_of_getLsbD isSet)

/-- What a reset makes of a hart's registers `p`. -/
def CounterRegs.atBaseline (cfg : Cfg) (p : CounterRegs) : CounterRegs where
  evt    := Vector.ofFn fun c => if c.val + 3 ≤ 28 then BitVec.ofNat 64 (c.val + 1) else p.evtAt c
  ideleg := p.ideleg ||| (1#64 <<< cfg.ovfDelegBit.val)
  wen    := 0xFFFFFFFF

/-- The 31 registers of a hart are all there is of them (10_state.md R40). -/
theorem CounterRegs.eq_of_registers {p q : CounterRegs} (evt : ∀ c, p.evtAt c = q.evtAt c)
    (ideleg : p.ideleg = q.ideleg) (wen : p.wen = q.wen) : p = q := by
  obtain ⟨pe, pi, pw⟩ := p
  obtain ⟨qe, qi, qw⟩ := q
  have events : pe = qe := Vector.ext fun i hi => evt ⟨i, hi⟩
  exact congr (congr (congrArg _ events) ideleg) wen

@[simp] theorem evtAt_atBaseline (cfg : Cfg) (p : CounterRegs) (c : Counter) :
    (p.atBaseline cfg).evtAt c =
      if c.val + 3 ≤ 28 then BitVec.ofNat 64 (c.val + 1) else p.evtAt c := by
  simp [CounterRegs.evtAt, CounterRegs.atBaseline]

theorem resetCounters_pmuOf (s : State) :
    (resetCounters s).pmuOf s.hart = (s.pmuOf s.hart).atBaseline s.cfg := by
  refine CounterRegs.eq_of_registers (fun c => ?_) (resetCounters_ideleg s) (resetCounters_wen s)
  rw [resetCounters_evt, evtAt_atBaseline]

/-- Registers at the baseline stay as they are (R166). -/
theorem atBaseline_idem (cfg : Cfg) (p : CounterRegs) :
    (p.atBaseline cfg).atBaseline cfg = p.atBaseline cfg := by
  refine CounterRegs.eq_of_registers (fun c => ?_) ?_ ?_
  · simp only [evtAt_atBaseline]
    split <;> rfl
  · simp only [CounterRegs.atBaseline, BitVec.or_assoc, BitVec.or_self]
  · simp only [CounterRegs.atBaseline]

/-- A mapper's effect that leaves the acting hart's registers as they were leaves all but the trace. -/
theorem OnlyCounters.eq_of_pmuOf {s t : State} (o : OnlyCounters s t)
    (acting : t.pmuOf s.hart = s.pmuOf s.hart) : t = { s with trace := t.trace } := by
  have pmu : t.pmu = s.pmu := Vector.ext fun k hk => by
    have alike (h : Hart) : t.pmuOf h = s.pmuOf h := by
      by_cases calling : h = s.hart
      · rw [calling, acting]
      · exact o.others h calling
    exact alike ⟨k, hk⟩
  cases t
  obtain ⟨rfl, rfl, rfl, rfl, rfl, rfl, rfl, rfl, rfl, rfl, rfl, rfl, -⟩ := o
  cases pmu
  rfl

/-- A reset of registers at the baseline only issues its events. -/
theorem resetCounters_of_atBaseline {s : State} {p : CounterRegs}
    (based : s.pmuOf s.hart = p.atBaseline s.cfg) :
    resetCounters s = { s with trace := s.trace ++ resetEvents s.cfg s.hart } := by
  rw [← resetCounters_trace]
  refine (onlyCounters_resetCounters s).eq_of_pmuOf ?_
  rw [resetCounters_pmuOf, based, atBaseline_idem]

/-- A return of nothing after another one changes nothing. -/
theorem complete_nothing_of_ret {s : State} (h : s.retOf s.hart = .nothing) :
    complete .nothing s = s := by
  have same : s.ret.set s.hart.val .nothing = s.ret := by
    rw [← h]
    exact Vector.set_getElem_self _
  exact congrArg (fun r => { s with ret := r }) same

/-- A reset of registers at the baseline, of a hart whose last operation returned nothing. -/
theorem exec_resetBaseline_of_atBaseline {s : State} {p : CounterRegs} (ok : cfgOk s.cfg = true)
    (based : s.pmuOf s.hart = p.atBaseline s.cfg) (returned : s.retOf s.hart = .nothing) :
    exec .resetBaseline s = .next { s with trace := s.trace ++ resetEvents s.cfg s.hart } := by
  rw [exec_resetBaseline ok, resetCounters_of_atBaseline based]
  exact congrArg _ (complete_nothing_of_ret (s := { s with trace := _ }) returned)

/-- Settles O34: a second reset finds the registers at the baseline; an event register that was bound
is overwritten if it has a baseline. -/
theorem resetBaselineIsIdempotent : Obligations.ResetBaselineIsIdempotent := by
  intro s i e ok
  have reset := onlyCounters_resetCounters s
  have bound := onlyCounters_bindCounter i e s
  refine ⟨⟨_, exec_resetBaseline ok, ?_⟩,
    ⟨_, _, exec_bind ok i e, exec_resetBaseline ?_, fun c index => ?_⟩⟩
  · rw [exec_resetBaseline_of_atBaseline (p := s.pmuOf s.hart), complete_cfg, complete_hart,
      reset.cfg, reset.hart]
    · rwa [complete_cfg, reset.cfg]
    · rw [pmuOf_complete, complete_hart, complete_cfg, reset.hart, reset.cfg, resetCounters_pmuOf]
    · rw [retOf_complete, complete_hart, if_pos rfl]
  · rwa [complete_cfg, bound.cfg]
  · have overwritten := resetCounters_evt (complete .nothing (bindCounter i e s)) c
    rw [complete_hart, bound.hart] at overwritten
    rw [pmuOf_complete, overwritten, pmuOf_complete, bindCounter_of_index index, pmuOf_csrWrite,
      if_pos rfl, evtAt_put, if_pos rfl]

/-! ### The events (41_counter_mapper.md R164) -/

/-- Settles O33: the trace of the effect. -/
theorem resetBaselineEventsExact : Obligations.ResetBaselineEventsExact := by
  intro s ok
  refine ⟨_, exec_resetBaseline ok, ?_, ?_⟩
  · rw [complete_trace, resetCounters_trace]
  · simp only [resetEvents, List.length_cons, List.length_map, List.length_finRange]

/-- The mapper issues no table event and no barrier. -/
theorem dispatchCounter_trace (t i e : Word) (s : State) :
    ∃ es, (dispatchCounter t i e s).trace = s.trace ++ es ∧ ∀ v ∈ es, v.onTable = false := by
  rw [dispatchCounter_eq]
  split
  · cases named : counterOf i with
    | none => exact ⟨[], by simp [bindCounter_of_none named], nofun⟩
    | some c =>
      exact ⟨[.csrWr s.hart (.evt c) e], by simp [bindCounter, named], by simp [Event.onTable]⟩
  · exact ⟨_, resetCounters_trace s, by simp [resetEvents, Event.onTable]⟩

/-! ### The frame (41_counter_mapper.md R160, decision D13) -/

/-- An entry point of the mapper returns nothing (R160). -/
theorem returnOf_of_counterOp {i : Instr} (h : isCounterOp i = true) (entry : isVendorCall i = false)
    (cfg : Cfg) : returnOf cfg i = .nothing := by
  cases i with
  | bind _ _ | resetBaseline | dispatch _ _ _ => rfl
  | vcallPmuBind _ _ _ | vcallPmuReset _ _ _ _ | vcallLegacyBind _ _ _ _
  | vcallLegacyReset _ _ _ _ _ => cases entry
  | _ => cases h

/-- Settles O36: the effect is a `dispatch`'s, which writes the calling hart's control registers only,
and the return touches `err` and `val` at most. -/
theorem counterOperationsFrame : Obligations.CounterOperationsFrame := by
  intro i s mapper ok
  obtain ⟨t, c, e, effect⟩ := exists_dispatchCounter mapper
  obtain ⟨es, grown, offTable⟩ := dispatchCounter_trace t c e s
  have o := onlyCounters_dispatchCounter t c e s
  rw [← effect] at grown o
  have call (k : Hart) : (effectOf i s).callOf k = s.callOf k := by
    rw [State.callOf, o.call, State.callOf]
  have ret (k : Hart) : (effectOf i s).retOf k = s.retOf k := by
    rw [State.retOf, o.ret, State.retOf]
  obtain ⟨err, val, acting⟩ := complete_callOf (returnOf s.cfg i) (effectOf i s)
  rw [o.hart, call] at acting
  refine ⟨_, es, exec_next ok i, (complete_trace _ _).trans grown, offTable, ?_⟩
  simp only [complete_cfg, complete_tbl, complete_vis, complete_pend, complete_busy,
    complete_handler, complete_coldHart, complete_hooks, complete_hart, complete_inputs,
    pmuOf_complete, acting, o.cfg, o.tbl, o.vis, o.pend, o.busy, o.handler, o.coldHart, o.hooks,
    o.hart, o.inputs, true_and, and_true]
  refine ⟨fun k hk => ?_, fun entry => ⟨?_, ?_⟩⟩
  · obtain ⟨callOther, retOther⟩ :=
      complete_other (s := effectOf i s) (o.hart ▸ hk) (returnOf s.cfg i)
    exact ⟨o.others k hk, callOther.trans (call k), retOther.trans (ret k)⟩
  · rw [complete_call_of_entryPoint entry, o.call]
  · rw [returnOf_of_counterOp mapper entry, retOf_complete, o.hart, if_pos rfl]

end Sys2Proof.Machine
end

section
/-! PROOFS of the vendor call dispatcher (42_call_dispatcher.md): which operation a call runs (R180 to
R184, R187, R188), what it returns (R189), and what makes the dispatcher reachable (R193). -/

namespace Sys2Proof.Machine

/-! ### A request as a step (42_call_dispatcher.md R180, R193) -/

/-- An entry point always reaches the block, a call once the dispatcher is registered (R193; log 7). -/
theorem reaches_of_handler {r : Request} {s : State} (h : ∀ c, r = .vcall c → s.handler = true) :
    reaches r s = true := by
  cases r with
  | vcall c => exact h c rfl
  | proc _ _ => rfl

/-- A request that reaches the block on an idle hart runs the operation it decodes to. -/
theorem step_request {s : State} {h : Hart} {r : Request} {rest : List Input} {i : Instr}
    (hin : s.inputs = .request h r :: rest) (idle : s.busyOf h = []) (reached : reaches r s = true)
    (dec : decode s.cfg r = .ok i) :
    step s = exec i (begun h r i { s with inputs := rest }) := by
  have idle' : ({ s with inputs := rest } : State).busyOf h = [] := idle
  have reached' : reaches r { s with inputs := rest } = true := by
    cases r <;> exact reached
  simp [step, hin, takeInput, receive, idle', reached', dec]

theorem begun_callOf (h k : Hart) (r : Request) (i : Instr) (s : State) :
    (begun h r i s).callOf k = (presented h r s).callOf k := by
  rw [begun, State.callOf, noteHook_call, State.callOf]

/-- A request touches no call register of another hart. -/
theorem presented_callOf_other {h k : Hart} (hk : k ≠ h) (r : Request) (s : State) :
    (presented h r s).callOf k = s.callOf k := by
  cases r with
  | vcall c => rw [presented, callOf_setCall, if_neg hk.symm]; rfl
  | proc _ _ => rfl

/-- Settles O8: the operation begins in the state that `begun` names. -/
theorem stepRunsDecodedRequest : Obligations.StepRunsDecodedRequest := by
  intro s h r rest i hin idle handler dec
  refine ⟨_, step_request hin idle (reaches_of_handler handler) dec, ?_⟩
  simp only [begun_hart, begun_inputs, begun_cfg, begun_tbl, begun_vis, begun_pend, begun_pmu,
    begun_ret, begun_busy, begun_trace, begun_handler, begun_coldHart, hooksOf_begun, begun_callOf,
    true_and]
  refine ⟨fun k => if_congr eq_comm rfl rfl, fun k hk => presented_callOf_other hk _ _, ?_, ?_⟩
  · rintro c rfl
    rw [presented, callOf_setCall, if_pos rfl]
    rfl
  · rintro ep args rfl
    rfl

/-- Settles O9: a call that does not reach the block is taken from the input. -/
theorem unreachedCallChangesNothing : Obligations.UnreachedCallChangesNothing := by
  intro s h c rest handler asked
  have unreached : receive h (.vcall c) { s with inputs := rest } = .unreached :=
    if_pos handler
  rcases asked with hin | hin <;> simp only [step, hin, takeInput, unreached]

/-! ### The operation a call runs (42_call_dispatcher.md R181 to R184, R187, R188) -/

/-- A call's return takes the place of the return of nothing before it. -/
theorem complete_status_of_nothing (e v : Word) (s : State) :
    complete (.status e v) (complete .nothing s) = complete (.status e v) s := by
  simp [complete, setRet, setCall, State.callOf]

/-- A call whose row has the effect of an entry point is that entry point and then success. -/
theorem call_runs_entryPoint {s : State} {c : Call} {i j : Instr} (ok : cfgOk s.cfg = true)
    (dec : decode s.cfg (.vcall c) = .ok i) (effect : effectOf i = effectOf j)
    (nothing : returnOf s.cfg j = .nothing) :
    ∃ i t, decode s.cfg (.vcall c) = .ok i ∧ exec j s = .next t ∧
      exec i s = .next (complete (.status Config.success Config.callValue) t) := by
  refine ⟨i, _, dec, exec_next ok j, ?_⟩
  rw [exec_next ok i, returnOf_of_decode_vcall dec, effect, nothing, complete_status_of_nothing,
    callReturn]

/-- A call whose row has the effect of `dispatch(a0, a1, a2)` is what that selects
(41_counter_mapper.md R163), and then success. -/
theorem call_runs_mapper {s : State} {c : Call} {i : Instr} (ok : cfgOk s.cfg = true)
    (dec : decode s.cfg (.vcall c) = .ok i) (effect : effectOf i = dispatchCounter c.a0 c.a1 c.a2) :
    ∃ i t, decode s.cfg (.vcall c) = .ok i ∧
      (if c.a0 = 2 then exec (.bind c.a1 c.a2) s else exec .resetBaseline s) = .next t ∧
      exec i s = .next (complete (.status Config.success Config.callValue) t) := by
  rw [← dispatchSelectsByType]
  exact call_runs_entryPoint ok dec effect rfl

/-- Settles O37: both rows of the PMU extension dispatch to the mapper. -/
theorem pmuCallsRunTheMapper : Obligations.PmuCallsRunTheMapper := by
  intro s c ok aware pmu
  by_cases a0 : c.a0 = Config.opBind
  · refine call_runs_mapper ok (decode_vcall_of_condition .pmuBind ⟨aware, pmu, a0⟩) ?_
    rw [a0]; rfl
  · exact call_runs_mapper ok (decode_vcall_of_condition .pmuReset ⟨aware, pmu, a0⟩) rfl

/-- Settles O39: both rows of the legacy path dispatch to the mapper. -/
theorem legacyCallsRunTheMapper : Obligations.LegacyCallsRunTheMapper := by
  intro s c ok legacy
  by_cases a0 : c.a0 = Config.opBind
  · refine call_runs_mapper ok (decode_vcall_of_condition .legacyBind ⟨legacy, a0⟩) ?_
    rw [a0]; rfl
  · exact call_runs_mapper ok (decode_vcall_of_condition .legacyReset ⟨legacy, a0⟩) rfl

/-- The authorization of a call is the low byte of `a0` (decision D11). -/
theorem authOperand_eq (a0 : Word) : authOperand a0 = a0.extractLsb' 0 8 :=
  BitVec.setWidth_eq_extractLsb' (by decide)

/-- Settles O38: the two rows of the PMP extension name the region that their function id is. -/
theorem pmpCallsRunTheController : Obligations.PmpCallsRunTheController := by
  intro s c ok aware pmp region
  have ext : c.eid ≠ s.cfg.extPmu ∧ c.eid = s.cfg.extPmp := ⟨pmp ▸ (extIds_ne ok).symm, pmp⟩
  rw [← authOperand_eq]
  rcases region with fid | fid
  · refine call_runs_entryPoint ok (decode_vcall_of_condition .pmpTcm0 ⟨aware, ext, fid⟩) ?_ rfl
    rw [fid]; rfl
  · refine call_runs_entryPoint ok (decode_vcall_of_condition .pmpTcm1 ⟨aware, ext, fid⟩) ?_ rfl
    rw [fid]; rfl

/-! ### The return of a call (42_call_dispatcher.md R189) -/

theorem returnOf_of_vendorCall {i : Instr} (h : isVendorCall i = true) (cfg : Cfg) :
    returnOf cfg i = callReturn := by
  cases i with
  | vcallPmuBind _ _ _ | vcallPmuReset _ _ _ _ | vcallPmpTcm0 _ _ _ | vcallPmpTcm1 _ _ _
  | vcallPmpNop _ _ _ _ | vcallNop _ _ _ _ _ | vcallLegacyBind _ _ _ _
  | vcallLegacyReset _ _ _ _ _ => rfl
  | _ => cases h

/-- No effect writes a call register. -/
theorem effectOf_callOf (i : Instr) (s : State) (k : Hart) : (effectOf i s).callOf k = s.callOf k := by
  have kept : effectOf i s = withCall s.call (effectOf i s) := callBlind_effectOf i s.call s
  rw [kept]; rfl

@[simp] theorem extCallIf_ret (b : Bool) (n : Collaborator) (s : State) :
    (extCallIf b n s).ret = s.ret := by
  cases b <;> rfl

theorem finalHooks_ret (s : State) : (finalHooks s).ret = s.ret := by
  unfold finalHooks
  split
  · simp
  · rfl

/-- No effect is a return. -/
theorem effectOf_ret (i : Instr) (s : State) : (effectOf i s).ret = s.ret :=
  effectOf_induction (P := fun f => (f s).ret = s.ret)
    (ensure := (sameBut_ensureReserved s).ret)
    (setAuth := fun region a => (sameBut_setAuthorization region a s).ret)
    (bind := fun c e => (onlyCounters_bindCounter c e s).ret)
    (reset := (onlyCounters_resetCounters s).ret)
    (nothing := rfl)
    (early := extCallIf_ret _ _ s)
    (extensions := rfl)
    (final := finalHooks_ret s) i

/-- A call's return writes `err` and `val` of the acting hart. -/
theorem complete_status_callOf (e v : Word) (s : State) :
    (complete (.status e v) s).callOf s.hart = { s.callOf s.hart with err := e, val := v } := by
  simp [complete]

/-- Settles O41: the effect writes neither call registers nor returns, and the return of every row is
success. -/
theorem vendorCallsReturnSuccess : Obligations.VendorCallsReturnSuccess := by
  intro i s call ok
  have answer := complete_status_callOf 0 0 (effectOf i s)
  rw [effectOf_hart, effectOf_callOf] at answer
  have run : exec i s = .next (complete (.status 0 0) (effectOf i s)) := by
    rw [exec_next ok, returnOf_of_vendorCall call]; rfl
  refine ⟨_, run, answer, ?_, fun k hk => ?_⟩
  · rw [retOf_complete, effectOf_hart, if_pos rfl]
  · obtain ⟨callOther, retOther⟩ :=
      complete_other (s := effectOf i s) ((effectOf_hart i s).symm ▸ hk) (.status 0 0)
    refine ⟨callOther.trans (effectOf_callOf i s k), retOther.trans ?_⟩
    rw [State.retOf, effectOf_ret, State.retOf]

/-! ### What makes the dispatcher reachable (42_call_dispatcher.md R193; log 7) -/

@[simp] theorem extCallIf_handler (b : Bool) (n : Collaborator) (s : State) :
    (extCallIf b n s).handler =
      (s.handler || (b && decide (n = .registerVendorExtensionHandler))) := by
  cases b <;> simp [extCallIf]

/-- `final_init` registers the dispatcher on the hart performing cold boot, on hardware whose string
matches (43_boot_context.md R205). -/
theorem finalHooks_handler (s : State) : (finalHooks s).handler =
    (s.handler || (decide (s.hart = s.coldHart) && vendorMatches s.cfg)) := by
  unfold finalHooks
  split <;> simp [*]

/-- The effect `f` never makes the dispatcher reachable, and the pieces `body` do not hold the call
that does. -/
def NeverRegisters (f : State → State) (body : Cfg → Bool → List Micro) : Prop :=
  (∀ s, (f s).handler = s.handler) ∧
    ∀ cfg cold, .ext .registerVendorExtensionHandler ∉ body cfg cold

theorem neverRegisters_ensure : NeverRegisters ensureReserved fun cfg _ => ensureMicros cfg := by
  refine ⟨fun s => (sameBut_ensureReserved s).handler, fun cfg _ => ?_⟩
  simp [ensureMicros, programMicros, frameMicros, rmwMicros]

theorem neverRegisters_setAuth (region : Word) (a : Byte) :
    NeverRegisters (setAuthorization region a) fun cfg _ => setAuthMicros cfg region a := by
  refine ⟨fun s => (sameBut_setAuthorization region a s).handler, fun cfg cold => ?_⟩
  have ensure := neverRegisters_ensure.2 cfg cold
  simp only [setAuthMicros]
  split
  · simp
  · simp [ensure, programMicros, frameMicros, rmwMicros]

theorem neverRegisters_dispatch (t i e : Word) :
    NeverRegisters (dispatchCounter t i e) fun cfg _ => dispatchMicros cfg t i e := by
  refine ⟨fun s => (onlyCounters_dispatchCounter t i e s).handler, fun cfg _ => ?_⟩
  simp only [dispatchMicros, bindMicros, resetMicros]
  split
  · split <;> simp
  · simp

theorem neverRegisters_nothing : NeverRegisters id fun _ _ => [] := ⟨fun _ => rfl, fun _ _ => nofun⟩

/-- Every operation but `final_init` leaves the dispatcher as it was, whole or event by event. -/
theorem neverRegisters_of_ne_finalInit {i : Instr} (h : i ≠ .finalInit) :
    NeverRegisters (effectOf i) fun cfg cold => bodyMicros cfg cold i := by
  cases i with
  | ensureReservedRegion => exact neverRegisters_ensure
  | setRegionAuthorization region a => exact neverRegisters_setAuth region a
  | bind i e => exact neverRegisters_dispatch Config.opBind i e
  | resetBaseline => exact neverRegisters_dispatch 0 0 0
  | dispatch t i e => exact neverRegisters_dispatch t i e
  | isColdBootAllowed _ => exact neverRegisters_nothing
  | earlyInit =>
    refine ⟨fun s => by simp [effectOf], fun cfg _ => ?_⟩
    cases flag : cfg.errata.tlbFlush <;> simp [bodyMicros, extMicros, flag]
  | extensionsInit => exact ⟨fun s => by simp [effectOf], fun _ _ => by simp [bodyMicros]⟩
  | finalInit => exact absurd rfl h
  | vcallPmuBind _ a1 a2 => exact neverRegisters_dispatch Config.opBind a1 a2
  | vcallPmuReset _ a0 a1 a2 => exact neverRegisters_dispatch a0 a1 a2
  | vcallPmpTcm0 a0 _ _ => exact neverRegisters_setAuth Config.fidTcm0 (authOperand a0)
  | vcallPmpTcm1 a0 _ _ => exact neverRegisters_setAuth Config.fidTcm1 (authOperand a0)
  | vcallPmpNop _ _ _ _ => exact neverRegisters_nothing
  | vcallNop _ _ _ _ _ => exact neverRegisters_nothing
  | vcallLegacyBind _ _ a1 a2 => exact neverRegisters_dispatch Config.opBind a1 a2
  | vcallLegacyReset _ _ a0 a1 a2 => exact neverRegisters_dispatch a0 a1 a2

theorem vendorMatches_iff (cfg : Cfg) :
    vendorMatches cfg = true ↔ cfg.matchedCompat = cfg.vendorCompat := beq_iff_eq

/-- Run whole, an operation that makes the dispatcher reachable is a `final_init` on the hart performing
cold boot, on hardware whose string matches. -/
theorem effectOf_registers {i : Instr} {s : State} (before : s.handler = false)
    (after : (effectOf i s).handler = true) :
    i = .finalInit ∧ s.hart = s.coldHart ∧ s.cfg.matchedCompat = s.cfg.vendorCompat := by
  by_cases final : i = .finalInit
  · subst final
    rw [effectOf, finalHooks_handler] at after
    simpa [before, vendorMatches_iff] using after
  · rw [(neverRegisters_of_ne_finalInit final).1, before] at after
    cases after

/-- The pieces of an operation hold the call only if it is such a `final_init`. -/
theorem micros_registers {cfg : Cfg} {cold : Bool} {i : Instr}
    (h : .ext .registerVendorExtensionHandler ∈ micros cfg cold i) :
    i = .finalInit ∧ cold = true ∧ cfg.matchedCompat = cfg.vendorCompat := by
  have body : .ext .registerVendorExtensionHandler ∈ bodyMicros cfg cold i := by
    simpa [micros] using h
  by_cases final : i = .finalInit
  · subst final
    cases cold with
    | false => cases body
    | true =>
      refine ⟨rfl, rfl, (vendorMatches_iff cfg).1 ?_⟩
      by_contra mismatch
      cases flag : cfg.errata.powerControl <;>
        simp [bodyMicros, finalMicros, extMicros, mismatch, flag] at body
  · exact absurd body ((neverRegisters_of_ne_finalInit final).2 cfg cold)

theorem performMicro_handler (m : Micro) (rest : List Micro) (s : State) :
    (performMicro m rest s).handler =
      (s.handler || decide (m = .ext .registerVendorExtensionHandler)) := by
  cases m <;> simp [performMicro]

/-- An event makes the dispatcher reachable only if it is the call. -/
theorem issueNext_registers {s : State} (before : s.handler = false)
    (after : (issueNext s).handler = true) :
    ∃ q, s.busyOf s.hart = .ext .registerVendorExtensionHandler :: q := by
  unfold issueNext at after
  split at after
  · rw [before] at after
    cases after
  · rename_i m rest next
    rw [performMicro_handler, before, Bool.false_or, decide_eq_true_iff] at after
    exact ⟨rest, after ▸ next⟩

/-- An event leaves no external call to make that was not there. -/
theorem ext_mem_of_issueNext {n : Collaborator} {s : State} {k : Hart}
    (h : .ext n ∈ (issueNext s).busyOf k) : .ext n ∈ s.busyOf k := by
  unfold issueNext at h
  split at h
  · exact h
  · rename_i m rest next
    by_cases acting : s.hart = k
    · subst acting
      rw [next]
      rcases mem_busyOf_performMicro h with old | ⟨_, _, _, _, _, _, write⟩
      · exact List.mem_cons_of_mem _ old
      · cases write
    · rwa [(performMicro_other acting m rest).2] at h

/-- Settles O45: by the operation run whole, the event issued, and the operation begun. -/
theorem onlyFinalInitRegistersDispatcher : Obligations.OnlyFinalInitRegistersDispatcher := by
  refine ⟨?whole, ?issue, ?start, ?land⟩
  case whole =>
    intro i s t e before after
    obtain ⟨_, rfl⟩ := exec_inv e
    rw [complete_handler] at after
    exact effectOf_registers before after
  case issue =>
    intro s t h rest hin e
    rw [step_issue hin] at e
    cases e
    exact ⟨issueNext_registers (s := { s with inputs := rest, hart := h }),
      fun k => ext_mem_of_issueNext⟩
  case start =>
    intro s t h r rest hin e
    cases step_cases e with
    | idle _ ht => exact ht ▸ ⟨rfl, fun _ => .inl⟩
    | unreached _ _ _ ht => exact ht ▸ ⟨rfl, fun _ => .inl⟩
    | request _ _ _ _ hin' => simp [hin'] at hin
    | start h' r' rest' i hin' _ dec _ ht =>
      rw [hin] at hin'
      cases hin'
      subst ht
      refine ⟨by simp, fun k mem => ?_⟩
      rw [busyOf_setBusy, busyOf_begun] at mem
      split at mem
      · rename_i calling
        obtain ⟨rfl, cold, string⟩ := micros_registers mem
        exact .inr ⟨calling.symm, of_decide_eq_true cold, dec, string⟩
      · exact .inl mem
    | issue _ _ hin' => simp [hin'] at hin
    | land _ _ hin' => simp [hin'] at hin
  case land =>
    intro s t h rest hin e
    rw [step_land hin] at e
    cases e
    unfold landNext
    split <;> exact ⟨rfl, rfl⟩

end Sys2Proof.Machine
end

section
/-! PROOFS of the boot context (43_boot_context.md): what the cold-boot predicate and the three hooks do
(R200, R203 to R205), and what follows from hooks begun in order (R206). -/

namespace Sys2Proof.Machine

/-! ### The hooks as lists of external calls (43_boot_context.md R203 to R205, decision D30) -/

/-- An external call made under a condition, as a list. -/
def callIf (b : Bool) (n : Collaborator) : List Collaborator := if b then [n] else []

/-- The external calls of an operation that is the hook `o`, in the order written; `cold` says whether
the calling hart performs cold boot. An operation that is no hook makes none. -/
def hookCalls (cfg : Cfg) (cold : Bool) : Option Hook → List Collaborator
  | none => []
  | some .earlyInit => callIf cfg.errata.tlbFlush .registerTlbFlushTrapHandler
  | some .extensionsInit => [.registerPmuDevice]
  | some .finalInit =>
    if cold then
      callIf cfg.errata.powerControl .installPowerControlDevice ++
        callIf (vendorMatches cfg) .registerVendorExtensionHandler
    else []

/-- The hook a collaborator is called by. -/
def callerOf : Collaborator → Hook
  | .registerTlbFlushTrapHandler => .earlyInit
  | .registerPmuDevice => .extensionsInit
  | .installPowerControlDevice => .finalInit
  | .registerVendorExtensionHandler => .finalInit

@[simp] theorem map_ext_callIf (b : Bool) (n : Collaborator) :
    (callIf b n).map Event.ext = if b then [.ext n] else [] := by
  cases b <;> rfl

theorem extCallIf_eq (b : Bool) (n : Collaborator) (s : State) :
    extCallIf b n s = { s with
      trace := s.trace ++ (callIf b n).map .ext
      handler := s.handler || (b && decide (n = .registerVendorExtensionHandler)) } := by
  cases b <;> simp [extCallIf, extCall, emit, callIf]

theorem finalHooks_of_cold {s : State} (cold : s.hart = s.coldHart) :
    finalHooks s = { s with
      trace := s.trace ++ (hookCalls s.cfg true (some .finalInit)).map .ext
      handler := s.handler || vendorMatches s.cfg } := by
  rw [finalHooks, if_pos cold]
  simp [extCallIf_eq, hookCalls]

theorem finalHooks_of_not_cold {s : State} (warm : s.hart ≠ s.coldHart) : finalHooks s = s :=
  if_neg warm

/-! ### The predicate and the hooks (43_boot_context.md R200, R203 to R205) -/

theorem coldBootAllowed_iff (cfg : Cfg) (hartId : Word) :
    coldBootAllowed cfg hartId = true ↔
      cfg.coldBootHart = none ∨ cfg.coldBootHart = some hartId := by
  unfold coldBootAllowed
  split <;> rename_i selected
  · simp [selected]
  · simp [selected, eq_comm (a := hartId)]

/-- Settles O42: the operation has no effect, and returns the predicate. -/
theorem coldBootPredicate : Obligations.ColdBootPredicate := fun s hartId ok =>
  ⟨coldBootAllowed s.cfg hartId, exec_next ok _, coldBootAllowed_iff s.cfg hartId⟩

/-- Settles O43: each of the two hooks is its one external call, which is not the one that registers the
dispatcher. -/
theorem earlyAndExtensionsHooks : Obligations.EarlyAndExtensionsHooks := by
  intro s ok
  rw [exec_next ok, exec_next ok]
  constructor
  · simp [effectOf, extCallIf_eq, complete, setRet, returnOf]
  · simp [effectOf, extCall, emit, complete, setRet, returnOf]

/-- Settles O44: by whether the acting hart performs cold boot. -/
theorem finalHook : Obligations.FinalHook := by
  intro s ok
  rw [exec_next ok, effectOf]
  refine ⟨fun warm => by rw [finalHooks_of_not_cold warm]; rfl, fun cold => ?_⟩
  rw [finalHooks_of_cold cold]
  simp [hookCalls, vendorMatches, beq_eq_decide, complete, setRet, returnOf]

/-! ### The calls an operation makes, whole or event by event -/

/-- How often a collaborator has been called. -/
def State.madeCalls (s : State) (n : Collaborator) : Nat := s.trace.count (.ext n)

@[simp] theorem madeCalls_tblRead (c : Bank) (r : TblReg) (s : State) (n : Collaborator) :
    (tblRead c r s).madeCalls n = s.madeCalls n := by simp [State.madeCalls]

@[simp] theorem madeCalls_tblWrite (c : Bank) (r : TblReg) (v : Word32) (s : State)
    (n : Collaborator) : (tblWrite c r v s).madeCalls n = s.madeCalls n := by
  simp [State.madeCalls]

@[simp] theorem madeCalls_barrier (s : State) (n : Collaborator) :
    (barrier s).madeCalls n = s.madeCalls n := by simp [State.madeCalls]

@[simp] theorem madeCalls_csrWrite (k : Csr) (v : Word) (s : State) (n : Collaborator) :
    (csrWrite k v s).madeCalls n = s.madeCalls n := by simp [State.madeCalls]

@[simp] theorem madeCalls_csrSetBits (k : Csr) (m : Word) (s : State) (n : Collaborator) :
    (csrSetBits k m s).madeCalls n = s.madeCalls n := by simp [State.madeCalls]

@[simp] theorem madeCalls_extCall (m : Collaborator) (s : State) (n : Collaborator) :
    (extCall m s).madeCalls n = s.madeCalls n + [m].count n := by
  simp [State.madeCalls, List.count_singleton]

@[simp] theorem madeCalls_setBusy (h : Hart) (q : List Micro) (s : State) (n : Collaborator) :
    (setBusy h q s).madeCalls n = s.madeCalls n := rfl

@[simp] theorem madeCalls_complete (r : Return) (s : State) (n : Collaborator) :
    (complete r s).madeCalls n = s.madeCalls n := by simp [State.madeCalls]

@[simp] theorem madeCalls_begun (h : Hart) (r : Request) (i : Instr) (s : State)
    (n : Collaborator) : (begun h r i s).madeCalls n = s.madeCalls n := by simp [State.madeCalls]

@[simp] theorem madeCalls_extCallIf (b : Bool) (m : Collaborator) (s : State) (n : Collaborator) :
    (extCallIf b m s).madeCalls n = s.madeCalls n + (callIf b m).count n := by
  cases b <;> simp [extCallIf, callIf]

theorem madeCalls_foldl {α : Type} {f : State → α → State} {n : Collaborator}
    (hf : ∀ s c, (f s c).madeCalls n = s.madeCalls n) (l : List α) (s : State) :
    (l.foldl f s).madeCalls n = s.madeCalls n := by
  induction l generalizing s with
  | nil => rfl
  | cons c l ih => exact (ih (f s c)).trans (hf s c)

@[simp] theorem madeCalls_programFrames (x : Slot) (s : State) (n : Collaborator) :
    (programFrames x s).madeCalls n = s.madeCalls n :=
  madeCalls_foldl (fun s c => by simp [programBank]) banks s

@[simp] theorem madeCalls_rmwAuth (x : Slot) (a : Byte) (s : State) (n : Collaborator) :
    (rmwAuth x a s).madeCalls n = s.madeCalls n :=
  madeCalls_foldl (fun s c => by simp [rmwBank]) banks s

@[simp] theorem madeCalls_ensureReserved (s : State) (n : Collaborator) :
    (ensureReserved s).madeCalls n = s.madeCalls n := by
  unfold ensureReserved
  split <;> simp

@[simp] theorem madeCalls_fixUpFrames (x : Slot) (s : State) (n : Collaborator) :
    (fixUpFrames x s).madeCalls n = s.madeCalls n := by
  unfold fixUpFrames
  split <;> simp

theorem madeCalls_setAuthorization (region : Word) (a : Byte) (s : State) (n : Collaborator) :
    (setAuthorization region a s).madeCalls n = s.madeCalls n := by
  unfold setAuthorization
  split <;> simp

theorem madeCalls_dispatchCounter (t i e : Word) (s : State) (n : Collaborator) :
    (dispatchCounter t i e s).madeCalls n = s.madeCalls n := by
  unfold dispatchCounter
  split
  · unfold bindCounter
    split <;> simp
  · rw [resetCounters, madeCalls_foldl (f := bindBaseline) fun s c => madeCalls_csrWrite _ _ s n]
    simp

/-- The effect `f` run whole and the pieces `body` both make the external calls `calls`. -/
def MakesCalls (calls : Cfg → Bool → List Collaborator) (f : State → State)
    (body : Cfg → Bool → List Micro) : Prop :=
  (∀ s n, (f s).madeCalls n =
    s.madeCalls n + (calls s.cfg (decide (s.hart = s.coldHart))).count n) ∧
  ∀ cfg cold n, (body cfg cold).count (.ext n) = (calls cfg cold).count n

theorem makesCalls_ensure :
    MakesCalls (fun _ _ => []) ensureReserved fun cfg _ => ensureMicros cfg := by
  refine ⟨madeCalls_ensureReserved, fun cfg _ n => List.count_eq_zero.2 ?_⟩
  simp [ensureMicros, programMicros, frameMicros, rmwMicros]

theorem makesCalls_setAuth (region : Word) (a : Byte) : MakesCalls (fun _ _ => [])
    (setAuthorization region a) fun cfg _ => setAuthMicros cfg region a := by
  refine ⟨madeCalls_setAuthorization region a, fun cfg cold n => List.count_eq_zero.2 ?_⟩
  have ensure := List.count_eq_zero.1 (makesCalls_ensure.2 cfg cold n)
  simp only [setAuthMicros]
  split
  · simp
  · simp [ensure, programMicros, frameMicros, rmwMicros]

theorem makesCalls_dispatch (t i e : Word) : MakesCalls (fun _ _ => [])
    (dispatchCounter t i e) fun cfg _ => dispatchMicros cfg t i e := by
  refine ⟨madeCalls_dispatchCounter t i e, fun cfg _ n => List.count_eq_zero.2 ?_⟩
  simp only [dispatchMicros, bindMicros, resetMicros]
  split
  · split <;> simp
  · simp

theorem makesCalls_nothing : MakesCalls (fun _ _ => []) id fun _ _ => [] :=
  ⟨fun _ _ => rfl, fun _ _ _ => rfl⟩

theorem count_extMicros (b : Bool) (m n : Collaborator) :
    (extMicros b m).count (.ext n) = (callIf b m).count n := by
  cases b <;> simp [extMicros, callIf, List.count_singleton]

theorem makesCalls_finalInit : MakesCalls (fun cfg cold => hookCalls cfg cold (some .finalInit))
    finalHooks finalMicros := by
  refine ⟨fun s n => ?_, fun cfg cold n => ?_⟩
  · by_cases cold : s.hart = s.coldHart
    · simp [finalHooks, cold, hookCalls, Nat.add_assoc]
    · simp [finalHooks, cold, hookCalls]
  · cases cold <;> simp [finalMicros, hookCalls, count_extMicros]

/-- Every operation makes the external calls of the hook it is, if it is one. -/
theorem makesCalls_effectOf (i : Instr) : MakesCalls (fun cfg cold => hookCalls cfg cold (hookOf i))
    (effectOf i) fun cfg cold => bodyMicros cfg cold i := by
  cases i with
  | ensureReservedRegion => exact makesCalls_ensure
  | setRegionAuthorization region a => exact makesCalls_setAuth region a
  | bind i e => exact makesCalls_dispatch Config.opBind i e
  | resetBaseline => exact makesCalls_dispatch 0 0 0
  | dispatch t i e => exact makesCalls_dispatch t i e
  | isColdBootAllowed _ => exact makesCalls_nothing
  | earlyInit =>
    exact ⟨fun s n => madeCalls_extCallIf _ _ s n, fun cfg _ n => count_extMicros _ _ n⟩
  | extensionsInit => exact ⟨madeCalls_extCall _, fun _ _ n => count_extMicros true _ n⟩
  | finalInit => exact makesCalls_finalInit
  | vcallPmuBind _ a1 a2 => exact makesCalls_dispatch Config.opBind a1 a2
  | vcallPmuReset _ a0 a1 a2 => exact makesCalls_dispatch a0 a1 a2
  | vcallPmpTcm0 a0 _ _ => exact makesCalls_setAuth Config.fidTcm0 (authOperand a0)
  | vcallPmpTcm1 a0 _ _ => exact makesCalls_setAuth Config.fidTcm1 (authOperand a0)
  | vcallPmpNop _ _ _ _ => exact makesCalls_nothing
  | vcallNop _ _ _ _ _ => exact makesCalls_nothing
  | vcallLegacyBind _ _ a1 a2 => exact makesCalls_dispatch Config.opBind a1 a2
  | vcallLegacyReset _ _ a0 a1 a2 => exact makesCalls_dispatch a0 a1 a2

theorem count_micros (cfg : Cfg) (cold : Bool) (i : Instr) (n : Collaborator) :
    (micros cfg cold i).count (.ext n) = (hookCalls cfg cold (hookOf i)).count n := by
  simp [micros, (makesCalls_effectOf i).2]

theorem madeCalls_effectOf (i : Instr) (s : State) (n : Collaborator) :
    (effectOf i s).madeCalls n =
      s.madeCalls n + (hookCalls s.cfg (decide (s.hart = s.coldHart)) (hookOf i)).count n :=
  (makesCalls_effectOf i).1 s n

/-- A hook calls a collaborator of its own once at most, `final_init` on the hart performing cold boot
only, and a collaborator of another hook never. -/
theorem count_hookCalls_le (cfg : Cfg) (cold : Bool) (o : Option Hook) (n : Collaborator) :
    (hookCalls cfg cold o).count n ≤
      if o = some (callerOf n) ∧ (callerOf n = .finalInit → cold = true) then 1 else 0 := by
  have once (b : Bool) (m : Collaborator) : (callIf b m).count n ≤ if m = n then 1 else 0 := by
    cases b <;> simp [callIf, List.count_singleton]
  match o with
  | none => exact Nat.zero_le _
  | some .earlyInit =>
    refine (once _ _).trans ?_
    cases n <;> simp [callerOf]
  | some .extensionsInit =>
    refine (once true _).trans ?_
    cases n <;> simp [callerOf]
  | some .finalInit =>
    cases cold with
    | false => exact Nat.zero_le _
    | true =>
      have power := once cfg.errata.powerControl .installPowerControlDevice
      have handler := once (vendorMatches cfg) .registerVendorExtensionHandler
      rw [hookCalls, if_pos rfl, List.count_append]
      cases n <;> simp [callerOf] at power handler ⊢ <;> omega

/-! ### The four harts -/

theorem mem_harts (h : Hart) : h ∈ harts := by
  revert h; decide

/-- One hart and the three others. -/
theorem harts_perm (h : Hart) : harts.Perm (h :: harts.erase h) :=
  List.perm_cons_erase (mem_harts h)

theorem ne_of_mem_otherHarts {h k : Hart} (hk : k ∈ harts.erase h) : k ≠ h :=
  ((List.Nodup.mem_erase_iff (by decide)).1 hk).1

/-! ### The calls of a state -/

/-- The calls made and still to be made grow by as much as the acting hart makes and takes on. -/
theorem callsOf_le {s t : State} {h : Hart} {n : Collaborator} {c : Nat}
    (acting : t.madeCalls n + (t.busyOf h).count (.ext n) ≤
      s.madeCalls n + (s.busyOf h).count (.ext n) + c)
    (others : ∀ k, k ≠ h → t.busyOf k = s.busyOf k) : t.callsOf n ≤ s.callsOf n + c := by
  have rest : (harts.erase h).map (fun k => (t.busyOf k).count (.ext n)) =
      (harts.erase h).map (fun k => (s.busyOf k).count (.ext n)) :=
    List.map_congr_left fun k hk => by rw [others k (ne_of_mem_otherHarts hk)]
  have parts (u : State) : u.callsOf n = u.madeCalls n + ((u.busyOf h).count (.ext n) +
      ((harts.erase h).map fun k => (u.busyOf k).count (.ext n)).sum) := by
    rw [State.callsOf, State.madeCalls, ((harts_perm h).map _).sum_eq, List.map_cons, List.sum_cons]
  rw [parts, parts, rest]
  omega

/-- An event of the acting hart adds no call to those made and still to be made. -/
theorem madeCalls_performMicro_le (m : Micro) (rest : List Micro) (s : State) (n : Collaborator) :
    (performMicro m rest s).madeCalls n + ((performMicro m rest s).busyOf s.hart).count (.ext n) ≤
      s.madeCalls n + (m :: rest).count (.ext n) := by
  cases m with
  | test x k =>
    have dropped := (List.drop_sublist k rest).count_le (.ext n)
    simp only [performMicro, madeCalls_setBusy, madeCalls_tblRead, busyOf_setBusy, if_true]
    rw [List.count_cons_of_ne (by simp)]
    split <;> omega
  | ext m =>
    have made : rest.count (.ext n) + [m].count n = (.ext m :: rest).count (.ext n) := by
      simp [List.count_cons]
    simp only [performMicro, madeCalls_setBusy, madeCalls_extCall, busyOf_setBusy, if_true, ← made]
    omega
  | _ => simp [performMicro]

/-! ### The hooks begun -/

/-- `t` comes from `s` by the hart `h` beginning the hook `o` in order, or by no hook beginning. -/
structure BeginsInOrder (h : Hart) (o : Option Hook) (s t : State) : Prop where
  hooks    : ∀ k, t.hooksOf k = if h = k then s.hooksOf k ++ o.toList else s.hooksOf k
  coldHart : t.coldHart = s.coldHart
  inOrder  : ∀ k ∈ o, ∀ j ∈ s.hooksOf h, j.rank < k.rank

theorem beginsInOrder_none {s t : State} (hooks : t.hooks = s.hooks) (coldHart : t.coldHart = s.coldHart)
    (h : Hart) : BeginsInOrder h none s t :=
  ⟨fun k => by simp [State.hooksOf, hooks], coldHart, nofun⟩

theorem extCallIf_boot (b : Bool) (n : Collaborator) (s : State) :
    (extCallIf b n s).hooks = s.hooks ∧ (extCallIf b n s).coldHart = s.coldHart := by
  cases b <;> exact ⟨rfl, rfl⟩

theorem finalHooks_boot (s : State) :
    (finalHooks s).hooks = s.hooks ∧ (finalHooks s).coldHart = s.coldHart := by
  by_cases cold : s.hart = s.coldHart
  · rw [finalHooks_of_cold cold]; exact ⟨rfl, rfl⟩
  · rw [finalHooks_of_not_cold cold]; exact ⟨rfl, rfl⟩

/-- No effect writes down a hook or moves cold boot to another hart. -/
theorem effectOf_boot (i : Instr) (s : State) :
    (effectOf i s).hooks = s.hooks ∧ (effectOf i s).coldHart = s.coldHart :=
  effectOf_induction (P := fun f => (f s).hooks = s.hooks ∧ (f s).coldHart = s.coldHart)
    (ensure := ⟨(sameBut_ensureReserved s).hooks, (sameBut_ensureReserved s).coldHart⟩)
    (setAuth := fun region a =>
      ⟨(sameBut_setAuthorization region a s).hooks, (sameBut_setAuthorization region a s).coldHart⟩)
    (bind := fun c e => ⟨(onlyCounters_bindCounter c e s).hooks,
      (onlyCounters_bindCounter c e s).coldHart⟩)
    (reset := ⟨(onlyCounters_resetCounters s).hooks, (onlyCounters_resetCounters s).coldHart⟩)
    (nothing := ⟨rfl, rfl⟩)
    (early := extCallIf_boot _ _ s)
    (extensions := ⟨rfl, rfl⟩)
    (final := finalHooks_boot s) i

theorem issueNext_boot (s : State) :
    (issueNext s).hooks = s.hooks ∧ (issueNext s).coldHart = s.coldHart := by
  unfold issueNext
  split
  · exact ⟨rfl, rfl⟩
  · rename_i m rest _
    cases m <;> simp [performMicro]

/-- A hook that may begin on a hart has not begun on it, and comes after those that have. -/
theorem hookInOrder_iff {h : Hart} {i : Instr} {s : State} :
    hookInOrder h i s = true ↔ ∀ k ∈ hookOf i, ∀ j ∈ s.hooksOf h, j.rank < k.rank := by
  unfold hookInOrder
  split <;> simp [*]

theorem beginsInOrder_begun {h : Hart} {i : Instr} {s : State} (inOrder : hookInOrder h i s = true)
    (r : Request) (l : List Input) :
    BeginsInOrder h (hookOf i) s (begun h r i { s with inputs := l }) :=
  ⟨fun _ => hooksOf_begun .., begun_coldHart .., hookInOrder_iff.1 inOrder⟩

section
variable {h : Hart} {o : Option Hook} {s t : State}

theorem BeginsInOrder.trans_none (b : BeginsInOrder h o s t) {u : State} (hooks : u.hooks = t.hooks)
    (coldHart : u.coldHart = t.coldHart) : BeginsInOrder h o s u :=
  ⟨fun k => by rw [State.hooksOf, hooks]; exact b.hooks k, coldHart.trans b.coldHart,
    b.inOrder⟩

theorem BeginsInOrder.ordered (b : BeginsInOrder h o s t)
    (before : ∀ k, (s.hooksOf k).Pairwise fun j l => j.rank < l.rank) (k : Hart) :
    (t.hooksOf k).Pairwise fun j l => j.rank < l.rank := by
  rw [b.hooks]
  split
  · rename_i acting
    subst acting
    refine List.pairwise_append.2 ⟨before h, ?_, fun j hj l hl => b.inOrder l ?_ j hj⟩
    · cases o <;> simp
    · simpa using hl
  · exact before k

/-- On the acting hart the hook that begins had not begun before. -/
theorem BeginsInOrder.contains_acting (b : BeginsInOrder h o s t) (k : Hook) :
    (if (t.hooksOf h).contains k then 1 else 0) =
      (if (s.hooksOf h).contains k then 1 else 0) + if o = some k then 1 else 0 := by
  rw [b.hooks, if_pos rfl]
  by_cases new : o = some k
  · have fresh : k ∉ s.hooksOf h := fun old => Nat.lt_irrefl _ (b.inOrder k new k old)
    simp [new, fresh]
  · have other : k ∉ o.toList := by simpa using new
    simp [new, other]

theorem BeginsInOrder.begunOn (b : BeginsInOrder h o s t) (k : Hook) :
    t.begunOn k = s.begunOn k + if o = some k then 1 else 0 := by
  have others : (harts.erase h).countP (fun l => (t.hooksOf l).contains k) =
      (harts.erase h).countP (fun l => (s.hooksOf l).contains k) :=
    List.countP_congr fun l hl => by rw [b.hooks, if_neg (ne_of_mem_otherHarts hl).symm]
  rw [State.begunOn, State.begunOn, (harts_perm h).countP_eq, (harts_perm h).countP_eq,
    List.countP_cons, List.countP_cons, others, b.contains_acting]
  omega

theorem BeginsInOrder.finalBodies (b : BeginsInOrder h o s t) :
    t.finalBodies = s.finalBodies + if o = some .finalInit ∧ h = s.coldHart then 1 else 0 := by
  rw [State.finalBodies, State.finalBodies, b.coldHart]
  by_cases cold : h = s.coldHart
  · rw [← cold, b.contains_acting]
    simp
  · rw [b.hooks, if_neg cold]
    simp [cold]

/-! ### The hooks begun account for the calls (43_boot_context.md R206) -/

/-- How often the hooks begun allow a collaborator to be called. -/
def State.account (s : State) (n : Collaborator) : Nat :=
  if callerOf n = .finalInit then s.finalBodies else s.begunOn (callerOf n)

theorem bootInv_iff (s : State) : s.BootInv ↔
    (∀ h, (s.hooksOf h).Pairwise fun j k => j.rank < k.rank) ∧ ∀ n, s.callsOf n ≤ s.account n := by
  constructor
  · rintro ⟨ordered, early, extensions, power, handler⟩
    refine ⟨ordered, fun n => ?_⟩
    cases n with
    | registerTlbFlushTrapHandler => exact early
    | registerPmuDevice => exact extensions
    | installPowerControlDevice => exact power
    | registerVendorExtensionHandler => exact handler
  · rintro ⟨ordered, calls⟩
    exact ⟨ordered, calls .registerTlbFlushTrapHandler, calls .registerPmuDevice,
      calls .installPowerControlDevice, calls .registerVendorExtensionHandler⟩

/-- A hook that begins in order allows its own calls. -/
theorem BeginsInOrder.account (b : BeginsInOrder h o s t) (n : Collaborator) :
    s.account n + (hookCalls s.cfg (decide (h = s.coldHart)) o).count n ≤ t.account n := by
  have calls := count_hookCalls_le s.cfg (decide (h = s.coldHart)) o n
  unfold State.account
  split
  · rename_i final
    rw [b.finalBodies]
    simpa [final] using calls
  · rename_i other
    rw [b.begunOn]
    simpa [other] using calls

theorem State.BootInv.of_beginsInOrder (before : s.BootInv) (b : BeginsInOrder h o s t)
    (acting : ∀ n, t.madeCalls n + (t.busyOf h).count (.ext n) ≤
      s.madeCalls n + (s.busyOf h).count (.ext n) +
        (hookCalls s.cfg (decide (h = s.coldHart)) o).count n)
    (others : ∀ k, k ≠ h → t.busyOf k = s.busyOf k) : t.BootInv := by
  obtain ⟨ordered, calls⟩ := (bootInv_iff s).1 before
  refine (bootInv_iff t).2 ⟨b.ordered ordered, fun n => ?_⟩
  calc t.callsOf n
      ≤ s.callsOf n + (hookCalls s.cfg (decide (h = s.coldHart)) o).count n :=
        callsOf_le (acting n) others
    _ ≤ s.account n + (hookCalls s.cfg (decide (h = s.coldHart)) o).count n :=
        Nat.add_le_add_right (calls n) _
    _ ≤ t.account n := b.account n

/-- A hart that begins no hook adds no call. -/
theorem State.BootInv.of_none (before : s.BootInv) (hooks : t.hooks = s.hooks)
    (coldHart : t.coldHart = s.coldHart)
    (acting : ∀ n, t.madeCalls n + (t.busyOf h).count (.ext n) ≤
      s.madeCalls n + (s.busyOf h).count (.ext n))
    (others : ∀ k, k ≠ h → t.busyOf k = s.busyOf k) : t.BootInv :=
  before.of_beginsInOrder (beginsInOrder_none hooks coldHart h) acting others

end

theorem bootInv_exec {s t : State} {h : Hart} {r : Request} {i : Instr} {l : List Input}
    (before : s.BootInv) (inOrder : hookInOrder h i s = true)
    (e : exec i (begun h r i { s with inputs := l }) = .next t) : t.BootInv := by
  obtain ⟨_, rfl⟩ := exec_inv e
  obtain ⟨hooks, coldHart⟩ := effectOf_boot i (begun h r i { s with inputs := l })
  have busy (k : Hart) : (complete (returnOf (begun h r i { s with inputs := l }).cfg i)
      (effectOf i (begun h r i { s with inputs := l }))).busyOf k = s.busyOf k := by
    rw [busyOf_complete, State.busyOf, effectOf_busy]
    exact busyOf_begun h k r i { s with inputs := l }
  refine before.of_beginsInOrder ((beginsInOrder_begun inOrder r l).trans_none
    ((complete_hooks ..).trans hooks) ((complete_coldHart ..).trans coldHart)) (fun n => ?_)
    fun k _ => busy k
  rw [busy, madeCalls_complete, madeCalls_effectOf, madeCalls_begun, begun_cfg, begun_hart,
    begun_coldHart]
  exact (Nat.add_right_comm ..).le

theorem bootInv_start {s : State} {h : Hart} {r : Request} {i : Instr} {l : List Input}
    (before : s.BootInv) (inOrder : hookInOrder h i s = true) :
    (setBusy h (micros s.cfg (decide (h = s.coldHart)) i)
      (begun h r i { s with inputs := l })).BootInv := by
  refine before.of_beginsInOrder ((beginsInOrder_begun inOrder r l).trans_none rfl rfl)
    (fun n => ?_) fun k other => ?_
  · rw [madeCalls_setBusy, madeCalls_begun, busyOf_setBusy, if_pos rfl, count_micros]
    simp [State.madeCalls]
  · rw [busyOf_setBusy, if_neg other.symm]
    exact busyOf_begun h k r i { s with inputs := l }

theorem bootInv_issueNext {s : State} (before : s.BootInv) : (issueNext s).BootInv := by
  obtain ⟨hooks, coldHart⟩ := issueNext_boot s
  refine before.of_none (h := s.hart) hooks coldHart ?_ ?_ <;> unfold issueNext <;> split
  · exact fun _ => Nat.le_refl _
  · rename_i m rest next
    rw [next]
    exact madeCalls_performMicro_le m rest s
  · exact fun _ _ => rfl
  · exact fun k other => (performMicro_other other.symm _ _).2

theorem bootInv_landNext {s : State} (before : s.BootInv) (h : Hart) : (landNext h s).BootInv := by
  unfold landNext
  split
  · exact before
  · exact ⟨before.ordered, before.early, before.extensions, before.power, before.handler⟩

/-- The hooks' invariant speaks neither of the inputs nor of which hart acts. -/
theorem bootInv_acting {s : State} (before : s.BootInv) (l : List Input) (h : Hart) :
    ({ s with inputs := l, hart := h } : State).BootInv :=
  ⟨before.ordered, before.early, before.extensions, before.power, before.handler⟩

/-- Settles O59: an operation that begins, whole or event by event, is allowed its calls by the hook it
is; an event turns a call to be made into one made; nothing else touches hooks or calls. -/
theorem stepKeepsHooksInOrder : Obligations.StepKeepsHooksInOrder := by
  intro s t before premise e
  cases step_cases e with
  | idle _ ht => exact ht ▸ before
  | unreached _ rest _ ht => exact ht ▸ bootInv_acting before rest s.hart
  | request h r rest i hin _ dec he =>
    have inOrder := premise _ rest hin
    simp only [Input.inBootOrder, dec] at inOrder
    exact bootInv_exec before inOrder he
  | start h r rest i hin _ dec _ ht =>
    have inOrder := premise _ rest hin
    simp only [Input.inBootOrder, dec] at inOrder
    exact ht ▸ bootInv_start before inOrder
  | issue h rest _ ht => exact ht ▸ bootInv_issueNext (bootInv_acting before rest h)
  | land h rest _ ht => exact ht ▸ bootInv_landNext (bootInv_acting before rest s.hart) h

end Sys2Proof.Machine
end

section
/-! PROOFS of the exceptions (60_exceptions.md): a request without a meaning stops the machine under a
name of its own (R228, and R110 of 30_encoding.md). -/

namespace Sys2Proof.Machine

/-- No hart is re-entered (R228; log 14). -/
theorem receive_of_busy {h : Hart} {r : Request} {s : State} (reached : reaches r s = true)
    (busy : s.busyOf h ≠ []) : receive h r s = .stops .reentered := by
  rw [receive, if_neg (by simp [reached]), if_pos busy]

/-- A request that names no operation stops with the decoder's own reason (R110; log 1). -/
theorem receive_of_decode_error {h : Hart} {r : Request} {s : State} {e : Reject}
    (reached : reaches r s = true) (idle : s.busyOf h = []) (dec : decode s.cfg r = .error e) :
    receive h r s = .stops (.rejected e) := by
  rw [receive, if_neg (by simp [reached]), if_neg (not_not_intro idle), dec]

/-- What stops a request stops the step, whether the operation was to run whole or only to begin. -/
theorem step_of_stops {s : State} {h : Hart} {r : Request} {rest : List Input} {e : Refusal}
    (asked : s.inputs = .request h r :: rest ∨ s.inputs = .start h r :: rest)
    (stops : receive h r { s with inputs := rest } = .stops e) : step s = .refused e := by
  rcases asked with hin | hin <;> simp only [step, hin, takeInput, stops]

/-- Settles O10: the request reaches the block, which stops it as re-entering when the hart is busy and
as naming no operation when it is idle. -/
theorem requestsWithoutMeaningStop : Obligations.RequestsWithoutMeaningStop := by
  intro s h r rest asked handler
  have reached : reaches r { s with inputs := rest } = true := reaches_of_handler handler
  exact ⟨fun busy => step_of_stops asked (receive_of_busy reached busy),
    fun _ idle dec => step_of_stops asked (receive_of_decode_error reached idle dec)⟩

end Sys2Proof.Machine
end

section
/-! PROOFS of reset and hazards (70_reset_and_hazards.md): how many events an operation takes (R270),
that an operation issued event by event ends as the whole operation (R262, 20_memory.md R71, R74), and
that overlapping read-modify-writes lose a field (R262, 20_memory.md R78). -/

namespace Sys2Proof.Machine

/-! ### The next event of an operation in progress -/

theorem issueNext_of_idle {s : State} (idle : s.busyOf s.hart = []) : issueNext s = s := by
  rw [issueNext, idle]

theorem issueNext_of_busy {s : State} {m : Micro} {q : List Micro} (hb : s.busyOf s.hart = m :: q) :
    issueNext s = performMicro m q s := by
  rw [issueNext, hb]

theorem issueNext_hart (s : State) : (issueNext s).hart = s.hart := by
  unfold issueNext
  split
  · rfl
  · rename_i m q _
    cases m <;> simp [performMicro]

theorem issueNext_iterate_inputs (n : Nat) (s : State) : (issueNext^[n] s).inputs = s.inputs := by
  induction n generalizing s with
  | zero => rfl
  | succ n ih => rw [Function.iterate_succ_apply, ih, issueNext_inputs]

theorem setBusy_setBusy (h : Hart) (p q : List Micro) (s : State) :
    setBusy h p (setBusy h q s) = setBusy h p s := by simp [setBusy]

theorem setBusy_of_idle {s : State} {h : Hart} (idle : s.busyOf h = []) : setBusy h [] s = s := by
  rw [← idle]
  simp [setBusy, State.busyOf]

/-- An event that makes `u` of `s` whatever the acting hart has still to do, and leaves it `p` to do. -/
theorem issueNext_setBusy {m : Micro} {p q : List Micro} {s u : State}
    (h : performMicro m q (setBusy s.hart (m :: q) s) = setBusy s.hart p (setBusy s.hart (m :: q) u)) :
    issueNext (setBusy s.hart (m :: q) s) = setBusy s.hart p u := by
  rw [issueNext_of_busy (by rw [busyOf_setBusy, setBusy_hart, if_pos rfl]), h, setBusy_setBusy]

section
variable (s : State) (q : List Micro)

theorem issueNext_write (c : Bank) (r : TblReg) (v : Word32) :
    issueNext (setBusy s.hart (.write c r v :: q) s) = setBusy s.hart q (tblWrite c r v s) :=
  issueNext_setBusy rfl

theorem issueNext_rmw (c : Bank) (x : Slot) (a : Byte) :
    issueNext (setBusy s.hart (.rmw c x a :: q) s) =
      setBusy s.hart
        (.write c (authReg s.cfg x) (mergeAuth s.cfg x a (s.tblAt c (authReg s.cfg x))) :: q)
        (tblRead c (authReg s.cfg x) s) :=
  issueNext_setBusy rfl

theorem issueNext_test (x : Slot) (n : Nat) :
    issueNext (setBusy s.hart (.test x n :: q) s) =
      setBusy s.hart (if startObserved x s then q.drop n else q)
        (tblRead Config.readReplica (.startFrame x) s) :=
  issueNext_setBusy rfl

/-- The return leaves nothing to do. -/
theorem issueNext_ret (r : Return) (idle : s.busyOf s.hart = []) :
    issueNext (setBusy s.hart [.ret r] s) = complete r s := by
  rw [issueNext_setBusy (p := []) (u := complete r s) (by cases r <;> rfl),
    setBusy_of_idle (by rwa [busyOf_complete])]

end

/-! ### The pieces of an operation, one by one (70_reset_and_hazards.md R262) -/

/-- `t` is `s` after the pieces `ms` issued one by one: with `ms` before whatever else the acting hart
has still to do, `ms` is gone after as many issues as there are new events, `n` at most. If the pieces
access the region table only, so do the events. -/
structure Performs (n : Nat) (s : State) (ms : List Micro) (t : State) : Prop where
  cfg      : t.cfg = s.cfg
  hart     : t.hart = s.hart
  coldHart : t.coldHart = s.coldHart
  issued   : ∃ es : List Event, es.length ≤ n ∧ t.trace = s.trace ++ es ∧
    (ms.all Micro.onTable = true → es.all Event.onTable = true) ∧
    ∀ q, issueNext^[es.length] (setBusy s.hart (ms ++ q) s) = setBusy s.hart q t

theorem Performs.mono {n m : Nat} {s t : State} {ms : List Micro} (a : Performs n s ms t)
    (h : n ≤ m) : Performs m s ms t :=
  let ⟨es, bound, rest⟩ := a.issued
  ⟨a.cfg, a.hart, a.coldHart, es, bound.trans h, rest⟩

theorem performs_nothing (n : Nat) (s : State) : Performs n s [] s :=
  ⟨rfl, rfl, rfl, [], by simp⟩

theorem Performs.trans {n m : Nat} {s t u : State} {ms ms' : List Micro} (a : Performs n s ms t)
    (b : Performs m t ms' u) : Performs (n + m) s (ms ++ ms') u := by
  obtain ⟨cfg, hart, coldHart, es, bound, trace, table, run⟩ := a
  obtain ⟨cfg', hart', coldHart', es', bound', trace', table', run'⟩ := b
  refine ⟨cfg'.trans cfg, hart'.trans hart, coldHart'.trans coldHart, es ++ es', ?_, ?_, ?_,
    fun q => ?_⟩
  · rw [List.length_append]; omega
  · rw [trace', trace, List.append_assoc]
  · simp only [List.all_append, Bool.and_eq_true]
    exact And.imp table table'
  · rw [List.length_append, Nat.add_comm, Function.iterate_add_apply, List.append_assoc, run, ← hart,
      run']

/-- A loop over the banks or the counters. -/
theorem performs_foldl {α : Type} {n : Nat} {f : State → α → State} {body : Cfg → α → List Micro}
    (hf : ∀ s c, Performs n s (body s.cfg c) (f s c)) (l : List α) (s : State) :
    Performs (l.length * n) s (l.flatMap (body s.cfg)) (l.foldl f s) := by
  induction l generalizing s with
  | nil => exact performs_nothing _ s
  | cons c l ih =>
    have rest := ih (f s c)
    rw [(hf s c).cfg] at rest
    exact ((hf s c).trans rest).mono (by simp [Nat.succ_mul, Nat.add_comm])

theorem performs_event {s t : State} {m : Micro} {e : Event} (cfg : t.cfg = s.cfg)
    (hart : t.hart = s.hart) (coldHart : t.coldHart = s.coldHart) (trace : t.trace = s.trace ++ [e])
    (table : m.onTable = true → e.onTable = true)
    (run : ∀ q, issueNext (setBusy s.hart (m :: q) s) = setBusy s.hart q t) : Performs 1 s [m] t :=
  ⟨cfg, hart, coldHart, [e], le_rfl, trace, by simpa using table, run⟩

section
variable (s : State)

theorem performs_write (c : Bank) (r : TblReg) (v : Word32) :
    Performs 1 s [.write c r v] (tblWrite c r v s) :=
  performs_event rfl rfl rfl rfl (fun _ => rfl) fun q => issueNext_write s q c r v

theorem performs_barrier : Performs 1 s [.barrier] (barrier s) :=
  performs_event rfl rfl rfl rfl (fun _ => rfl) fun _ => issueNext_setBusy rfl

theorem performs_csrWrite (k : Csr) (v : Word) : Performs 1 s [.csrWrite k v] (csrWrite k v s) :=
  performs_event rfl rfl rfl rfl nofun fun _ => issueNext_setBusy rfl

theorem performs_csrSet (k : Csr) (m : Word) : Performs 1 s [.csrSet k m] (csrSetBits k m s) :=
  performs_event rfl rfl rfl rfl nofun fun _ => issueNext_setBusy rfl

theorem performs_ext (n : Collaborator) : Performs 1 s [.ext n] (extCall n s) :=
  performs_event rfl rfl rfl rfl nofun fun _ => issueNext_setBusy rfl

/-- One bank of `rmw_auth` is two events, the read and the write of the merged word
(20_memory.md R67). -/
theorem performs_rmw (x : Slot) (a : Byte) (c : Bank) :
    Performs 2 s [.rmw c x a] (rmwBank x a s c) :=
  ⟨rfl, rfl, rfl, [_, _], le_rfl, rmwBank_trace x a s c, fun _ => rfl, fun q =>
    (congrArg issueNext (issueNext_rmw s q c x a)).trans
      (issueNext_write (tblRead c (authReg s.cfg x) s) q c _ _)⟩

end

/-- The expected start frame passes over what the test guards. -/
theorem performs_test_match {x : Slot} {s : State} (same : startObserved x s = true) (n : Nat)
    (guarded : List Micro) :
    Performs (n + 1) s (.test x guarded.length :: guarded)
      (tblRead Config.readReplica (.startFrame x) s) := by
  refine ⟨rfl, rfl, rfl, [observeEvent x s], by simp, rfl, fun _ => rfl, fun q => ?_⟩
  rw [List.length_singleton, Function.iterate_one, List.cons_append, issueNext_test, if_pos same,
    List.drop_left]

/-- Any other start frame passes over nothing. -/
theorem performs_test_mismatch {x : Slot} {s t : State} (other : ¬ startObserved x s = true)
    {n k : Nat} {ms : List Micro}
    (a : Performs n (tblRead Config.readReplica (.startFrame x) s) ms t) :
    Performs (n + 1) s (.test x k :: ms) t := by
  obtain ⟨cfg, hart, coldHart, es, bound, trace, table, run⟩ := a
  refine ⟨cfg, hart, coldHart, observeEvent x s :: es, Nat.succ_le_succ bound, ?_, table, fun q => ?_⟩
  · rw [trace, tblRead_trace, List.append_assoc]; rfl
  · rw [List.length_cons, Function.iterate_succ_apply, List.cons_append, issueNext_test,
      if_neg other]
    exact run q

theorem performs_programFrames (x : Slot) (s : State) :
    Performs 8 s (programMicros s.cfg x) (programFrames x s) :=
  performs_foldl (body := fun cfg c => frameMicros cfg x c)
    (fun s c => (performs_write s c _ _).trans (performs_write _ c _ _)) banks s

theorem performs_rmwAuth (x : Slot) (a : Byte) (s : State) :
    Performs 8 s (rmwMicros x a) (rmwAuth x a s) :=
  performs_foldl (body := fun _ c => [.rmw c x a]) (fun s c => performs_rmw s x a c) banks s

/-- 18 events at most (40_region_controller.md R138). -/
theorem performs_ensure (s : State) : Performs 18 s (ensureMicros s.cfg) (ensureReserved s) := by
  unfold ensureReserved
  simp only
  split
  · rename_i same
    exact performs_test_match same 17
      (programMicros s.cfg .rsv ++ rmwMicros .rsv s.cfg.noAccess ++ [.barrier])
  · rename_i other
    exact performs_test_mismatch other (((performs_programFrames .rsv _).trans
      (performs_rmwAuth .rsv s.cfg.noAccess _)).trans (performs_barrier _))

theorem performs_fixUpFrames (x : Slot) (s : State) :
    Performs 9 s (.test x 8 :: programMicros s.cfg x) (fixUpFrames x s) := by
  unfold fixUpFrames
  simp only
  split
  · rename_i same
    exact performs_test_match same 8 (programMicros s.cfg x)
  · rename_i other
    exact performs_test_mismatch other (performs_programFrames x _)

theorem setAuthMicros_of_none {region : Word} (h : regionSlot region = none) (cfg : Cfg) (a : Byte) :
    setAuthMicros cfg region a = [] := by rw [setAuthMicros, h]

theorem setAuthMicros_of_some {region : Word} {x : Slot} (h : regionSlot region = some x) (cfg : Cfg)
    (a : Byte) : setAuthMicros cfg region a = ensureMicros cfg ++
      ((.test x 8 :: programMicros cfg x) ++ (rmwMicros x a ++ [.barrier])) := by
  rw [setAuthMicros, h]
  simp only [List.cons_append, List.append_assoc]

/-- 18, 9, 8 and the barrier: 36 events at most (40_region_controller.md R145). -/
theorem performs_setAuth (region : Word) (a : Byte) (s : State) :
    Performs 36 s (setAuthMicros s.cfg region a) (setAuthorization region a s) := by
  cases hx : regionSlot region with
  | none =>
    rw [setAuthMicros_of_none hx, setAuthorization_of_none hx]
    exact performs_nothing 36 s
  | some x =>
    have ensure := performs_ensure s
    have fixUp := performs_fixUpFrames x (ensureReserved s)
    rw [ensure.cfg] at fixUp
    rw [setAuthMicros_of_some hx, setAuthorization_of_some hx]
    exact ensure.trans (fixUp.trans ((performs_rmwAuth x a _).trans (performs_barrier _)))

theorem bindMicros_of_none {i : Word} (h : counterOf i = none) (e : Word) : bindMicros i e = [] := by
  rw [bindMicros, h]

theorem bindMicros_of_some {i : Word} {c : Counter} (h : counterOf i = some c) (e : Word) :
    bindMicros i e = [.csrWrite (.evt c) e] := by rw [bindMicros, h]

theorem bindCounter_of_some {i : Word} {c : Counter} (h : counterOf i = some c) (e : Word)
    (s : State) : bindCounter i e s = csrWrite (.evt c) e s := by rw [bindCounter, h]

theorem performs_bind (i e : Word) (s : State) :
    Performs 1 s (bindMicros i e) (bindCounter i e s) := by
  cases hc : counterOf i with
  | none =>
    rw [bindMicros_of_none hc, bindCounter_of_none hc]
    exact performs_nothing 1 s
  | some c =>
    rw [bindMicros_of_some hc, bindCounter_of_some hc]
    exact performs_csrWrite s (.evt c) e

theorem performs_reset (s : State) : Performs 28 s (resetMicros s.cfg) (resetCounters s) := by
  have baselines := performs_foldl (f := bindBaseline)
    (body := fun _ i => [.csrWrite (.evt i) (baseline i)])
    (fun s i => performs_csrWrite s (.evt i) (baseline i)) baselineCounters
  rw [resetMicros, List.map_eq_flatMap]
  exact (performs_csrSet s .ideleg (overflowMask s.cfg)).trans
    ((performs_csrWrite _ .wen wenAllOnes).trans (baselines _))

theorem performs_dispatch (t i e : Word) (s : State) :
    Performs 28 s (dispatchMicros s.cfg t i e) (dispatchCounter t i e s) := by
  unfold dispatchMicros dispatchCounter
  split
  · exact (performs_bind i e s).mono (by decide)
  · exact performs_reset s

theorem performs_extIf (b : Bool) (n : Collaborator) (s : State) :
    Performs 1 s (extMicros b n) (extCallIf b n s) := by
  cases b with
  | true => exact performs_ext s n
  | false => exact performs_nothing 1 s

theorem performs_final (s : State) :
    Performs 2 s (finalMicros s.cfg (decide (s.hart = s.coldHart))) (finalHooks s) := by
  unfold finalMicros finalHooks
  simp only [decide_eq_true_eq]
  split
  · exact (performs_extIf _ _ s).trans (performs_extIf _ _ _)
  · exact performs_nothing 2 s

/-- Every operation's effect is its pieces one by one, with 36 events at most. -/
theorem performs_effectOf (i : Instr) (s : State) :
    Performs 36 s (bodyMicros s.cfg (decide (s.hart = s.coldHart)) i) (effectOf i s) := by
  have dispatch (t i e : Word) : Performs 36 s (dispatchMicros s.cfg t i e) (dispatchCounter t i e s) :=
    (performs_dispatch t i e s).mono (by decide)
  cases i with
  | ensureReservedRegion => exact (performs_ensure s).mono (by decide)
  | setRegionAuthorization region a => exact performs_setAuth region a s
  | bind i e => exact (performs_bind i e s).mono (by decide)
  | resetBaseline => exact (performs_reset s).mono (by decide)
  | dispatch t i e => exact dispatch t i e
  | isColdBootAllowed _ => exact performs_nothing 36 s
  | earlyInit => exact (performs_extIf _ _ s).mono (by decide)
  | extensionsInit => exact (performs_ext s _).mono (by decide)
  | finalInit => exact (performs_final s).mono (by decide)
  | vcallPmuBind _ a1 a2 => exact dispatch _ a1 a2
  | vcallPmuReset _ a0 a1 a2 => exact dispatch a0 a1 a2
  | vcallPmpTcm0 a0 _ _ => exact performs_setAuth Config.fidTcm0 (authOperand a0) s
  | vcallPmpTcm1 a0 _ _ => exact performs_setAuth Config.fidTcm1 (authOperand a0) s
  | vcallPmpNop _ _ _ _ => exact performs_nothing 36 s
  | vcallNop _ _ _ _ _ => exact performs_nothing 36 s
  | vcallLegacyBind _ _ a1 a2 => exact dispatch _ a1 a2
  | vcallLegacyReset _ _ a0 a1 a2 => exact dispatch a0 a1 a2

/-! ### The bounds (70_reset_and_hazards.md R270) -/

theorem setAuthMicros_onTable (cfg : Cfg) (region : Word) (a : Byte) :
    (setAuthMicros cfg region a).all Micro.onTable = true := by
  unfold setAuthMicros
  split <;> rfl

theorem bodyMicros_onTable {i : Instr} (h : isRegionOp i = true) (cfg : Cfg) (cold : Bool) :
    (bodyMicros cfg cold i).all Micro.onTable = true := by
  cases i with
  | ensureReservedRegion => rfl
  | setRegionAuthorization region a => exact setAuthMicros_onTable cfg region a
  | vcallPmpTcm0 a0 _ _ => exact setAuthMicros_onTable cfg Config.fidTcm0 (authOperand a0)
  | vcallPmpTcm1 a0 _ _ => exact setAuthMicros_onTable cfg Config.fidTcm1 (authOperand a0)
  | _ => cases h

/-- Settles O50: the events are those of the pieces; a reset's are the 28 of R164, and a bind has one
piece at most. -/
theorem operationsAreBounded : Obligations.OperationsAreBounded := by
  intro i s t e
  obtain ⟨-, rfl⟩ := exec_inv e
  obtain ⟨es, bound, trace, table, -⟩ := (performs_effectOf i s).issued
  rw [complete_trace]
  refine ⟨es, trace, bound, ?_, ?_, fun h => List.all_eq_true.1 (table (bodyMicros_onTable h _ _))⟩
  · rintro rfl
    rw [effectOf, resetCounters_trace] at trace
    rw [← List.append_cancel_left trace]
    rfl
  · rintro c v rfl
    obtain ⟨es', bound', trace', -⟩ := (performs_bind c v s).issued
    rw [effectOf, trace'] at trace
    rwa [← List.append_cancel_left trace]

/-! ### An operation issued to its end (70_reset_and_hazards.md R262) -/

/-- After the 36 events at most of an operation and its return there is nothing more to issue. -/
theorem iterate_issueNext_micros {s : State} (idle : s.busyOf s.hart = []) (i : Instr) {n : Nat}
    (enough : 37 ≤ n) :
    issueNext^[n] (setBusy s.hart (micros s.cfg (decide (s.hart = s.coldHart)) i) s) =
      complete (returnOf s.cfg i) (effectOf i s) := by
  obtain ⟨-, hart, -, es, bound, -, -, run⟩ := performs_effectOf i s
  have still : (effectOf i s).busyOf (effectOf i s).hart = [] := by
    rw [hart, State.busyOf, effectOf_busy]; exact idle
  have done : issueNext (complete (returnOf s.cfg i) (effectOf i s)) = _ :=
    issueNext_of_idle (by rwa [complete_hart, busyOf_complete])
  obtain ⟨k, rfl⟩ : ∃ k, n = k + (1 + es.length) := ⟨n - (1 + es.length), by omega⟩
  rw [Function.iterate_add_apply, Function.iterate_add_apply, micros, run, Function.iterate_one, ← hart,
    issueNext_ret _ _ still]
  exact Function.iterate_fixed done k

/-! ### Landings in between (20_memory.md R71, R72, R74) -/

theorem landed_none (h : Hart) (l : List Input) (s : State) :
    landed h 0 l s = { s with inputs := l } := landed_zero h { s with inputs := l }

/-- A write is queued behind what has landed and what has not. -/
theorem tblWrite_landed {s : State} {k : Nat} (hk : k ≤ (s.pendOf s.hart).length) (l : List Input)
    (c : Bank) (r : TblReg) (v : Word32) :
    tblWrite c r v (landed s.hart k l s) = landed s.hart k l (tblWrite c r v s) := by
  have queue : (tblWrite c r v s).pendOf s.hart = s.pendOf s.hart ++ [⟨c, r, v⟩] := by simp
  have rest : (landed s.hart k l s).pendOf s.hart = (s.pendOf s.hart).drop k := by simp [landed]
  have acting : (landed s.hart k l s).hart = s.hart := rfl
  rw [tblWrite, acting, rest, landed, landed, queue, List.take_append_of_le_length hk,
    List.drop_append_of_le_length hk]
  simp [emit, setPend]

/-- A barrier takes the rest of the queue, and leaves nothing to land. -/
theorem barrier_landed (s : State) (k : Nat) (l : List Input) :
    barrier (landed s.hart k l s) = landed s.hart 0 l (barrier s) := by
  simp [barrier, emit, landed, setPend, State.pendOf, ← List.foldl_append]

/-- An event does the same however much of the acting hart's queue has landed. -/
theorem performMicro_landed {s : State} {k : Nat} (hk : k ≤ (s.pendOf s.hart).length) (l : List Input)
    (m : Micro) (q : List Micro) :
    ∃ k' ≤ ((performMicro m q s).pendOf s.hart).length,
      performMicro m q (landed s.hart k l s) = landed s.hart k' l (performMicro m q s) := by
  cases m with
  | write c r v =>
    have longer : k ≤ ((performMicro (.write c r v) q s).pendOf s.hart).length := by
      simp [performMicro]; omega
    exact ⟨k, longer, congrArg (setBusy s.hart q) (tblWrite_landed hk l c r v)⟩
  | barrier => exact ⟨0, Nat.zero_le _, congrArg (setBusy s.hart q) (barrier_landed s k l)⟩
  | ret r => exact ⟨k, by simpa [performMicro] using hk, by cases r <;> rfl⟩
  | _ => exact ⟨k, hk, rfl⟩

theorem step_issue_landed {s : State} {k : Nat} (hk : k ≤ (s.pendOf s.hart).length)
    (l : List Input) :
    ∃ k' ≤ ((issueNext s).pendOf s.hart).length,
      step (landed s.hart k (.issue s.hart :: l) s) = .next (landed s.hart k' l (issueNext s)) := by
  rw [step_issue (s := landed s.hart k (.issue s.hart :: l) s) rfl]
  change ∃ k' ≤ _, Host.Outcome.next (issueNext (landed s.hart k l s)) = _
  cases hb : s.busyOf s.hart with
  | nil =>
    have hb' : (landed s.hart k l s).busyOf (landed s.hart k l s).hart = [] := hb
    rw [issueNext_of_idle hb, issueNext_of_idle hb']
    exact ⟨k, hk, rfl⟩
  | cons m q =>
    have hb' : (landed s.hart k l s).busyOf (landed s.hart k l s).hart = m :: q := hb
    rw [issueNext_of_busy hb, issueNext_of_busy hb']
    obtain ⟨k', hk', same⟩ := performMicro_landed hk l m q
    exact ⟨k', hk', congrArg _ same⟩

theorem step_land_landed {s : State} {h : Hart} {k : Nat} (hk : k ≤ (s.pendOf h).length)
    (l : List Input) :
    ∃ k' ≤ (s.pendOf h).length, step (landed h k (.land h :: l) s) = .next (landed h k' l s) := by
  rw [step_land (s := landed h k (.land h :: l) s) rfl]
  change ∃ k' ≤ _, Host.Outcome.next (landNext h (landed h k l s)) = _
  by_cases queued : (landed h k l s).pendOf h = []
  · exact ⟨k, hk, congrArg _ (landNext_of_unqueued queued)⟩
  · refine ⟨k + 1, ?_, ?_⟩
    · simp [landed] at queued; omega
    · rw [← landed_landed h k 1 l, ← landNext_eq_landed queued]; rfl

/-- Issues and landings of one hart, in any order: the issues do what they do with no landing in
between, and part of the queue they leave has landed. -/
theorem run_issues_and_landings {h : Hart} {sched rest : List Input}
    (hs : ∀ inp ∈ sched, inp = .issue h ∨ inp = .land h) {s : State} {k : Nat} (acting : s.hart = h)
    (hk : k ≤ (s.pendOf h).length) :
    ∃ k' ≤ ((issueNext^[sched.count (.issue h)] s).pendOf h).length,
      Host.Core.run core sched.length (landed h k (sched ++ rest) s) =
        .next (landed h k' rest (issueNext^[sched.count (.issue h)] s)) := by
  subst acting
  induction sched generalizing s k with
  | nil => exact ⟨k, hk, rfl⟩
  | cons inp sched ih =>
    have others : ∀ i ∈ sched, i = .issue s.hart ∨ i = .land s.hart :=
      fun i hi => hs i (List.mem_cons_of_mem _ hi)
    rw [List.length_cons]
    rcases hs inp List.mem_cons_self with rfl | rfl
    · obtain ⟨k', hk', first⟩ := step_issue_landed hk (sched ++ rest)
      rw [List.cons_append, run_succ first, List.count_cons_self, Function.iterate_succ_apply]
      have acting := issueNext_hart s
      rw [← acting] at others hk' ⊢
      exact ih others hk'
    · obtain ⟨k', hk', first⟩ := step_land_landed hk (sched ++ rest)
      rw [List.cons_append, run_succ first, List.count_cons_of_ne (by simp)]
      exact ih others hk'

/-- An operation begun on an idle hart with nothing queued: it leaves nothing queued, so that nothing of
the landings remains. -/
theorem run_operation {s : State} {h : Hart} (acting : s.hart = h) (idle : s.busyOf h = [])
    (unqueued : s.pendOf h = []) (i : Instr) {sched : List Input}
    (hs : ∀ inp ∈ sched, inp = .issue h ∨ inp = .land h) (enough : 37 ≤ sched.count (.issue h)) :
    Host.Core.run core sched.length
      { setBusy h (micros s.cfg (decide (h = s.coldHart)) i) s with inputs := sched ++ s.inputs } =
      .next (complete (returnOf s.cfg i) (effectOf i s)) := by
  subst acting
  let start := setBusy s.hart (micros s.cfg (decide (s.hart = s.coldHart)) i) s
  obtain ⟨k, hk, run⟩ :=
    run_issues_and_landings (s := start) (rest := s.inputs) hs rfl (Nat.zero_le _)
  have inputs := issueNext_iterate_inputs (sched.count (.issue s.hart)) start
  rw [iterate_issueNext_micros idle i enough] at run hk inputs
  rw [pendOf_complete, effectOf_pend i s unqueued, unqueued, List.length_nil, Nat.le_zero] at hk
  subst hk
  rw [← landed_none s.hart, run]
  exact congrArg _ ((congrArg (landed s.hart 0 · _) inputs.symm).trans (landed_zero _ _))

/-! What there is to come says nothing of how an operation begins. -/

theorem reaches_inputs (r : Request) (l : List Input) (s : State) :
    reaches r { s with inputs := l } = reaches r s := by cases r <;> rfl

theorem begun_with_inputs (h : Hart) (r : Request) (i : Instr) (l : List Input) (s : State) :
    begun h r i { s with inputs := l } = { begun h r i s with inputs := l } := by
  cases r <;> simp only [begun, presented, noteHook] <;> split <;> rfl

/-- A request that becomes an operation is one that the decoder names. -/
theorem exec_of_step_request {s t : State} {h : Hart} {r : Request} {rest : List Input}
    (hin : s.inputs = .request h r :: rest) (idle : s.busyOf h = []) (reached : reaches r s = true)
    (e : step s = .next t) :
    ∃ i, decode s.cfg r = .ok i ∧ exec i (begun h r i { s with inputs := rest }) = .next t := by
  cases dec : decode s.cfg r with
  | error why =>
    have stops := receive_of_decode_error ((reaches_inputs r rest s).trans reached) idle dec
    rw [step_of_stops (.inl hin) stops] at e
    cases e
  | ok i => exact ⟨i, rfl, (step_request hin idle reached dec).symm.trans e⟩

/-- A start that reaches the block on an idle hart begins the operation it decodes to. -/
theorem step_start {s : State} {h : Hart} {r : Request} {rest : List Input} {i : Instr}
    (ok : cfgOk s.cfg = true) (hin : s.inputs = .start h r :: rest) (idle : s.busyOf h = [])
    (reached : reaches r s = true) (dec : decode s.cfg r = .ok i) :
    step s = .next (setBusy h (micros s.cfg (decide (h = s.coldHart)) i)
      (begun h r i { s with inputs := rest })) := by
  have idle' : ({ s with inputs := rest } : State).busyOf h = [] := idle
  simp [step, hin, takeInput, receive, reaches_inputs, idle', reached, dec, beginOperation, ok]

/-- Settles O55: the operation the request runs whole is the one the start begins, and issues and
landings in any order bring that to the same end. -/
theorem uninterruptedIssueIsTheOperation : Obligations.UninterruptedIssueIsTheOperation := by
  intro s t h r sched rest idle unqueued reached hs enough e
  have reached' (l : List Input) : reaches r { s with inputs := l } = true :=
    (reaches_inputs r l s).trans reached
  obtain ⟨i, dec, whole⟩ := exec_of_step_request (s := { s with inputs := .request h r :: rest })
    rfl idle (reached' _) e
  obtain ⟨ok, rfl⟩ := exec_inv whole
  rw [begun_cfg] at ok
  rw [run_succ (step_start (s := { s with inputs := .start h r :: (sched ++ rest) }) ok rfl idle
    (reached' _) dec)]
  have run := run_operation (s := begun h r i { s with inputs := rest }) (begun_hart ..)
    ((busyOf_begun ..).trans idle) ((pendOf_begun ..).trans unqueued) i hs enough
  have begins (l : List Input) := begun_with_inputs h r i l s
  rw [begun_cfg, begun_coldHart, begun_inputs, begins rest] at run
  rw [begun_cfg, begins rest, ← run]
  exact congrArg (fun u => Host.Core.run core sched.length (setBusy h _ u)) (begins (sched ++ rest))

/-! ### Overlapping updates (70_reset_and_hazards.md R262, 20_memory.md R78) -/

/-- The step from `s` to `u` issues the event `e` of hart `h`, with the inputs `rest` still to come: the
harts read `tbl` afterwards, the hart's operation has still `todo` to do, and no other operation moves. -/
structure IssueStep (h : Hart) (rest : List Input) (e : Event) (tbl : Memory) (todo : List Micro)
    (s u : State) : Prop where
  step   : step s = .next u
  inputs : u.inputs = rest
  cfg    : u.cfg = s.cfg
  tbl    : u.tbl = tbl
  trace  : u.trace = s.trace ++ [e]
  todo   : u.busyOf h = todo
  others : ∀ k, h ≠ k → u.busyOf k = s.busyOf k

theorem step_issue_of_busy {s : State} {h : Hart} {rest : List Input} {m : Micro} {q : List Micro}
    (hin : s.inputs = .issue h :: rest) (hb : s.busyOf h = m :: q) :
    step s = .next (performMicro m q { s with inputs := rest, hart := h }) := by
  have acting : ({ s with inputs := rest, hart := h } : State).busyOf h = m :: q := hb
  rw [step_issue hin, issueNext_of_busy acting]

section
variable {s : State} {h : Hart} {rest : List Input} {c : Bank} {q : List Micro}
  (hin : s.inputs = .issue h :: rest)
include hin

theorem issueStep_rmw {x : Slot} {a : Byte} (hb : s.busyOf h = .rmw c x a :: q) :
    ∃ u, IssueStep h rest (.regRd c (authReg s.cfg x) (s.tblAt c (authReg s.cfg x))) s.tbl
      (.write c (authReg s.cfg x) (mergeAuth s.cfg x a (s.tblAt c (authReg s.cfg x))) :: q) s u :=
  ⟨_, step_issue_of_busy hin hb, rfl, rfl, rfl, rfl, by simp [performMicro]; rfl,
    fun _ hk => (performMicro_other hk _ _).2⟩

theorem issueStep_write {r : TblReg} {v : Word32} (hb : s.busyOf h = .write c r v :: q) :
    ∃ u, IssueStep h rest (.regWr c r v) (Memory.writeWord s.tbl (regAddr s.cfg c r) v) q s u :=
  ⟨_, step_issue_of_busy hin hb, rfl, rfl, rfl, rfl, by simp [performMicro],
    fun _ hk => (performMicro_other hk _ _).2⟩

end

/-- Two merges of a bank's word begun by two harts, reads first and writes after: both words written
are merged from the words that stood there before. -/
theorem run_overlapping_rmw {s : State} {h k : Hart} (ne : h ≠ k) {c : Bank} {x y : Slot} {a b : Byte}
    {p q : List Micro} {rest : List Input} (hb : s.busyOf h = .rmw c x a :: p)
    (kb : s.busyOf k = .rmw c y b :: q)
    (hin : s.inputs = .issue h :: .issue k :: .issue h :: .issue k :: rest) :
    ∃ t, Host.Core.run core 4 s = .next t ∧ t.cfg = s.cfg ∧
      t.tbl =
        (tblWrite c (authReg s.cfg y) (mergeAuth s.cfg y b (s.tblAt c (authReg s.cfg y)))
          (tblWrite c (authReg s.cfg x) (mergeAuth s.cfg x a (s.tblAt c (authReg s.cfg x))) s)).tbl ∧
      t.trace = s.trace ++
        [ .regRd c (authReg s.cfg x) (s.tblAt c (authReg s.cfg x)),
          .regRd c (authReg s.cfg y) (s.tblAt c (authReg s.cfg y)),
          .regWr c (authReg s.cfg x) (mergeAuth s.cfg x a (s.tblAt c (authReg s.cfg x))),
          .regWr c (authReg s.cfg y) (mergeAuth s.cfg y b (s.tblAt c (authReg s.cfg y))) ] := by
  obtain ⟨u, read₁⟩ := issueStep_rmw hin hb
  obtain ⟨v, read₂⟩ := issueStep_rmw read₁.inputs ((read₁.others k ne).trans kb)
  obtain ⟨w, write₁⟩ := issueStep_write read₂.inputs ((read₂.others h ne.symm).trans read₁.todo)
  obtain ⟨t, write₂⟩ := issueStep_write write₁.inputs ((write₁.others k ne).trans read₂.todo)
  have same (r : TblReg) : u.tblAt c r = s.tblAt c r := tblAt_congr read₁.cfg read₁.tbl c r
  refine ⟨t, ?_, ?_, ?_, ?_⟩
  · rw [run_succ read₁.step, run_succ read₂.step, run_succ write₁.step, run_succ write₂.step]; rfl
  · rw [write₂.cfg, write₁.cfg, read₂.cfg, read₁.cfg]
  · simp [write₂.tbl, write₁.tbl, read₂.tbl, read₁.tbl, write₁.cfg, read₂.cfg, read₁.cfg, same]
  · simp [write₂.trace, write₁.trace, read₂.trace, read₁.trace, read₁.cfg, same]

/-- Settles O57: the word that stands in the end is the one merged by the second hart from the word
before both, in which the first hart's field, in a lane of its own, is the old one. -/
theorem overlappingUpdatesLoseAField : Obligations.OverlappingUpdatesLoseAField := by
  intro s h k c a b p q rest ok ⟨wf, _⟩ ne word hb kb hin
  obtain ⟨t, run, cfg, tbl, trace⟩ := run_overlapping_rmw ne hb kb hin
  have reg : authReg s.cfg .tcm0 = authReg s.cfg .tcm1 := congrArg TblReg.cfgWord word
  have lanes := lane_ne_of_authReg_eq ok (by decide) reg.symm
  have last : t.tblAt c (authReg s.cfg .tcm1) =
      mergeAuth s.cfg .tcm1 b (s.tblAt c (authReg s.cfg .tcm1)) := by
    rw [tblAt_congr (s := tblWrite _ _ _ (tblWrite _ _ _ s)) cfg tbl,
      tblAt_tblWrite (s := tblWrite _ _ _ s) ok (tblWrite_tblWf wf _ _ _), if_pos ⟨rfl, rfl⟩]
  refine ⟨t, run, ?_, ?_, trace⟩
  · rw [last, authField_mergeAuth]
  · rw [reg, last, authField_mergeAuth_other s.cfg lanes]

end Sys2Proof.Machine
end
